-- ==== Sys2Proof/Word.lean ====
section
/-! DEFINITION. The units of SHA1-CORE (spec 00_scope.md R7, R8, R11): byte, word and 64-bit length, the sixteen-word
block, the five-word chaining value, and the one way the model builds a register array from a function of the index.
Word addition, bitwise operators and complement (R9) are BitVec's own `+`, `^^^`, `&&&`, `|||` and `~~~`. -/

namespace Sys2Proof

/-- An 8-bit unsigned value (R8). -/
abbrev Byte := BitVec 8

/-- "A *word* is a 32-bit unsigned integer" (R8; WORD_BITS of R7). -/
abbrev Word := BitVec 32

/-- A 64-bit length (LEN_BITS of R7). -/
abbrev Dword := BitVec 64

/-- A 512-bit block as its sixteen words (R7 BLOCK_BITS, R105). -/
abbrev Block := Vector Word 16

/-- The array whose element `i` is `f i`, for `i < n` (R11). -/
def tabulate {α : Type} (n : Nat) (f : Nat → α) : Vector α n :=
  ⟨((List.range n).map f).toArray, by simp⟩

/-- A ChainingValue: "exactly 160 bits, decomposed into 5 32-bit words (h0..h4)" (R15). -/
structure CV where
  h0 : Word
  h1 : Word
  h2 : Word
  h3 : Word
  h4 : Word
deriving DecidableEq, Repr

end Sys2Proof
end

