-- ==== Sys2Proof/Syntax.lean ====
section
/-! DEFINITION. The commands of SHA1-CORE (spec 30_encoding.md R84), one constructor per row of
spec/opcode_table.json. A command is the only thing the spec calls an instruction. -/

namespace Sys2Proof

/-- A command (R84). `nb` is the tail byte count n of PAD and FINAL (R82); WellFormed.lean bounds it. -/
inductive Instr where
  /-- NOP, opcode 0x0 (R187). -/
  | nop
  /-- INIT, opcode 0x1 (R185). -/
  | init
  /-- COMPRESS, opcode 0x2 (R159). -/
  | compress
  /-- PAD n, opcode 0x3 (R114). -/
  | pad (nb : Nat)
  /-- FINAL n, opcode 0x4 (R186). -/
  | final (nb : Nat)
  /-- CLRERR, opcode 0x5 (R188). -/
  | clrerr
deriving DecidableEq, Repr

/-- The three fields of the one command format, CMDW (R80). -/
structure CmdW where
  /-- OPC, bits [3:0] (R81). -/
  opc : BitVec 4
  /-- NB, bits [9:4] (R82). -/
  nb : BitVec 6
  /-- RSV, bits [31:10] (R83). -/
  rsv : BitVec 22
deriving DecidableEq, Repr

end Sys2Proof
end

