-- ==== Sys2Proof/WellFormed.lean ====
section
/-! DEFINITION. Which commands exist: the tail count of PAD and FINAL is the unsigned value of a six-bit field
(spec 30_encoding.md R82). No other command has an operand. -/

namespace Sys2Proof

/-- "a 6-bit unsigned value ... with range 0 to 63" (R82). -/
def tailCountFits (n : Nat) : Bool := decide (n < 64)

/-- The command can be written as a command word. -/
def Instr.wellFormed : Instr → Bool
  | .nop => true
  | .init => true
  | .compress => true
  | .pad n => tailCountFits n
  | .final n => tailCountFits n
  | .clrerr => true

end Sys2Proof
end

