-- ==== Sys2Proof/Decode.lean ====
section
/-! DEFINITION. Command words (spec 30_encoding.md R80 to R87): the decoder, total on all 2^32 words and rejecting by
name, and the encoder. The busy check of R85 is not decoding: Machine/Port.lean makes it first. -/

namespace Sys2Proof

/-- Why a command word is illegal (R224 lists the three grounds). -/
inductive IllegalWord where
  /-- RSV ≠ 0 (R83). -/
  | reservedBits
  /-- OPC in 0x6 to 0xF (R86). -/
  | reservedOpcode
  /-- NB ≠ 0 for a command that takes no tail (R87). -/
  | tailCountNotZero
deriving DecidableEq, Repr

/-- What a command word stands for. -/
inductive Decoded where
  | command (i : Instr)
  | illegal (why : IllegalWord)
deriving DecidableEq, Repr

/-- The fields of a command word (R80). -/
def fieldsOf (v : Word) : CmdW :=
  { opc := v.extractLsb' 0 4, nb := v.extractLsb' 4 6, rsv := v.extractLsb' 10 22 }

/-- A command without a tail count: NB must be 0 (R87). -/
def noTail (i : Instr) (nb : BitVec 6) : Decoded :=
  if nb = 0 then .command i else .illegal .tailCountNotZero

/-- The opcode map (R84) on words whose reserved bits are 0. -/
def decodeOpcode (opc : BitVec 4) (nb : BitVec 6) : Decoded :=
  match opc.toNat with
  | 0 => noTail .nop nb
  | 1 => noTail .init nb
  | 2 => noTail .compress nb
  | 3 => .command (.pad nb.toNat)
  | 4 => .command (.final nb.toNat)
  | 5 => noTail .clrerr nb
  | _ => .illegal .reservedOpcode

/-- The decoder (R85), its checks in the order R85 makes them. -/
def decode (v : Word) : Decoded :=
  let f := fieldsOf v
  if f.rsv ≠ 0 then .illegal .reservedBits else decodeOpcode f.opc f.nb

/-- The opcode of a command (R84). -/
def Instr.opcode : Instr → BitVec 4
  | .nop => 0x0
  | .init => 0x1
  | .compress => 0x2
  | .pad _ => 0x3
  | .final _ => 0x4
  | .clrerr => 0x5

/-- The NB field of a command: the tail count, or 0 where the opcode map says it must be 0 (R84). R90 gives a word for
tail counts 0 to 63; a count n of 64 or more, which is ill-formed, gets that of n mod 64 (DESIGN CHOICE,
notes/assumptions 17). -/
def Instr.tailField : Instr → BitVec 6
  | .nop => 0
  | .init => 0
  | .compress => 0
  | .pad n => BitVec.ofNat 6 n
  | .final n => BitVec.ofNat 6 n
  | .clrerr => 0

/-- The word with these fields (R80). -/
def packFields (f : CmdW) : Word := f.rsv ++ f.nb ++ f.opc

/-- The word of a command: OPC, NB and zero reserved bits (R80 to R84, R90). -/
def encode (i : Instr) : Word := packFields { opc := i.opcode, nb := i.tailField, rsv := 0 }

/-- The command read from an opcode-table row's bits: the low `nbits` bits of `w`, every higher bit 0.
A command is exactly one 32-bit word (R80), so bits that do not fit in one word are no command. -/
def decodeTableWord (nbits w : Nat) : Option Instr :=
  let v := w % 2 ^ nbits
  if v < 2 ^ 32 then
    match decode (BitVec.ofNat 32 v) with
    | .command i => some i
    | .illegal _ => none
  else none

end Sys2Proof
end

