-- ==== Sys2Proof/Config.lean ====
section
/-! DEFINITION. What is fixed for one SHA1-CORE (spec 00_scope.md R7) and the free values of the model.
Constants that R7 or R180 fixes are definitions. Every parameter that R7 calls OPEN, and every value that the spec
calls UNSPECIFIED (R14), is an opaque constant with no body: a proof can see no value of it. -/

namespace Sys2Proof.Config

/-- `ID_VALUE` (R7, R26): the ASCII bytes "SHA1". -/
def idValue : Word := 0x53484131

/-- The standard initial chaining value (R180). -/
def iv : CV := ⟨0x67452301, 0xEFCDAB89, 0x98BADCFE, 0x10325476, 0xC3D2E1F0⟩

/-- OPEN (R7): which 256-byte page of the platform's address space the register window of block 0 fills. -/
opaque sha1FirstPage : Nat

/-- OPEN (R7, R234): how many pages lie free between the windows of blocks `k` and `k + 1`. -/
opaque sha1PageGap : Nat → Nat

/-- The page of block `k`'s window: "Each has its own window" (R234), so no two blocks share a page. That the blocks are
numbered in the order of their addresses is DEDUCED: notes/assumptions 16. -/
def sha1Page : Nat → Nat
  | 0 => sha1FirstPage
  | k + 1 => sha1Page k + 1 + sha1PageGap k

/-- `SHA1_BASE` of block `k` (R7, R50): "a multiple of 256". It is the block's only identifier (R234). -/
def sha1Base (k : Nat) : Nat := 256 * sha1Page k

/-- OPEN (R7, R258): the cycles of COMPRESS beyond the one every latency has. The latencies and TRACE_PRESENT are the
same for every block of a platform: R234 does not say whether two may differ (DESIGN CHOICE, notes/assumptions 21). -/
opaque latCompressExtra : Nat

/-- OPEN (R7, R258): the cycles of PAD beyond the one every latency has. One for all blocks (DESIGN CHOICE,
notes/assumptions 21). -/
opaque latPadExtra : Nat

/-- OPEN (R7, R258, R259): the cycles of FINAL beyond the one every latency has, for a one-block
(`false`) and a two-block (`true`) tail. One pair for all blocks (DESIGN CHOICE, notes/assumptions 21). -/
opaque latFinalExtra : Bool → Nat

/-- `LAT_COMPRESS`, "a finite number ≥ 1" (R258), of every block (notes/assumptions 21). -/
def latCompress : Nat := latCompressExtra + 1

/-- `LAT_PAD`, "a finite number ≥ 1" (R258), of every block (notes/assumptions 21). -/
def latPad : Nat := latPadExtra + 1

/-- `LAT_FINAL`, which "depends only on whether n ≤ 55 or n ≥ 56" (R259), of every block
(notes/assumptions 21). -/
def latFinal (n : Nat) : Nat := latFinalExtra (decide (56 ≤ n)) + 1

/-- OPEN `TRACE_PRESENT` (R7, R233). One for all blocks (DESIGN CHOICE, notes/assumptions 21). -/
opaque tracePresent : Bool

/-- OPEN (R7, R234): the SHA1-COREs of the platform beyond the first. -/
opaque extraCores : Nat

/-- `N_INSTANCES`, "≥ 1" (R7). -/
def nCores : Nat := extraCores + 1

/-- FREE VALUE (R14): the `k`-th UNSPECIFIED word of the SHA1-CORE numbered `stream`. -/
opaque freeWord (stream k : Nat) : Word

/-- FREE VALUE (R56): the two bits of an UNSPECIFIED NBLK field. -/
opaque freeNblk (stream k : Nat) : BitVec 2

/-- FREE VALUE (R226): whether a host access that falls in the same cycle as a completion acts before it. -/
opaque accessFirst (stream k : Nat) : Bool

end Sys2Proof.Config
end

