-- ==== Sys2Proof/Machine/State.lean ====
section
/-! DEFINITION. The state of one SHA1-CORE (spec 10_state.md R20 to R31), as plain data, the reasons a step can stop,
and the state after reset (70_reset_and_hazards.md R250). Notes on the model's own fields (`port`, `readLog`, `trace`,
`stream`, `draws`, `mWritten`, `hKnown`, `pbufKnown`) are in notes/assumptions 1, 3, 5, 11, 16 and 20. -/

namespace Sys2Proof.Machine

/-- The codes of STATUS.ERRCODE (R220). The codes 0x4 to 0xF "never" occur, so they are no value here. -/
inductive ErrCode where
  /-- 0x0, no error recorded. -/
  | none
  /-- 0x1, a write to CMD while BUSY (R222). -/
  | cmdBusy
  /-- 0x2, a write to H, LEN or M while BUSY (R223). -/
  | wrBusy
  /-- 0x3, an illegal command word written while idle (R224). -/
  | illegalCmd
deriving DecidableEq, Repr

/-- The commands with latency (R29: op ∈ {COMPRESS, PAD, FINAL}). -/
inductive EngineOp where
  | compress
  | pad
  | final
deriving DecidableEq, Repr

/-- A pending command: its tail count, its snapshot operands and its remaining latency in cycles (R29). -/
structure Pending where
  op : EngineOp
  /-- n, the NB field; 0 for COMPRESS (R85). -/
  n : BitVec 6
  hIn : CV
  lenIn : Dword
  mIn : Block
  remaining : Nat
deriving DecidableEq, Repr

/-- `seq` (R29). STATUS.BUSY is 1 exactly when it is `busy` (R30), so it is not stored a second time. -/
inductive Sequencer where
  | idle
  | busy (p : Pending)
deriving DecidableEq, Repr

/-- The working variables a, b, c, d, e of CompressionRound (R29, R155). -/
structure WorkVars where
  a : Word
  b : Word
  c : Word
  d : Word
  e : Word
deriving DecidableEq, Repr

/-- The hidden round state (R29). -/
structure RoundState where
  vars : WorkVars
  /-- The round counter, 0..79. -/
  t : Fin 80
  /-- The schedule window w[0..15] (R133). -/
  w : Vector Word 16
  /-- The PBUF block that FINAL is compressing, 0..1. -/
  blk : Fin 2
deriving DecidableEq, Repr

/-- One record of the trace port: (blk, t, W[t], a, b, c, d, e) (R233). -/
structure TraceRecord where
  blk : Fin 2
  t : Nat
  w : Word
  vars : WorkVars
deriving DecidableEq, Repr

/-- An address on the host's bus, as the platform presents it: an offset in the 256-byte register window at
SHA1_BASE (R50), or an address that is in no window of this SHA1-CORE. -/
inductive BusAddr where
  | window (off : BitVec 8)
  | outside (addr : Nat)
deriving DecidableEq, Repr

/-- A transfer the host asks for (R53, R54). `bytes` is its width; only width 4 exists at the port (R52). -/
inductive Access where
  | read (a : BusAddr) (bytes : Nat)
  | write (a : BusAddr) (bytes : Nat) (v : Word)
deriving DecidableEq, Repr

/-- What stands at the inputs of the block during one clock cycle: the reset input (R250) and at most one host
access (R63: "one at a time"). -/
structure Cycle where
  rst : Bool
  access : Option Access
deriving DecidableEq, Repr

/-- A value that a host read returned: what R17 calls the observation. -/
structure ReadRecord where
  off : BitVec 8
  value : Word
deriving DecidableEq, Repr

/-- Why the machine stops with a fault. -/
inductive Fault where
  /-- Raised by a host access to an address outside the window of 256 bytes, where R50 says there is nothing of
  this block. Safe: the model stops. -/
  | outsideWindow (addr : Nat)
deriving DecidableEq, Repr

/-- Why the machine refuses a step. -/
inductive Refusal where
  /-- Raised by an arm of exec that has no meaning yet; no arm raises it. Safe: the model stops. -/
  | notModelled (mnemonic : String)
  /-- Raised by a host access of a width other than 4 bytes: R52 "a model refuses it (no step)". Safe: the model stops. -/
  | notOneWord (bytes : Nat)
  /-- Raised by a host access while rst is asserted: R251 "the port accepts no host access, so a model has no host
  step". Safe: the model stops. -/
  | accessInReset
  /-- Raised by a host program (Machine/Program.lean) whose BNZ names a value no RD has given (R89 gives it no
  meaning). Safe: the model stops. -/
  | unboundName (name : String)
  /-- Raised by a host program (Machine/Program.lean) whose BNZ goes to a label that no statement carries (R89 gives it
  no meaning). Safe: the model stops. -/
  | unknownLabel (label : String)
deriving DecidableEq, Repr

/-- The state of one SHA1-CORE: every item of R20's table and of R29's, and the model's own fields.
ID is a constant (`Config.idValue`) and CMD stores nothing (R27). -/
structure State where
  /-- H[0..4], the chaining value (R21). -/
  h : CV
  /-- LEN; LEN_HI and LEN_LO are its halves (R22). -/
  len : Dword
  /-- M[0..15], the block buffer (R23). -/
  m : Block
  /-- PBUF[0..31], the pad buffer (R24). -/
  pbuf : Vector Word 32
  /-- STATUS.ERR (R25). -/
  err : Bool
  /-- STATUS.OVF (R25). -/
  ovf : Bool
  /-- STATUS.NBLK (R25): "The value 3 never occurs". -/
  nblk : Fin 3
  /-- STATUS.ERRCODE (R25, R220). -/
  errcode : ErrCode
  /-- `seq`, and with it STATUS.BUSY (R29, R30). -/
  seq : Sequencer
  /-- The hidden round state (R29). -/
  round : RoundState
  /-- MODEL'S OWN: the inputs of the cycles to come, the next one first; after the last, cycles without access. -/
  port : List Cycle
  /-- MODEL'S OWN: the values that host reads have returned, the newest first (R17). -/
  readLog : List ReadRecord
  /-- MODEL'S OWN: the records the trace port has emitted, the oldest first (R233). -/
  trace : List TraceRecord
  /-- MODEL'S OWN: the place of this SHA1-CORE on its platform. It stands for the block's base address
  (`Config.sha1Base stream`, R234), and each block draws its own free values. -/
  stream : Nat
  /-- MODEL'S OWN: how many free values have been drawn. -/
  draws : Nat
  /-- MODEL'S OWN: which words of M the host has written since reset; the others are UNSPECIFIED (R23, R250).
  DESIGN CHOICE: notes/assumptions 20. -/
  mWritten : Vector Bool 16
  /-- MODEL'S OWN: which words of H hold a value the spec gives; the others are UNSPECIFIED (R159, R186).
  DESIGN CHOICE: notes/assumptions 20. -/
  hKnown : Vector Bool 5
  /-- MODEL'S OWN: whether PBUF holds what the spec gives; otherwise all of it is UNSPECIFIED (R24, R114, R186).
  DESIGN CHOICE: notes/assumptions 20. -/
  pbufKnown : Bool
deriving DecidableEq, Repr

/-- The hidden round state out of reset: UNSPECIFIED (R250), the free values `k` to `k + 22`. DESIGN CHOICE:
notes/assumptions 6. -/
def freeRoundState (stream k : Nat) : RoundState :=
  { vars := { a := Config.freeWord stream k, b := Config.freeWord stream (k + 1),
              c := Config.freeWord stream (k + 2), d := Config.freeWord stream (k + 3),
              e := Config.freeWord stream (k + 4) }
    t := Fin.ofNat 80 (Config.freeWord stream (k + 5)).toNat
    blk := Fin.ofNat 2 (Config.freeWord stream (k + 6)).toNat
    w := tabulate 16 fun i => Config.freeWord stream (k + 7 + i) }

/-- The free values one reset draws: 16 words of M, 32 of PBUF, 23 of the hidden round state. -/
def resetDraws : Nat := 71

/-- Every piece of state at the value of R250: M, PBUF and the hidden round state are UNSPECIFIED, fresh free
values. The observations already made and the inputs still to come are not the block's, and stay. DESIGN CHOICE:
notes/assumptions 6 and 18. -/
def State.resetFrom (stream draws : Nat) (port : List Cycle) (readLog : List ReadRecord)
    (trace : List TraceRecord) : State :=
  { h := Config.iv
    len := 0
    m := tabulate 16 fun i => Config.freeWord stream (draws + i)
    pbuf := tabulate 32 fun j => Config.freeWord stream (draws + 16 + j)
    err := false
    ovf := false
    nblk := 0
    errcode := .none
    seq := .idle
    round := freeRoundState stream (draws + 48)
    port := port
    readLog := readLog
    trace := trace
    stream := stream
    draws := draws + resetDraws
    mWritten := tabulate 16 fun _ => false
    hKnown := tabulate 5 fun _ => true
    pbufKnown := false }

/-- The SHA1-CORE numbered `stream` right after its first reset, with no host access waiting. -/
def State.resetOf (stream : Nat) : State := State.resetFrom stream 0 [] [] []

/-- The machine right after reset (R250). -/
def State.reset : State := State.resetOf 0

end Sys2Proof.Machine
end

