-- ==== Sys2Proof/Machine/Ops.lean ====
section
/-! DEFINITION. The shared operations: rotation and byte order (spec 00_scope.md R10, R11), drawing an UNSPECIFIED value
(R14), recording and clearing an error (60_exceptions.md R221, R228: SHA1-CORE has no traps, R227, and this record is all
that an error does), the issue of a command with latency (10_state.md R30) and reset (70_reset_and_hazards.md R250). -/

namespace Sys2Proof.Machine

/-- `ROTL(x, n)` for 0 < n < 32 (R10). -/
def rotl (x : Word) (n : Nat) : Word := (x <<< n) ||| (x >>> (32 - n))

/-- `be32(b0, b1, b2, b3)`: b0 is bits [31:24] (R11). -/
def be32 (b0 b1 b2 b3 : Byte) : Word := b0 ++ b1 ++ b2 ++ b3

/-- Byte `k` of a big-endian word, k = 0..3: bits [31 − 8k : 24 − 8k] (R57). -/
def wordByte (w : Word) (k : Nat) : Byte := w.extractLsb' (24 - 8 * k) 8

/-- `be64(L)`: "8 bytes of the 64-bit value L, most significant byte first" (R11). -/
def be64 (l : Dword) : List Byte := (List.range 8).map fun k => l.extractLsb' (56 - 8 * k) 8

/-- LEN[63:32] (R22). -/
def hiWord (l : Dword) : Word := l.extractLsb' 32 32

/-- LEN[31:0] (R22). -/
def loWord (l : Dword) : Word := l.extractLsb' 0 32

/-- STATUS.BUSY: 1 from the issue of a command with latency until its completion (R25, R30). -/
def State.busy (s : State) : Bool :=
  match s.seq with
  | .idle => false
  | .busy _ => true

/-- One UNSPECIFIED word: "any value, chosen freshly and not remembered" (R14), the next free value. -/
def State.freshWord (s : State) : Word := Config.freeWord s.stream s.draws

/-- The value of a register word: what it holds, or an UNSPECIFIED one (R14). -/
def State.valueIf (s : State) (known : Bool) (v : Word) : Word := if known then v else s.freshWord

/-- `raise Error(code)` (R221): the first error since the last clear is kept. -/
def recordError (code : ErrCode) (s : State) : State :=
  { s with errcode := if s.err then s.errcode else code, err := true }

/-- The clearing of the error record (R188, R228). -/
def clearErrors (s : State) : State :=
  { s with err := false, errcode := .none, ovf := false }

/-- The rule every command has: written while BUSY it is dropped with CMD_BUSY (R222), whatever it is. -/
def whenIdle (s : State) (effect : State → Host.Outcome State Fault Refusal) :
    Host.Outcome State Fault Refusal :=
  if s.busy then .next (recordError .cmdBusy s) else effect s

/-- The issue of a command with latency (R30): `seq <- Busy(op, n, H, LEN, M, LAT_op)`, and BUSY with it. -/
def issue (op : EngineOp) (n : BitVec 6) (latency : Nat) (s : State) : State :=
  { s with seq := .busy { op := op, n := n, hIn := s.h, lenIn := s.len, mIn := s.m, remaining := latency } }

/-- Reset (R250): a command in flight is abandoned with none of its results written. -/
def applyReset (s : State) : State :=
  State.resetFrom s.stream s.draws s.port s.readLog s.trace

end Sys2Proof.Machine
end

