-- ==== Sys2Proof/Machine/Flags.lean ====
section
/-! DEFINITION. The STATUS register (spec 10_state.md R25) and the one computed flag, OVF (60_exceptions.md R225). -/

namespace Sys2Proof.Machine

/-- `carry64(a, b)`: whether a + b ≥ 2^64 as integers (R9). -/
def carry64 (a b : Dword) : Bool := decide (2 ^ 64 ≤ a.toNat + b.toNat)

/-- OVF after a LEN computation a + b: set on a carry, never cleared (R225). -/
def noteCarry (ovf : Bool) (a b : Dword) : Bool := ovf || carry64 a b

/-- The four bits of ERRCODE (R220). -/
def ErrCode.bits : ErrCode → BitVec 4
  | .none => 0x0
  | .cmdBusy => 0x1
  | .wrBusy => 0x2
  | .illegalCmd => 0x3

/-- The two bits of NBLK (R25). -/
def nblkBits (k : Fin 3) : BitVec 2 := BitVec.ofNat 2 k.val

/-- The 32 bits of STATUS, from [31:12] down to [0] (R25): the reserved bits read 0. -/
def packStatus (errcode : BitVec 4) (nblk : BitVec 2) (ovf err busy : Bool) : Word :=
  0#20 ++ errcode ++ 0#2 ++ nblk ++ 0#1 ++ BitVec.ofBool ovf ++ BitVec.ofBool err ++ BitVec.ofBool busy

/-- STATUS with the two bits `nblk` in its NBLK field. -/
def statusWith (nblk : BitVec 2) (s : State) : Word :=
  packStatus s.errcode.bits nblk s.ovf s.err s.busy

/-- A read of STATUS (R25, R56): while BUSY the NBLK field is UNSPECIFIED and the other fields are valid. -/
def readStatus (s : State) : Word :=
  statusWith (if s.busy then Config.freeNblk s.stream s.draws else nblkBits s.nblk) s

end Sys2Proof.Machine
end

