-- ==== Sys2Proof/Machine/Operands.lean ====
section
/-! DEFINITION. The operands: the registers of the window by name and offset (spec 20_memory.md R51), reading and writing
one (R53 to R56), the message bytes of the block buffer (R57, R58; 40_padder_parser.md R108), and what a completing command
consumes of it (42_compression.md R159). -/

namespace Sys2Proof.Machine

/-- The registers of the window by their names in R51. -/
inductive Reg where
  | id
  | cmd
  | status
  | h (i : Fin 5)
  | lenHi
  | lenLo
  | m (i : Fin 16)
  | pbuf (j : Fin 32)
deriving DecidableEq, Repr

/-- The byte offset of a register from SHA1_BASE (R51). -/
def Reg.offset : Reg → BitVec 8
  | .id => 0x00
  | .cmd => 0x04
  | .status => 0x08
  | .h i => BitVec.ofNat 8 (0x10 + 4 * i.val)
  | .lenHi => 0x28
  | .lenLo => 0x2C
  | .m i => BitVec.ofNat 8 (0x40 + 4 * i.val)
  | .pbuf j => BitVec.ofNat 8 (0x80 + 4 * j.val)

/-- The register at word `r` of the window, none where R51 says "reserved". -/
def regAtWord (r : Nat) : Option Reg :=
  if r = 0 then some .id
  else if r = 1 then some .cmd
  else if r = 2 then some .status
  else if 4 ≤ r ∧ r < 9 then some (.h (Fin.ofNat 5 (r - 4)))
  else if r = 10 then some .lenHi
  else if r = 11 then some .lenLo
  else if 16 ≤ r ∧ r < 32 then some (.m (Fin.ofNat 16 (r - 16)))
  else if 32 ≤ r ∧ r < 64 then some (.pbuf (Fin.ofNat 32 (r - 32)))
  else none

/-- "The port decodes offset bits [7:2] and ignores offset bits [1:0]" (R52). -/
def regAt (off : BitVec 8) : Option Reg := regAtWord (off.extractLsb' 2 6).toNat

/-- The platform's address of a bus address of block `k` (R50). -/
def BusAddr.toNat (k : Nat) : BusAddr → Nat
  | .window off => Config.sha1Base k + off.toNat
  | .outside a => a

/-- The window of block `k`: the 256 bytes from its SHA1_BASE (R50). -/
def inWindow (k a : Nat) : Bool := decide (Config.sha1Base k ≤ a ∧ a < Config.sha1Base k + 256)

/-- What a platform's address is to block `k`: an offset in its window, or outside it (R50). -/
def BusAddr.ofNat (k a : Nat) : BusAddr :=
  if inWindow k a then .window (BitVec.ofNat 8 (a - Config.sha1Base k)) else .outside a

/-- H[i] (R21). -/
def CV.word (h : CV) (i : Fin 5) : Word :=
  match i with
  | 0 => h.h0
  | 1 => h.h1
  | 2 => h.h2
  | 3 => h.h3
  | 4 => h.h4

/-- `H[i] <- v` (R54). -/
def CV.withWord (h : CV) (i : Fin 5) (v : Word) : CV :=
  match i with
  | 0 => { h with h0 := v }
  | 1 => { h with h1 := v }
  | 2 => { h with h2 := v }
  | 3 => { h with h3 := v }
  | 4 => { h with h4 := v }

/-- The value a host read of a register returns (R53): a fresh free value where the register's is UNSPECIFIED (R14).
While BUSY that is H, LEN and PBUF (R56). At any time it is a word of M never written since reset (R23, R250;
93_implementation_defined.md S1), PBUF before the first PAD or FINAL (S2), and H and PBUF after a command that consumed
such a word (S4). DEDUCED: notes/assumptions 7; the flags that tell are a DESIGN CHOICE, notes/assumptions 20. -/
def readReg (r : Reg) (s : State) : Word :=
  match r with
  | .id => Config.idValue
  | .cmd => 0
  | .status => readStatus s
  | .h i => s.valueIf (!s.busy && s.hKnown[i]) (CV.word s.h i)
  | .lenHi => s.valueIf (!s.busy) (hiWord s.len)
  | .lenLo => s.valueIf (!s.busy) (loWord s.len)
  | .m i => s.valueIf s.mWritten[i] s.m[i]
  | .pbuf j => s.valueIf (!s.busy && s.pbufKnown) s.pbuf[j]

/-- A write to H, LEN or M: while BUSY it is dropped with WR_BUSY (R55, R223). -/
def writeUnlessBusy (write : State → State) (s : State) : State :=
  if s.busy then recordError .wrBusy s else write s

/-- `M[i] <- v` (R54): the word is written, and counts as written from then on. -/
def writeMWord (i : Fin 16) (v : Word) (s : State) : State :=
  { s with m := s.m.set i v, mWritten := s.mWritten.set i true }

/-- `H[i] <- v` (R54): whatever the word was, its value is known from then on. -/
def writeHWord (i : Fin 5) (v : Word) (s : State) : State :=
  { s with h := CV.withWord s.h i v, hKnown := s.hKnown.set i true }

/-- A host write to a data register (R54). A write to ID, STATUS or PBUF has no effect and is no error. A write to
CMD is the issue of a command (Machine/Port.lean) and stores nothing (R27). -/
def writeReg (r : Reg) (v : Word) (s : State) : State :=
  match r with
  | .id => s
  | .cmd => s
  | .status => s
  | .h i => writeUnlessBusy (writeHWord i v) s
  | .lenHi => writeUnlessBusy (fun s => { s with len := v ++ loWord s.len }) s
  | .lenLo => writeUnlessBusy (fun s => { s with len := hiWord s.len ++ v }) s
  | .m i => writeUnlessBusy (writeMWord i v) s
  | .pbuf _ => s

/-- Byte `j` of a block held in sixteen words, big-endian (R57). -/
def blockByte (b : Block) (j : Nat) : Byte := wordByte (b[j / 4]?.getD 0) (j % 4)

/-- The tail: bytes 0 to n − 1 of the block buffer (R108). -/
def tailBytes (b : Block) (n : Nat) : List Byte := (List.range n).map (blockByte b)

/-- How many words of M a tail of n bytes lies in: words 0 to (n + 3) div 4 − 1 (R108). -/
def tailWords (n : Nat) : Nat := (n + 3) / 4

/-- How many words of M a pending command consumes, from word 0 on: all sixteen, or those of the tail (R108, R159). -/
def Pending.wordsConsumed (p : Pending) : Nat :=
  match p.op with
  | .compress => 16
  | .pad => tailWords p.n.toNat
  | .final => tailWords p.n.toNat

/-- Words 0 to `k` − 1 of M have all been written since reset. -/
def State.wroteM (s : State) (k : Nat) : Bool := (s.mWritten.toList.take k).all id

/-- All of H holds values the spec gives. -/
def State.knowsH (s : State) : Bool := s.hKnown.toList.all id

/-- A command that reads H and words 0 to `k` − 1 of M computes its H from values the spec gives. -/
def State.hashKnown (s : State) (k : Nat) : Bool := s.knowsH && s.wroteM k

/-- Five free words, from the `k`-th on. -/
def freeCV (stream k : Nat) : CV :=
  ⟨Config.freeWord stream k, Config.freeWord stream (k + 1), Config.freeWord stream (k + 2),
    Config.freeWord stream (k + 3), Config.freeWord stream (k + 4)⟩

/-- Thirty-two free words, from the `k`-th on. -/
def freePbuf (stream k : Nat) : Vector Word 32 := tabulate 32 fun j => Config.freeWord stream (k + j)

/-- H after a command that consumed words 0 to `k` − 1 of M and computed `h` from them: "If any M word was never written
since reset, H is UNSPECIFIED after completion" (R159, R186; 93_implementation_defined.md S4), and so where H itself
was. DESIGN CHOICE of the form: notes/assumptions 20. -/
def State.absorbed (s : State) (k : Nat) (h : CV) : CV :=
  if s.hashKnown k then h else freeCV s.stream s.draws

/-- PBUF after a command that padded a tail in words 0 to `k` − 1 of M into `b`: where one of them was never written,
"the tail bytes, and so PBUF, are UNSPECIFIED" (R114, R186; S4). DESIGN CHOICE of the form: notes/assumptions 20. -/
def State.padded (s : State) (k : Nat) (b : Vector Word 32) : Vector Word 32 :=
  if s.wroteM k then b else freePbuf s.stream (s.draws + 5)

/-- The free values that one completion passes, used or not: 5 for H and 32 for PBUF. -/
def completionDraws : Nat := 37

/-- The words of a byte sequence, four bytes a word, big-endian (R58, R105); 0 past its end. -/
def wordOfBytes (p : List Byte) (i : Nat) : Word :=
  be32 (p.getD (4 * i) 0) (p.getD (4 * i + 1) 0) (p.getD (4 * i + 2) 0) (p.getD (4 * i + 3) 0)

end Sys2Proof.Machine
end

