-- ==== Sys2Proof/Machine/Scheduler.lean ====
section
/-! DEFINITION. The message scheduler (spec 41_scheduler.md): the 80 schedule words of a block (R130, R131) and the hardware's
sixteen-word window form (R133). -/

namespace Sys2Proof.Machine

/-- The four taps and the rotation of the recurrence (R131). -/
def schedMix (w3 w8 w14 w16 : Word) : Word := rotl (w3 ^^^ w8 ^^^ w14 ^^^ w16) 1

/-- `k` more schedule words in front of a schedule held newest first: W[t−3] is element 2, W[t−8] element 7,
W[t−14] element 13 and W[t−16] element 15 (R131). -/
def scheduleExtend : Nat → List Word → List Word
  | 0, ws => ws
  | k + 1, ws => scheduleExtend k (schedMix (ws.getD 2 0) (ws.getD 7 0) (ws.getD 13 0) (ws.getD 15 0) :: ws)

/-- `schedule(B)`: W[0..79] (R130, R131). -/
def schedule (b : Block) : List Word := (scheduleExtend 64 b.toList.reverse).reverse

/-- The word at position `i mod 16` of the window (R133). -/
def windowWord (w : Vector Word 16) (i : Nat) : Word := w[i % 16]?.getD 0

/-- `SchedWord(t)`: the word of round t and the window after it (R133). -/
def schedWord (b : Block) (t : Nat) (w : Vector Word 16) : Word × Vector Word 16 :=
  let x := if t < 16 then b[t]?.getD 0
    else schedMix (windowWord w (t - 3)) (windowWord w (t - 8)) (windowWord w (t - 14)) (windowWord w t)
  (x, w.set (t % 16) x (Nat.mod_lt _ (by decide)))

end Sys2Proof.Machine
end

