-- ==== Sys2Proof/Machine/Compression.lean ====
section
/-! DEFINITION. The compression engine (spec 42_compression.md): the source's function `compress` (R150 to R158), the same
eighty rounds run on the hidden round state (10_state.md R29, 41_scheduler.md R133), the trace records (60_exceptions.md
R233) and the command COMPRESS (R159). -/

namespace Sys2Proof.Machine

/-- R150. -/
def ch (x y z : Word) : Word := (x &&& y) ||| (~~~x &&& z)

/-- R151. -/
def parity (x y z : Word) : Word := x ^^^ y ^^^ z

/-- R152. -/
def maj (x y z : Word) : Word := (x &&& y) ^^^ (x &&& z) ^^^ (y &&& z)

/-- The round function f(t, x, y, z) (R153). -/
def roundFunction (t : Nat) (x y z : Word) : Word :=
  if t < 20 then ch x y z
  else if t < 40 then parity x y z
  else if t < 60 then maj x y z
  else parity x y z

/-- The round constant K(t) (R154). PRESUMED: the source gives no values; see notes/assumptions 8. -/
def roundConstant (t : Nat) : Word :=
  if t < 20 then 0x5A827999
  else if t < 40 then 0x6ED9EBA1
  else if t < 60 then 0x8F1BBCDC
  else 0xCA62C1D6

/-- One round (R155), a simultaneous assignment. -/
def roundStep (t : Nat) (v : WorkVars) (w : Word) : WorkVars :=
  { a := rotl v.a 5 + roundFunction t v.b v.c v.d + v.e + roundConstant t + w
    b := v.a
    c := rotl v.b 30
    d := v.c
    e := v.d }

/-- "working variables `(a,b,c,d,e)` initialized to `cv`'s five words" (R156). -/
def loadVars (cv : CV) : WorkVars := ⟨cv.h0, cv.h1, cv.h2, cv.h3, cv.h4⟩

/-- Rounds t, t + 1, ... on the schedule words from W[t] on, in order (R156, R158). -/
def runRounds : Nat → List Word → WorkVars → WorkVars
  | _, [], v => v
  | t, w :: ws, v => runRounds (t + 1) ws (roundStep t v w)

/-- "`result = (a+h0, b+h1, c+h2, d+h3, e+h4) mod 2^32 component-wise`" (R156). -/
def addBack (v : WorkVars) (cv : CV) : CV :=
  ⟨v.a + cv.h0, v.b + cv.h1, v.c + cv.h2, v.d + cv.h3, v.e + cv.h4⟩

/-- `compress(cv, B)` (R156). -/
def compress (cv : CV) (b : Block) : CV := addBack (runRounds 0 (schedule b) (loadVars cv)) cv

/-- The engine's round t on its hidden state: the window gives W[t], and the round uses it (R29, R133, R155). -/
def engineRound (b : Block) (t : Nat) (r : RoundState) : RoundState :=
  let x := schedWord b t r.w
  { r with vars := roundStep t r.vars x.1, t := Fin.ofNat 80 t, w := x.2 }

/-- The engine's rounds 0 to k − 1, in order (R158). -/
def engineRounds (b : Block) : Nat → RoundState → RoundState
  | 0, r => r
  | k + 1, r => engineRound b k (engineRounds b k r)

/-- The engine on one whole block: the chaining value loaded, then eighty rounds (R156). That its state stays so after
the command is DEDUCED: notes/assumptions 9. -/
def engineBlock (blk : Fin 2) (cv : CV) (b : Block) (r : RoundState) : RoundState :=
  engineRounds b 80 { r with vars := loadVars cv, blk := blk }

/-- One trace record per round, with the working variables after it (R233). -/
def traceRounds (blk : Fin 2) : Nat → List Word → WorkVars → List TraceRecord
  | _, [], _ => []
  | t, w :: ws, v =>
    { blk := blk, t := t, w := w, vars := roundStep t v w } :: traceRounds blk (t + 1) ws (roundStep t v w)

/-- What the trace port emits for one block (R233): nothing where it is absent. When it does is a DESIGN CHOICE:
notes/assumptions 5. -/
def traceBlock (blk : Fin 2) (cv : CV) (b : Block) : List TraceRecord :=
  if Config.tracePresent then traceRounds blk 0 (schedule b) (loadVars cv) else []

/-- `COMPRESS_complete` (R159), with the hidden round state and the trace of its one block. H is UNSPECIFIED where a word
of M was never written since reset, and LEN and OVF are exact all the same. -/
def completeCompress (p : Pending) (s : State) : State :=
  { s with
    h := s.absorbed 16 (compress p.hIn p.mIn)
    hKnown := tabulate 5 fun _ => s.hashKnown 16
    len := p.lenIn + 512
    ovf := noteCarry s.ovf p.lenIn 512
    seq := .idle
    round := engineBlock 0 p.hIn p.mIn s.round
    trace := s.trace ++ traceBlock 0 p.hIn p.mIn
    draws := s.draws + completionDraws }

/-- COMPRESS (R159): its issue; the effect is `completeCompress`, LAT_COMPRESS cycles later. -/
def execCompress (s : State) : Host.Outcome State Fault Refusal :=
  whenIdle s fun s => .next (issue .compress 0 Config.latCompress s)

end Sys2Proof.Machine
end

