-- ==== Sys2Proof/Machine/Padder.lean ====
section
/-! DEFINITION. The padder and block parser (spec 40_padder_parser.md): the source's `pad` and `parse` on whole messages
(R100 to R106), the tail padder (R107, R111), and the command PAD (R114). -/

namespace Sys2Proof.Machine

/-- The bits of a byte, the most significant first (R100). PRESUMED by the spec itself: notes/assumptions 14. -/
def byteBits (b : Byte) : List Bool := (List.range 8).map fun k => b.getLsbD (7 - k)

/-- The bits of a byte sequence, byte after byte (R100: `msgBits`). -/
def bitsOfBytes (m : List Byte) : List Bool := m.flatMap byteBits

/-- The k zero bits of `pad` for a message of `bits` bits: bits + 1 + k ≡ 448 (mod 512) (R101). -/
def padZeroBits (bits : Nat) : Nat := (959 - bits % 512) % 512

/-- The bit length 8ℓ of an ℓ-byte message, as the length field holds it (R101). -/
def bitLength (l : Nat) : Dword := BitVec.ofNat 64 (8 * l)

/-- The source's `pad` (R101), on bits. Its precondition 8ℓ < 2^64 is checked where it is used (`digest`). -/
def padBits (m : List Byte) : List Bool :=
  bitsOfBytes m ++ [true] ++ List.replicate (padZeroBits (8 * m.length)) false ++
    bitsOfBytes (be64 (bitLength m.length))

/-- z, the number of zero bytes of `pad`: (55 − ℓ) mod 64 (R102). -/
def padZeroBytes (l : Nat) : Nat := (119 - l % 64) % 64

/-- The padding bytes of a message of ℓ bytes, a function of ℓ alone (R110). -/
def padSuffix (l : Nat) : List Byte :=
  [0x80] ++ List.replicate (padZeroBytes l) 0 ++ be64 (bitLength l)

/-- `pad` in bytes (R102). -/
def padBytes (m : List Byte) : List Byte := m ++ padSuffix m.length

/-- N(ℓ), the number of blocks of the padded message (R102). -/
def padBlockCount (l : Nat) : Nat := (l + 8) / 64 + 1

/-- The first `n` pieces of 512 bits (R104). -/
def bitBlocks : Nat → List Bool → List (List Bool)
  | 0, _ => []
  | n + 1, p => p.take 512 :: bitBlocks n (p.drop 512)

/-- `parse` (R104): "defined only on multiples of 512", none on any other length (DEDUCED, notes/assumptions 19). -/
def parse (p : List Bool) : Option (List (List Bool)) :=
  if p.length % 512 = 0 then some (bitBlocks (p.length / 512) p) else none

/-- The word whose most significant bit is the first of these bits (R105). -/
def wordOfBits (bits : List Bool) : Word :=
  bits.foldl (fun acc b => acc <<< 1 ||| (BitVec.ofBool b).setWidth 32) 0

/-- `blockWords(B)` (R105): word i is bits [32i, 32i + 32). -/
def blockWords (b : List Bool) : Block := tabulate 16 fun i => wordOfBits ((b.drop (32 * i)).take 32)

/-- The block count of a tail of n bytes (R107). -/
def tailBlockCount (n : Nat) : Fin 3 := if n ≤ 55 then 1 else 2

/-- `padTail(T, n, L)` (R107): the block count and the padded bytes. -/
def padTail (t : List Byte) (n : Nat) (l : Dword) : Fin 3 × List Byte :=
  let nblk := tailBlockCount n
  (nblk, t ++ [0x80] ++ List.replicate (64 * nblk.val - n - 9) 0 ++ be64 l)

/-- Where the padded tail goes in PBUF (R111): byte j of it is byte j of the buffer, and the second block is 0 when
there is one block. -/
def pbufOfBytes (p : List Byte) : Vector Word 32 := tabulate 32 (wordOfBytes p)

/-- 8·n as a 64-bit length (R22). -/
def tailBits (n : BitVec 6) : Dword := 8 * n.setWidth 64

/-- `L <- (LEN_in + 8*n) mod 2^64` (R114, R186). -/
def tailLength (p : Pending) : Dword := p.lenIn + tailBits p.n

/-- The padded tail of the pending command's operands (R114, R186). -/
def paddedTail (p : Pending) : Fin 3 × List Byte :=
  padTail (tailBytes p.mIn p.n.toNat) p.n.toNat (tailLength p)

/-- What PAD and FINAL both write: PBUF, NBLK and, on a carry, OVF (R114, R186). PBUF is UNSPECIFIED where a word of M
that the tail lies in was never written since reset, and NBLK and OVF are exact all the same. -/
def writePaddedTail (p : Pending) (s : State) : State :=
  { s with
    pbuf := s.padded (tailWords p.n.toNat) (pbufOfBytes (paddedTail p).2)
    pbufKnown := s.wroteM (tailWords p.n.toNat)
    nblk := (paddedTail p).1
    ovf := noteCarry s.ovf p.lenIn (tailBits p.n)
    draws := s.draws + completionDraws }

/-- `PAD_complete` (R114). -/
def completePad (p : Pending) (s : State) : State :=
  { writePaddedTail p s with seq := .idle }

/-- PAD n (R114): its issue; the effect is `completePad`, LAT_PAD cycles later. -/
def execPad (nb : Nat) (s : State) : Host.Outcome State Fault Refusal :=
  whenIdle s fun s => .next (issue .pad (BitVec.ofNat 6 nb) Config.latPad s)

end Sys2Proof.Machine
end

