-- ==== Sys2Proof/Machine/Driver.lean ====
section
/-! DEFINITION. The hash driver (spec 43_driver.md): the source's fold and digest (R181, R182), the digest's byte order
(20_memory.md R59), and the commands INIT, FINAL, NOP and CLRERR (R185 to R188). -/

namespace Sys2Proof.Machine

/-- `digestFromBlocks(blocks, iv) = foldl(compress, iv, blocks)` (R181). -/
def digestFromBlocks (blocks : List Block) (iv : CV) : CV := blocks.foldl compress iv

/-- `digest(m, iv)` (R182), none where its precondition 8·|m| < 2^64 does not hold. -/
def digest (m : List Byte) (iv : CV) : Option CV :=
  if 8 * m.length < 2 ^ 64 then
    (parse (padBits m)).map fun blocks => digestFromBlocks (blocks.map blockWords) iv
  else none

/-- The digest's bytes: byte 4i + k is H[i] bits [31 − 8k : 24 − 8k] (R59). -/
def digestBytes (h : CV) : List Byte :=
  (List.range 20).map fun j => wordByte (CV.word h (Fin.ofNat 5 (j / 4))) (j % 4)

/-- Block k of the pad buffer: PBUF[16k .. 16k + 15] (R58). -/
def pbufBlock (pbuf : Vector Word 32) (k : Nat) : Block := tabulate 16 fun i => pbuf[16 * k + i]?.getD 0

/-- The chaining value that FINAL leaves: over the first block, then the second where there are two (R186). -/
def absorbPbuf (pbuf : Vector Word 32) (nblk : Fin 3) (h : CV) : CV :=
  let h1 := compress h (pbufBlock pbuf 0)
  if nblk = 2 then compress h1 (pbufBlock pbuf 1) else h1

/-- The hidden round state after FINAL's one or two blocks (R29). -/
def engineAbsorb (pbuf : Vector Word 32) (nblk : Fin 3) (h : CV) (r : RoundState) : RoundState :=
  let r1 := engineBlock 0 h (pbufBlock pbuf 0) r
  if nblk = 2 then engineBlock 1 (compress h (pbufBlock pbuf 0)) (pbufBlock pbuf 1) r1 else r1

/-- What the trace port emits for FINAL's one or two blocks (R233). -/
def traceAbsorb (pbuf : Vector Word 32) (nblk : Fin 3) (h : CV) : List TraceRecord :=
  traceBlock 0 h (pbufBlock pbuf 0) ++
    if nblk = 2 then traceBlock 1 (compress h (pbufBlock pbuf 0)) (pbufBlock pbuf 1) else []

/-- `FINAL_complete` (R186), with the hidden round state and the trace of its blocks. H is UNSPECIFIED where a word of M
that the tail lies in was never written since reset, and LEN, NBLK and OVF are exact all the same. -/
def completeFinal (p : Pending) (s : State) : State :=
  let t := writePaddedTail p s
  { t with
    h := s.absorbed (tailWords p.n.toNat) (absorbPbuf t.pbuf t.nblk p.hIn)
    hKnown := tabulate 5 fun _ => s.hashKnown (tailWords p.n.toNat)
    len := tailLength p
    seq := .idle
    round := engineAbsorb t.pbuf t.nblk p.hIn s.round
    trace := s.trace ++ traceAbsorb t.pbuf t.nblk p.hIn }

/-- `H <- IV` and `LEN <- 0` (R185): from then on the value of H is known. -/
def loadIv (s : State) : State := { s with h := Config.iv, len := 0, hKnown := tabulate 5 fun _ => true }

/-- INIT (R185): its effect within the issuing write. -/
def execInit (s : State) : Host.Outcome State Fault Refusal :=
  whenIdle s fun s => .next (loadIv s)

/-- FINAL n (R186): its issue; the effect is `completeFinal`, LAT_FINAL cycles later. -/
def execFinal (nb : Nat) (s : State) : Host.Outcome State Fault Refusal :=
  whenIdle s fun s =>
    .next (issue .final (BitVec.ofNat 6 nb) (Config.latFinal (BitVec.ofNat 6 nb).toNat) s)

/-- NOP (R187): nothing. -/
def execNop (s : State) : Host.Outcome State Fault Refusal := whenIdle s fun s => .next s

/-- CLRERR (R188). -/
def execClrerr (s : State) : Host.Outcome State Fault Refusal := whenIdle s fun s => .next (clearErrors s)

end Sys2Proof.Machine
end

