-- ==== Sys2Proof/Machine/Dispatch.lean ====
section
/-! DEFINITION. One arm per command of the opcode map (spec 30_encoding.md R84): each calls its meaning. -/

namespace Sys2Proof.Machine

/-- What a decoded command does at the write that issues it (R85). -/
def exec (i : Instr) (s : State) : Host.Outcome State Fault Refusal :=
  match i with
  | .nop => Sys2Proof.Machine.execNop s
  | .init => Sys2Proof.Machine.execInit s
  | .compress => Sys2Proof.Machine.execCompress s
  | .pad nb => Sys2Proof.Machine.execPad nb s
  | .final nb => Sys2Proof.Machine.execFinal nb s
  | .clrerr => Sys2Proof.Machine.execClrerr s

end Sys2Proof.Machine
end

