-- ==== Sys2Proof/Machine/Port.lean ====
section
/-! DEFINITION. The port and the engine in one clock cycle: a host access (spec 20_memory.md R50 to R56), the issue of a
command by a write to CMD (30_encoding.md R85), the engine's countdown and completion (10_state.md R30), reset
(70_reset_and_hazards.md R250, R251), and the order of an access and a completion in one cycle (60_exceptions.md R226). -/

namespace Sys2Proof.Machine

/-- `IssueCommand(v)` (R85): the busy check first (R226), then the decoder, then the command. -/
def issueCommand (v : Word) (s : State) : Host.Outcome State Fault Refusal :=
  if s.busy then .next (recordError .cmdBusy s)
  else
    match decode v with
    | .illegal _ => .next (recordError .illegalCmd s)
    | .command i => exec i s

/-- The value of a host read (R53): a reserved offset reads 0. -/
def readOffset (off : BitVec 8) (s : State) : Word :=
  match regAt off with
  | none => 0
  | some r => readReg r s

/-- `HostRead(off)` (R53): the value returned is what the host observes (R17). Every read passes one free value, used or
not, so that the next read has another (R14, R56): notes/assumptions 11. -/
def hostRead (off : BitVec 8) (s : State) : State :=
  { s with readLog := { off := off, value := readOffset off s } :: s.readLog, draws := s.draws + 1 }

/-- `HostWrite(off, v)` (R54): a write to CMD issues a command, a write to a reserved offset has no effect. -/
def hostWrite (off : BitVec 8) (v : Word) (s : State) : Host.Outcome State Fault Refusal :=
  match regAt off with
  | none => .next s
  | some .cmd => issueCommand v s
  | some r => .next (writeReg r v s)

/-- A transfer at an offset of the window is one 32-bit word, or it is refused (R52). -/
def oneWord (bytes : Nat) (o : Host.Outcome State Fault Refusal) : Host.Outcome State Fault Refusal :=
  if bytes = 4 then o else .refused (.notOneWord bytes)

/-- One host access (R17, R50, R52). -/
def hostAccess (a : Access) (s : State) : Host.Outcome State Fault Refusal :=
  match a with
  | .read (.window off) bytes => oneWord bytes (.next (hostRead off s))
  | .write (.window off) bytes v => oneWord bytes (hostWrite off v s)
  | .read (.outside addr) _ => .fault (.outsideWindow addr)
  | .write (.outside addr) _ _ => .fault (.outsideWindow addr)

/-- The completion of the pending command (R30): its pseudocode on its snapshot, and `seq <- Idle`. -/
def completeCommand (p : Pending) (s : State) : State :=
  match p.op with
  | .compress => completeCompress p s
  | .pad => completePad p s
  | .final => completeFinal p s

/-- One clock cycle of the engine (R29, R30): the last cycle of a latency completes the command. -/
def engineTick (s : State) : State :=
  match s.seq with
  | .idle => s
  | .busy p =>
    if p.remaining ≤ 1 then completeCommand p s
    else { s with seq := .busy { p with remaining := p.remaining - 1 } }

/-- The pending command completes in this cycle. -/
def State.completing (s : State) : Bool :=
  match s.seq with
  | .idle => false
  | .busy p => decide (p.remaining ≤ 1)

/-- The engine's cycle after an access that was accepted. -/
def thenTick (o : Host.Outcome State Fault Refusal) : Host.Outcome State Fault Refusal :=
  match o with
  | .next s => .next (engineTick s)
  | .fault f => .fault f
  | .refused r => .refused r

/-- The free value that orders an access and a completion in one cycle has been drawn (R226). -/
def drawOrder (s : State) : State := { s with draws := s.draws + 1 }

/-- A cycle with a host access. Where the command completes in the same cycle, either order is a run (R226): a free
value chooses (DESIGN CHOICE, notes/assumptions 10). Where it does not, the access acts on the state left by the
engine's earlier cycles. -/
def accessCycle (a : Access) (s : State) : Host.Outcome State Fault Refusal :=
  if s.completing then
    if Config.accessFirst s.stream s.draws then thenTick (hostAccess a (drawOrder s))
    else hostAccess a (engineTick (drawOrder s))
  else hostAccess a (engineTick s)

/-- A cycle with rst asserted (R250, R251): no host access, no completion. -/
def resetCycle (access : Option Access) (s : State) : Host.Outcome State Fault Refusal :=
  match access with
  | none => .next (applyReset s)
  | some _ => .refused .accessInReset

/-- One clock cycle with the inputs `c`. -/
def portCycle (c : Cycle) (s : State) : Host.Outcome State Fault Refusal :=
  if c.rst then resetCycle c.access s
  else
    match c.access with
    | none => .next (engineTick s)
    | some a => accessCycle a s

/-- The cycle with no input. -/
def quietCycle : Cycle := { rst := false, access := none }

/-- The cycle of a host write of one word to offset `off`. -/
def writeCycle (off : BitVec 8) (v : Word) : Cycle :=
  { rst := false, access := some (.write (.window off) 4 v) }

/-- The cycle of a host read of one word at offset `off`. -/
def readCycle (off : BitVec 8) : Cycle :=
  { rst := false, access := some (.read (.window off) 4) }

end Sys2Proof.Machine
end

