-- ==== Sys2Proof/Machine/Step.lean ====
section
/-! DEFINITION. The step: one clock cycle with the next inputs of the port (spec 00_scope.md R17). There is no program
counter (10_state.md R28): a command is the word a host write puts on CMD (20_memory.md R65). -/

namespace Sys2Proof.Machine

/-- The inputs of the next cycle: the first that wait, or none where none waits. -/
def State.nextCycle (s : State) : Cycle := s.port.headD quietCycle

/-- The inputs of the next cycle taken from the port. -/
def State.popPort (s : State) : State := { s with port := s.port.tail }

/-- One clock cycle with the next inputs. DESIGN CHOICE: notes/assumptions 1. -/
def step (s : State) : Host.Outcome State Fault Refusal := portCycle s.nextCycle s.popPort

/-- `k` clock cycles, stopping at the first fault or refusal. -/
def run : Nat → State → Host.Outcome State Fault Refusal
  | 0, s => .next s
  | k + 1, s =>
    match step s with
    | .next t => run k t
    | .fault f => .fault f
    | .refused r => .refused r

/-- The command word placed where the next step takes it: as the host's next write to CMD. -/
def State.withFetchWord (s : State) (nbits w : Nat) : State :=
  { s with port := writeCycle Reg.cmd.offset (BitVec.ofNat 32 (w % 2 ^ nbits)) :: s.port }

end Sys2Proof.Machine
end

