-- ==== Sys2Proof/Machine/Platform.lean ====
section
/-! DEFINITION. The SHA1-COREs of one platform (spec 60_exceptions.md R234): each has its own window at its own base
address, its own registers and round state, and none has a way to reach another. -/

namespace Sys2Proof.Machine

/-- The blocks of a platform, by their place, which is the order of their base addresses (notes/assumptions 16). -/
structure Platform where
  cores : List State
deriving DecidableEq, Repr

/-- A transfer at an address of the platform's address space (R50). -/
inductive PlatformAccess where
  | read (addr bytes : Nat)
  | write (addr bytes : Nat) (v : Word)
deriving DecidableEq, Repr

/-- Every block knows its own place, and with it its base address (R234). -/
abbrev Platform.numbered (p : Platform) : Prop := ∀ (k : Nat) (s : State), p.cores[k]? = some s → s.stream = k

/-- N_INSTANCES blocks, which "start together at reset" (R234). -/
def Platform.reset : Platform := { cores := (List.range Config.nCores).map State.resetOf }

/-- A later reset, of all blocks together (R234, R250). -/
def Platform.resetAll (p : Platform) : Platform := { cores := p.cores.map applyReset }

/-- The block whose window holds an address: base addresses are the only identifiers that blocks have (R234). -/
def Platform.select (a : Nat) (p : Platform) : Option Nat := p.cores.findIdx? fun s : State => inWindow s.stream a

/-- One cycle of block `k`, the others left alone; none where the platform has no such block. DESIGN CHOICE:
notes/assumptions 16. -/
def Platform.onCore (k : Nat) (cycle : State → Host.Outcome State Fault Refusal) (p : Platform) :
    Option (Host.Outcome Platform Fault Refusal) :=
  match p.cores[k]? with
  | none => none
  | some s =>
    match cycle s with
    | .next t => some (.next { cores := p.cores.set k t })
    | .fault f => some (.fault f)
    | .refused r => some (.refused r)

/-- A clock cycle of block `k` with the next inputs of its port. -/
def Platform.stepCore (k : Nat) (p : Platform) : Option (Host.Outcome Platform Fault Refusal) := p.onCore k step

/-- The address of a transfer. -/
def PlatformAccess.addr : PlatformAccess → Nat
  | .read a _ => a
  | .write a _ _ => a

/-- What a transfer is to block `k`: the block sees the offset in its own window (R50). -/
def PlatformAccess.toBlock (k : Nat) : PlatformAccess → Access
  | .read a bytes => .read (BusAddr.ofNat k a) bytes
  | .write a bytes v => .write (BusAddr.ofNat k a) bytes v

/-- A cycle in which the platform's host makes one transfer: the block whose window holds the address takes it; where
there is none there is nothing to access (R50, R234). -/
def Platform.access (x : PlatformAccess) (p : Platform) : Host.Outcome Platform Fault Refusal :=
  let cycle (s : State) := portCycle { rst := false, access := some (x.toBlock s.stream) } s
  match (p.select x.addr).bind fun k => p.onCore k cycle with
  | none => .fault (.outsideWindow x.addr)
  | some o => o

end Sys2Proof.Machine
end

