-- ==== Sys2Proof/Machine/Program.lean ====
section
/-! DEFINITION. Host programs (spec 30_encoding.md R89, R90): their statements and pseudo-instructions, the host that runs one
against a SHA1-CORE, its end (00_scope.md R18), and the access sequences of 43_driver.md R189 and R190. The host and its
program are not state of the block (10_state.md R20, R28): they stand beside it in `System`. -/

namespace Sys2Proof.Machine

/-- One statement of a host program (R89). -/
inductive Stmt where
  /-- `WR <reg>, <imm32>` -/
  | wr (r : Reg) (v : Word)
  /-- `RD <reg> -> <name>` -/
  | rd (r : Reg) (name : String)
  /-- `<label>:` -/
  | label (l : String)
  /-- `BNZ <name>, <mask>, <label>` -/
  | bnz (name : String) (mask : Word) (l : String)
deriving DecidableEq, Repr

/-- The pseudo-instructions (R90). -/
inductive Pseudo where
  /-- `CMD NOP`, `CMD INIT`, `CMD COMPRESS`, `CMD PAD n`, `CMD FINAL n`, `CMD CLRERR` -/
  | cmd (i : Instr)
  /-- `WAIT`; `l` is the label its expansion calls `w`. -/
  | wait (l : String)
  /-- `LDBLK w0, ..., w15` -/
  | ldblk (b : Block)
  /-- `WRCV h0, h1, h2, h3, h4` -/
  | wrcv (h : CV)
  /-- `RDCV -> d` -/
  | rdcv (d : String)
  /-- `WRLEN L` -/
  | wrlen (l : Dword)
deriving DecidableEq, Repr

/-- The five H registers in order. -/
def hRegs : List (Fin 5) := [0, 1, 2, 3, 4]

/-- The expansions of R90. `CMD PAD n` and `CMD FINAL n` with n above 63, for which R90 gives none, expand to the word of
n mod 64 (DESIGN CHOICE, notes/assumptions 17). -/
def Pseudo.expand : Pseudo → List Stmt
  | .cmd i => [.wr .cmd (encode i)]
  | .wait l => [.label l, .rd .status "s", .bnz "s" 0x1 l]
  | .ldblk b => (List.range 16).map fun i => .wr (.m (Fin.ofNat 16 i)) (b[i]?.getD 0)
  | .wrcv h => hRegs.map fun i => .wr (.h i) (CV.word h i)
  | .rdcv d => hRegs.map fun i => .rd (.h i) (d ++ toString i.val)
  | .wrlen l => [.wr .lenHi (hiWord l), .wr .lenLo (loWord l)]

/-- A program being run: its statements, the next one's place, the values its reads have named (the newest
first), and how many clock cycles the host lets pass before each of its next statements. -/
structure HostProgram where
  stmts : List Stmt
  at_ : Nat
  vals : List (String × Word)
  gaps : List Nat
deriving DecidableEq, Repr

/-- A host program beside the SHA1-CORE it drives (R17). -/
structure System where
  host : HostProgram
  core : State
deriving DecidableEq, Repr

/-- One clock cycle of the block with the inputs `c`, the host going on as `next` says. -/
def System.cycle (c : Cycle) (next : State → HostProgram) (y : System) : Host.Outcome System Fault Refusal :=
  match portCycle c y.core with
  | .next s => .next { host := next s, core := s }
  | .fault f => .fault f
  | .refused r => .refused r

/-- The program at its next statement. -/
def HostProgram.advance (p : HostProgram) : HostProgram := { p with at_ := p.at_ + 1 }

/-- The place of a label. Where several statements carry it, the first: R89 does not say which (DESIGN CHOICE,
notes/assumptions 15). -/
def findLabel (l : String) (stmts : List Stmt) : Option Nat := stmts.findIdx? (· == .label l)

/-- The name of a read bound to the value the read returned, which is the newest observation. -/
def HostProgram.bind (name : String) (s : State) (p : HostProgram) : HostProgram :=
  match s.readLog with
  | [] => p
  | r :: _ => { p with vals := (name, r.value) :: p.vals }

/-- `BNZ`: "go to label if (name ∧ mask) ≠ 0" (R89), host control flow without access. -/
def branch (name : String) (mask : Word) (l : String) (y : System) : Host.Outcome System Fault Refusal :=
  match y.host.vals.lookup name with
  | none => .refused (.unboundName name)
  | some v =>
    if v &&& mask = 0 then .next { y with host := y.host.advance }
    else
      match findLabel l y.host.stmts with
      | none => .refused (.unknownLabel l)
      | some k => .next { y with host := { y.host with at_ := k } }

/-- The next statement (R89). After the last access the block alone goes on (R18). -/
def runStmt (y : System) : Host.Outcome System Fault Refusal :=
  match y.host.stmts[y.host.at_]? with
  | none => y.cycle quietCycle fun _ => y.host
  | some (.wr r v) => y.cycle (writeCycle r.offset v) fun _ => y.host.advance
  | some (.rd r name) => y.cycle (readCycle r.offset) fun s => (y.host.bind name s).advance
  | some (.label _) => .next { y with host := y.host.advance }
  | some (.bnz name mask l) => branch name mask l y

/-- One step of host and block together. The block's inputs are the host's accesses and waits alone: the list in the
block's `port` is not read, so rst is never asserted while a program runs. No rule says what becomes of the program if it
is (R17, R89, R250); DESIGN CHOICE, notes/assumptions 15. -/
def System.step (y : System) : Host.Outcome System Fault Refusal :=
  match y.host.gaps with
  | (k + 1) :: gs => y.cycle quietCycle fun _ => { y.host with gaps := k :: gs }
  | 0 :: gs => runStmt { y with host := { y.host with gaps := gs } }
  | [] => runStmt y

/-- `k` steps of host and block, stopping at the first fault or refusal. -/
def System.run : Nat → System → Host.Outcome System Fault Refusal
  | 0, y => .next y
  | k + 1, y =>
    match y.step with
    | .next z => z.run k
    | .fault f => .fault f
    | .refused r => .refused r

/-- The final state of a program (R18): every access performed, and STATUS.BUSY = 0. -/
def System.finished (y : System) : Bool := decide (y.host.stmts.length ≤ y.host.at_) && !y.core.busy

/-- A program at its first statement, the host letting no cycle pass. -/
def System.start (stmts : List Stmt) (core : State) : System :=
  { host := { stmts := stmts, at_ := 0, vals := [], gaps := [] }, core := core }

/-- `CMD i` as the cycle of its one access (R90). -/
def cmdCycle (i : Instr) : Cycle := writeCycle Reg.cmd.offset (encode i)

/-- The cycles that write the first `k` words of a byte sequence to M0, M1, ... (R57). -/
def loadCycles (bytes : List Byte) (k : Nat) : List Cycle :=
  (List.range k).map fun i => writeCycle (Reg.m (Fin.ofNat 16 i)).offset (wordOfBytes bytes i)

/-- One pass of R189's loop: LDBLK, CMD COMPRESS, and `gap` cycles of waiting. -/
def blockCycles (bytes : List Byte) (gap : Nat) : List Cycle :=
  loadCycles bytes 16 ++ [cmdCycle .compress] ++ List.replicate gap quietCycle

/-- R189's loop over the first `q` blocks of `m`, in ascending order. -/
def blocksCycles : Nat → List Byte → Nat → List Cycle
  | 0, _, _ => []
  | q + 1, m, gap => blockCycles (m.take 64) gap ++ blocksCycles q (m.drop 64) gap

/-- The end of R189: the tail's words, whose bytes past the tail are `fill`, CMD FINAL n, and `gap` cycles. -/
def tailCycles (tail fill : List Byte) (gap : Nat) : List Cycle :=
  loadCycles (tail ++ fill) ((tail.length + 3) / 4) ++ [cmdCycle (.final tail.length)] ++
    List.replicate gap quietCycle

/-- R189 without its INIT, which is also what R190 runs on the rest of a resumed message. -/
def absorbCycles (m fill : List Byte) (gapBlock gapTail : Nat) : List Cycle :=
  blocksCycles (m.length / 64) m gapBlock ++ tailCycles (m.drop (64 * (m.length / 64))) fill gapTail

/-- The host procedure of R189 for the message `m`. -/
def hashCycles (m fill : List Byte) (gapBlock gapTail : Nat) : List Cycle :=
  cmdCycle .init :: absorbCycles m fill gapBlock gapTail

/-- `WRCV h` and `WRLEN l` as cycles (R90). -/
def resumeCycles (h : CV) (l : Dword) : List Cycle :=
  hRegs.map (fun i => writeCycle (Reg.h i).offset (CV.word h i)) ++
    [writeCycle Reg.lenHi.offset (hiWord l), writeCycle Reg.lenLo.offset (loWord l)]

end Sys2Proof.Machine
end

