-- ==== Sys2Proof/Safety.lean ====
section
/-! DEFINITION. What claims about SHA1-CORE are stated in: the states that the rules of the spec allow, what an observer of the
timing sees, and which inputs of a cycle the block takes. -/

namespace Sys2Proof.Machine

/-- The latency of a command with n tail bytes (spec 70_reset_and_hazards.md R258, R259). -/
def latencyOf (op : EngineOp) (n : Nat) : Nat :=
  match op with
  | .compress => Config.latCompress
  | .pad => Config.latPad
  | .final => Config.latFinal n

/-- "Whenever ERR = 0, ERRCODE = 0" (10_state.md R25), and an error recorded is a code recorded (R221). -/
abbrev State.errorRecordOk (s : State) : Prop := s.errcode = .none ↔ s.err = false

/-- "a command's snapshot operands ... equal the registers' contents throughout its execution" (20_memory.md R55). -/
abbrev State.snapshotOk (s : State) : Prop :=
  ∀ p, s.seq = .busy p → p.hIn = s.h ∧ p.lenIn = s.len ∧ p.mIn = s.m

/-- A pending command has between 1 and LAT cycles left (10_state.md R29, R30). -/
abbrev State.latencyOk (s : State) : Prop :=
  ∀ p, s.seq = .busy p → 1 ≤ p.remaining ∧ p.remaining ≤ latencyOf p.op p.n.toNat

/-- With one block in PBUF its second half is 0 (40_padder_parser.md R111), where PBUF is not UNSPECIFIED (R114). PBUF has
a value only after a PAD or FINAL, which NBLK tells (10_state.md R24, R25). -/
abbrev State.padBufferOk (s : State) : Prop :=
  s.pbufKnown = true → s.nblk ≠ 0 ∧ (s.nblk = 1 → ∀ j : Fin 32, 16 ≤ j.val → s.pbuf[j] = 0)

/-- The invariant of SHA1-CORE: what the rules above say of every state a run reaches. -/
structure State.Inv (s : State) : Prop where
  errorRecord : s.errorRecordOk
  snapshot : s.snapshotOk
  latency : s.latencyOk
  padBuffer : s.padBufferOk

/-- What the timing of the block shows: the command in flight and its cycles left. -/
def State.timing (s : State) : Option (EngineOp × BitVec 6 × Nat) :=
  match s.seq with
  | .idle => none
  | .busy p => some (p.op, p.n, p.remaining)

/-- Two states that agree on everything but the values of H, M, LEN and what is computed from them: the inputs to
come, the free values and the command in flight are the same (70_reset_and_hazards.md R259). The inputs and the free values
are the model's own fields (notes/assumptions 1, 11). -/
def State.sameControl (s t : State) : Prop :=
  s.timing = t.timing ∧ s.port = t.port ∧ s.stream = t.stream ∧ s.draws = t.draws

/-- The inputs of a cycle that this block accepts without stopping: rst not asserted, and no access, or one word in
the window (20_memory.md R50, R52). -/
def Cycle.ordinary (c : Cycle) : Bool :=
  !c.rst &&
    match c.access with
    | none => true
    | some (.read (.window _) n) => n == 4
    | some (.write (.window _) n _) => n == 4
    | some (.read (.outside _) _) => false
    | some (.write (.outside _) _ _) => false

/-- The next cycle writes one word to offset `off`, and the block can take it: it is idle, or its command completes in
the same cycle (60_exceptions.md R226). -/
def State.takesWrite (s : State) (off : BitVec 8) (v : Word) : Prop :=
  s.nextCycle = writeCycle off v ∧ (s.busy = false ∨ s.completing = true)

/-- The command in flight completes in the next cycle, and is one of `ops`. -/
def State.completesOneOf (s : State) (ops : List EngineOp) : Prop :=
  ∃ p, s.seq = .busy p ∧ p.remaining ≤ 1 ∧ p.op ∈ ops

end Sys2Proof.Machine
end

