-- ==== Sys2Proof/Certificates/Slice0/Obligations.lean ====
section
/-! DEFINITION. What is claimed of SHA1-CORE, statement by statement; OBLIGATIONS.json names the rule each rests on. -/

open Sys2Proof Sys2Proof.Machine

/-! ## Command words (spec 30_encoding.md) -/

/-- R80 to R85: no operand bit of a command is dropped by its word. -/
def Obligations.DecodeOfEncodeIsTheCommand : Prop :=
  ∀ i : Instr, i.wellFormed = true → decode (encode i) = .command i

/-- R80 to R87: a word that decodes is the one word of its command, which is well-formed: decoding is strict. -/
def Obligations.LegalWordIsTheWordOfItsCommand : Prop :=
  ∀ (v : Word) (i : Instr), decode v = .command i → i.wellFormed = true ∧ encode i = v

/-- R87: "1 legal word for each of NOP, INIT, COMPRESS and CLRERR; 64 legal words for each of PAD and FINAL; and
2^32 − 132 illegal words": the legal words, without repeats, by command. -/
def Obligations.LegalWordsAreOneHundredThirtyTwo : Prop :=
  ∃ single pads finals : List Word,
    single = [0x0, 0x1, 0x2, 0x5] ∧ pads.length = 64 ∧ finals.length = 64 ∧
    (single ++ pads ++ finals).Nodup ∧ (single ++ pads ++ finals).length = 132 ∧
    (∀ v, v ∈ pads ↔ ∃ n, decode v = .command (.pad n)) ∧
    (∀ v, v ∈ finals ↔ ∃ n, decode v = .command (.final n)) ∧
    (∀ v, v ∈ single ++ pads ++ finals ↔ ∃ i, decode v = .command i)

/-- R91, all of its worked encodings and illegal examples. -/
def Obligations.WorkedEncodings : Prop :=
  encode .init = 0x00000001 ∧ encode .compress = 0x00000002 ∧ encode (.pad 3) = 0x00000033 ∧
  encode (.final 3) = 0x00000034 ∧ encode (.final 0) = 0x00000004 ∧ encode (.final 11) = 0x000000B4 ∧
  encode (.final 56) = 0x00000384 ∧ encode (.final 63) = 0x000003F4 ∧ encode .clrerr = 0x00000005 ∧
  decode 0x00000001 = .command .init ∧ decode 0x00000002 = .command .compress ∧
  decode 0x00000033 = .command (.pad 3) ∧ decode 0x00000034 = .command (.final 3) ∧
  decode 0x00000004 = .command (.final 0) ∧ decode 0x000000B4 = .command (.final 11) ∧
  decode 0x00000384 = .command (.final 56) ∧ decode 0x000003F4 = .command (.final 63) ∧
  decode 0x00000005 = .command .clrerr ∧
  decode 0x00000006 = .illegal .reservedOpcode ∧ decode 0x00000012 = .illegal .tailCountNotZero ∧
  decode 0x00000434 = .illegal .reservedBits

/-- R224: the ILLEGAL_CMD words, by the ranges of the three fields; such a command does not run, and every other
word runs its command. -/
def Obligations.IllegalCommandIsRecordedAndNotRun : Prop :=
  ∀ (v : Word) (s : State), s.busy = false →
    let opc := v.toNat % 16
    let nb := v.toNat / 16 % 64
    let rsv := v.toNat / 1024
    let bad := rsv ≠ 0 ∨ 6 ≤ opc ∨ ((opc = 0 ∨ opc = 1 ∨ opc = 2 ∨ opc = 5) ∧ nb ≠ 0)
    (bad → hostAccess (.write (.window 0x04) 4 v) s = .next (recordError .illegalCmd s)) ∧
    (¬ bad → ∃ i, decode v = .command i ∧ hostAccess (.write (.window 0x04) 4 v) s = exec i s)

/-- R85: `IssueCommand(v)`, check by check and command by command. BUSY is 1 because a command is in flight (R30). That
State notes H as known after INIT is the model's own (notes/assumptions 20). -/
def Obligations.IssueCommandFollowsItsPseudocode : Prop :=
  ∀ (s : State) (off : BitVec 8) (v : Word), regAt off = some .cmd →
    let opc := v.toNat % 16
    let n := v.toNat / 16 % 64
    let rsv := v.toNat / 1024
    let pending (op : EngineOp) (n latency : Nat) : State :=
      { s with
        seq := .busy
          { op := op, n := BitVec.ofNat 6 n, hIn := s.h, lenIn := s.len, mIn := s.m, remaining := latency } }
    hostAccess (.write (.window off) 4 v) s =
      (if s.busy then .next (recordError .cmdBusy s)
       else if rsv ≠ 0 then .next (recordError .illegalCmd s)
       else if 6 ≤ opc then .next (recordError .illegalCmd s)
       else if (opc = 0 ∨ opc = 1 ∨ opc = 2 ∨ opc = 5) ∧ n ≠ 0 then .next (recordError .illegalCmd s)
       else if opc = 0 then .next s
       else if opc = 1 then
         .next { s with
           h := ⟨0x67452301, 0xEFCDAB89, 0x98BADCFE, 0x10325476, 0xC3D2E1F0⟩
           len := 0
           hKnown := tabulate 5 fun _ => true }
       else if opc = 5 then .next { s with err := false, errcode := .none, ovf := false }
       else if opc = 2 then .next (pending .compress 0 Config.latCompress)
       else if opc = 3 then .next (pending .pad n Config.latPad)
       else .next (pending .final n (Config.latFinal n))) ∧
    ∀ op n latency, (pending op n latency).busy = true

/-- R90: the command words of the pseudo-instructions, and the accesses of the others. -/
def Obligations.PseudoInstructionExpansions : Prop :=
  Pseudo.expand (.cmd .nop) = [.wr .cmd 0x00000000] ∧ Pseudo.expand (.cmd .init) = [.wr .cmd 0x00000001] ∧
  Pseudo.expand (.cmd .compress) = [.wr .cmd 0x00000002] ∧ Pseudo.expand (.cmd .clrerr) = [.wr .cmd 0x00000005] ∧
  (∀ n, n < 64 → Pseudo.expand (.cmd (.pad n)) = [.wr .cmd (BitVec.ofNat 32 n <<< 4 ||| 0x3)] ∧
    Pseudo.expand (.cmd (.final n)) = [.wr .cmd (BitVec.ofNat 32 n <<< 4 ||| 0x4)]) ∧
  (∀ l, Pseudo.expand (.wait l) = [.label l, .rd .status "s", .bnz "s" 0x1 l]) ∧
  (∀ b i, i < 16 → (Pseudo.expand (.ldblk b))[i]? = some (.wr (.m (Fin.ofNat 16 i)) (b[i]?.getD 0))) ∧
  (∀ b, (Pseudo.expand (.ldblk b)).length = 16) ∧
  (∀ h, Pseudo.expand (.wrcv h) =
    [.wr (.h 0) h.h0, .wr (.h 1) h.h1, .wr (.h 2) h.h2, .wr (.h 3) h.h3, .wr (.h 4) h.h4]) ∧
  (∀ d, Pseudo.expand (.rdcv d) =
    [.rd (.h 0) (d ++ "0"), .rd (.h 1) (d ++ "1"), .rd (.h 2) (d ++ "2"), .rd (.h 3) (d ++ "3"),
     .rd (.h 4) (d ++ "4")]) ∧
  (∀ l : Dword, Pseudo.expand (.wrlen l) =
    [.wr .lenHi (l.extractLsb' 32 32), .wr .lenLo (l.extractLsb' 0 32)])

/-! ## The step -/

/-- R65, R85: a step whose cycle writes to CMD a word that decodes runs that command on the state the engine's
cycle leaves; in the cycle of a completion the completion may come first or last (R226), and the one free value
that chooses has been drawn. Without a waiting input a step is the engine's cycle alone. -/
def Obligations.StepRunsTheDecodedCommand : Prop :=
  (∀ (s : State) (rest : List Cycle) (off : BitVec 8) (v : Word) (i : Instr),
    s.port = writeCycle off v :: rest → regAt off = some .cmd → decode v = .command i →
    (s.busy = false → step s = exec i { s with port := rest }) ∧
    (∀ p, s.seq = .busy p → 1 < p.remaining →
      step s = exec i { s with port := rest, seq := .busy { p with remaining := p.remaining - 1 } }) ∧
    (∀ p, s.seq = .busy p → p.remaining ≤ 1 →
      step s = exec i (completeCommand p { s with port := rest, draws := s.draws + 1 }) ∨
      step s = .next (completeCommand p (recordError .cmdBusy { s with port := rest, draws := s.draws + 1 })))) ∧
  (∀ s : State, s.port = [] → step s = .next (engineTick s)) ∧
  (∀ (s : State) (nbits w : Nat) (i : Instr), s.busy = false → nbits ≤ 32 →
    decodeTableWord nbits w = some i → step (s.withFetchWord nbits w) = exec i s)

/-- R226: where a host access and a completion fall in the same cycle, the step is one of the two orders. -/
def Obligations.SameCycleAccessAndCompletionEitherOrder : Prop :=
  ∀ (s : State) (rest : List Cycle) (a : Access) (p : Pending),
    s.port = { rst := false, access := some a } :: rest → s.seq = .busy p → p.remaining ≤ 1 →
    let t : State := { s with port := rest, draws := s.draws + 1 }
    step s = hostAccess a (completeCommand p t) ∨ step s = thenTick (hostAccess a t)

/-! ## The commands -/

/-- R187: NOP does nothing, is dropped while BUSY, and has one word. -/
def Obligations.NopDoesNothing : Prop :=
  (∀ s : State, s.busy = false → exec .nop s = .next s ∧ hostAccess (.write (.window 0x04) 4 0x0) s = .next s) ∧
  (∀ s : State, s.busy = true → exec .nop s = .next (recordError .cmdBusy s) ∧
    hostAccess (.write (.window 0x04) 4 0x0) s = .next (recordError .cmdBusy s)) ∧
  (∀ (s : State) (v : Word), s.busy = false → v.toNat % 16 = 0 → v ≠ 0x0 →
    hostAccess (.write (.window 0x04) 4 v) s = .next (recordError .illegalCmd s))

/-- R185: INIT writes H and LEN and nothing else, is dropped while BUSY, has one word, is idempotent, and
is redundant after reset. That State notes H as known is the model's own (notes/assumptions 20). -/
def Obligations.InitLoadsTheInitialValue : Prop :=
  (∀ s : State, s.busy = false →
    let t : State :=
      { s with
        h := ⟨0x67452301, 0xEFCDAB89, 0x98BADCFE, 0x10325476, 0xC3D2E1F0⟩
        len := 0
        hKnown := tabulate 5 fun _ => true }
    exec .init s = .next t ∧ hostAccess (.write (.window 0x04) 4 0x1) s = .next t ∧ exec .init t = .next t) ∧
  (∀ s : State, s.busy = true → exec .init s = .next (recordError .cmdBusy s) ∧
    hostAccess (.write (.window 0x04) 4 0x1) s = .next (recordError .cmdBusy s)) ∧
  (∀ (s : State) (v : Word), s.busy = false → v.toNat % 16 = 1 → v ≠ 0x1 →
    hostAccess (.write (.window 0x04) 4 v) s = .next (recordError .illegalCmd s)) ∧
  exec .init State.reset = .next State.reset

/-- R188: CLRERR clears ERR, ERRCODE and OVF and nothing else, is dropped while BUSY, has one word, changes nothing
when none of them is set, and its example. -/
def Obligations.ClrerrClearsTheErrorRecord : Prop :=
  (∀ s : State, s.busy = false →
    let t : State := { s with err := false, errcode := .none, ovf := false }
    exec .clrerr s = .next t ∧ hostAccess (.write (.window 0x04) 4 0x5) s = .next t ∧
    (readStatus s = 0x00000306 → readStatus t = 0x00000000)) ∧
  (∀ s : State, s.busy = false → s.err = false → s.errcode = .none → s.ovf = false → exec .clrerr s = .next s) ∧
  (∀ s : State, s.busy = true → exec .clrerr s = .next (recordError .cmdBusy s) ∧
    hostAccess (.write (.window 0x04) 4 0x5) s = .next (recordError .cmdBusy s)) ∧
  (∀ (s : State) (v : Word), s.busy = false → v.toNat % 16 = 5 → v ≠ 0x5 →
    hostAccess (.write (.window 0x04) 4 v) s = .next (recordError .illegalCmd s))

/-- R159: COMPRESS. Its issue; BUSY for LAT_COMPRESS cycles; then H and LEN, OVF on a carry, and its frame. With all of
M written since reset and H known, H is `compress` of the snapshot and known; otherwise H is UNSPECIFIED, which the model
notes, and a read of it returns a fresh free value (HostReadReturnsTheRegister). That form is the model's choice
(notes/assumptions 20). While BUSY it is dropped. -/
def Obligations.CompressAbsorbsOneBlock : Prop :=
  (∀ s : State, s.busy = false → exec .compress s =
    .next { s with
      seq := .busy
        { op := .compress, n := 0, hIn := s.h, lenIn := s.len, mIn := s.m, remaining := Config.latCompress } }) ∧
  (∀ s : State, s.busy = false → s.port = [] →
    ∃ u, exec .compress s = .next u ∧ hostAccess (.write (.window 0x04) 4 0x2) s = .next u ∧
      (∀ k, k < Config.latCompress → ∃ x, run k u = .next x ∧ x.busy = true) ∧
      ∃ t, run Config.latCompress u = .next t ∧
        ((∀ i : Fin 16, s.mWritten[i] = true) → (∀ i : Fin 5, s.hKnown[i] = true) →
          t.h = compress s.h s.m ∧ ∀ i : Fin 5, t.hKnown[i] = true) ∧
        ((∃ i : Fin 16, s.mWritten[i] = false) ∨ (∃ i : Fin 5, s.hKnown[i] = false) →
          t.h = freeCV s.stream s.draws ∧ ∀ i : Fin 5, t.hKnown[i] = false) ∧
        t.len = s.len + 512 ∧
        t.ovf = (s.ovf || decide (2 ^ 64 ≤ s.len.toNat + 512)) ∧ t.busy = false ∧
        t.m = s.m ∧ t.mWritten = s.mWritten ∧ t.pbuf = s.pbuf ∧ t.pbufKnown = s.pbufKnown ∧ t.nblk = s.nblk ∧
        t.err = s.err ∧ t.errcode = s.errcode ∧ t.port = [] ∧ t.readLog = s.readLog ∧ t.stream = s.stream ∧
        t.draws = s.draws + completionDraws) ∧
  (∀ s : State, s.busy = true → exec .compress s = .next (recordError .cmdBusy s))

/-- R114: PAD n. Its issue; BUSY for LAT_PAD cycles; then PBUF and NBLK, OVF on a carry, and its frame: neither H nor
LEN nor M nor the round state changes. Where a word of M that the tail lies in was never written since reset, all of PBUF is
UNSPECIFIED, which the model notes, and a read of it returns a fresh free value (HostReadReturnsTheRegister). That form is
the model's choice (notes/assumptions 20). While BUSY it is dropped. -/
def Obligations.PadExposesThePaddedTail : Prop :=
  (∀ (s : State) (n : Nat), n < 64 → s.busy = false → exec (.pad n) s =
    .next { s with
      seq := .busy
        { op := .pad, n := BitVec.ofNat 6 n, hIn := s.h, lenIn := s.len, mIn := s.m,
          remaining := Config.latPad } }) ∧
  (∀ (s : State) (n : Nat), n < 64 → s.busy = false → s.port = [] →
    ∃ u, exec (.pad n) s = .next u ∧
      hostAccess (.write (.window 0x04) 4 (BitVec.ofNat 32 (16 * n + 3))) s = .next u ∧
      (∀ k, k < Config.latPad → ∃ x, run k u = .next x ∧ x.busy = true) ∧
      let l := s.len + BitVec.ofNat 64 (8 * n)
      let q := padTail (tailBytes s.m n) n l
      let padded (pbuf : Vector Word 32) (known : Bool) : State :=
        { s with
          pbuf := pbuf
          pbufKnown := known
          nblk := q.1
          ovf := s.ovf || decide (2 ^ 64 ≤ s.len.toNat + 8 * n)
          draws := s.draws + completionDraws }
      ((∀ i : Fin 16, i.val < (n + 3) / 4 → s.mWritten[i] = true) →
        run Config.latPad u = .next (padded (pbufOfBytes q.2) true)) ∧
      ((∃ i : Fin 16, i.val < (n + 3) / 4 ∧ s.mWritten[i] = false) →
        run Config.latPad u = .next (padded (freePbuf s.stream (s.draws + 5)) false))) ∧
  (∀ (s : State) (n : Nat), s.busy = true → exec (.pad n) s = .next (recordError .cmdBusy s))

/-- R186: FINAL n. Its issue; BUSY for LAT_FINAL cycles; then PBUF and NBLK as PAD, H over the one or two blocks of
PBUF in order, LEN, OVF on a carry, and its frame. Where a word of M that the tail lies in was never written since
reset, H and all of PBUF are UNSPECIFIED, and H too where it was before. The model notes it, and reads return fresh free
values (HostReadReturnsTheRegister). That form is the model's choice (notes/assumptions 20). While BUSY it is
dropped. -/
def Obligations.FinalAbsorbsThePaddedTail : Prop :=
  (∀ (s : State) (n : Nat), n < 64 → s.busy = false → exec (.final n) s =
    .next { s with
      seq := .busy
        { op := .final, n := BitVec.ofNat 6 n, hIn := s.h, lenIn := s.len, mIn := s.m,
          remaining := Config.latFinal n } }) ∧
  (∀ (s : State) (n : Nat), n < 64 → s.busy = false → s.port = [] →
    ∃ u, exec (.final n) s = .next u ∧
      hostAccess (.write (.window 0x04) 4 (BitVec.ofNat 32 (16 * n + 4))) s = .next u ∧
      (∀ k, k < Config.latFinal n → ∃ x, run k u = .next x ∧ x.busy = true) ∧
      let l := s.len + BitVec.ofNat 64 (8 * n)
      let q := padTail (tailBytes s.m n) n l
      ∃ t, run (Config.latFinal n) u = .next t ∧ t.nblk = q.1 ∧
        ((∀ i : Fin 16, i.val < (n + 3) / 4 → s.mWritten[i] = true) →
          t.pbuf = pbufOfBytes q.2 ∧ t.pbufKnown = true ∧
          ((∀ i : Fin 5, s.hKnown[i] = true) → (∀ i : Fin 5, t.hKnown[i] = true) ∧
            t.h = (if q.1 = 1 then compress s.h (pbufBlock t.pbuf 0)
              else compress (compress s.h (pbufBlock t.pbuf 0)) (pbufBlock t.pbuf 1)))) ∧
        ((∃ i : Fin 16, i.val < (n + 3) / 4 ∧ s.mWritten[i] = false) →
          t.pbuf = freePbuf s.stream (s.draws + 5) ∧ t.pbufKnown = false) ∧
        ((∃ i : Fin 16, i.val < (n + 3) / 4 ∧ s.mWritten[i] = false) ∨ (∃ i : Fin 5, s.hKnown[i] = false) →
          t.h = freeCV s.stream s.draws ∧ ∀ i : Fin 5, t.hKnown[i] = false) ∧
        t.len = l ∧ t.ovf = (s.ovf || decide (2 ^ 64 ≤ s.len.toNat + 8 * n)) ∧ t.busy = false ∧
        t.m = s.m ∧ t.mWritten = s.mWritten ∧ t.err = s.err ∧ t.errcode = s.errcode ∧
        t.port = [] ∧ t.readLog = s.readLog ∧ t.stream = s.stream ∧ t.draws = s.draws + completionDraws) ∧
  (∀ (s : State) (n : Nat), s.busy = true → exec (.final n) s = .next (recordError .cmdBusy s))

/-- R222, R221: whatever the host writes or reads while a command is in flight, the command continues unaffected
and completes after its latency with its own results, and M is what it was. Reads pass free values, so which
free values stand in H and PBUF where these are UNSPECIFIED depends on how many reads there were (notes/assumptions
20). -/
def Obligations.CommandInFlightIsUndisturbed : Prop :=
  ∀ (s : State) (p : Pending) (cs : List Cycle),
    s.seq = .busy p → cs.length + 1 = p.remaining → (∀ c ∈ cs, c.ordinary = true) →
    s.port = cs ++ [quietCycle] →
    ∃ t d, run p.remaining s = .next t ∧
      (let u := completeCommand p { s with draws := d }
       t.busy = false ∧ t.h = u.h ∧ t.len = u.len ∧ t.pbuf = u.pbuf ∧ t.nblk = u.nblk ∧ t.ovf = u.ovf ∧
       t.hKnown = u.hKnown ∧ t.pbufKnown = u.pbufKnown) ∧
      (s.hashKnown p.wordsConsumed = true → t.h = (completeCommand p s).h) ∧
      (s.wroteM p.wordsConsumed = true → t.pbuf = (completeCommand p s).pbuf) ∧
      t.hKnown = (completeCommand p s).hKnown ∧ t.pbufKnown = (completeCommand p s).pbufKnown ∧
      t.len = (completeCommand p s).len ∧ t.nblk = (completeCommand p s).nblk ∧
      t.ovf = (completeCommand p s).ovf ∧ t.m = s.m ∧ t.mWritten = s.mWritten ∧ t.port = []

/-! ## The register window (spec 20_memory.md) -/

/-- R51, R52: the offsets of the registers, and the register at each of the 256 offsets, whose two low bits the port
ignores; no register at the reserved offsets. -/
def Obligations.RegisterMap : Prop :=
  Reg.id.offset = 0x00 ∧ Reg.cmd.offset = 0x04 ∧ Reg.status.offset = 0x08 ∧
  (∀ i : Fin 5, (Reg.h i).offset.toNat = 0x10 + 4 * i.val) ∧ Reg.lenHi.offset = 0x28 ∧ Reg.lenLo.offset = 0x2C ∧
  (∀ i : Fin 16, (Reg.m i).offset.toNat = 0x40 + 4 * i.val) ∧
  (∀ j : Fin 32, (Reg.pbuf j).offset.toNat = 0x80 + 4 * j.val) ∧
  (∀ (off : BitVec 8) (r : Reg), regAt off = some r ↔ r.offset.toNat = 4 * (off.toNat / 4)) ∧
  (∀ off : BitVec 8, regAt off = none ↔
    (off.toNat / 4 = 3 ∨ off.toNat / 4 = 9 ∨ (12 ≤ off.toNat / 4 ∧ off.toNat / 4 < 16)))

/-- R52, R50: an access of any width but one word is refused, one outside the window faults, and the two low offset
bits do not matter to a write or to the value of a read. -/
def Obligations.OnlyAlignedWordsExistAtThePort : Prop :=
  (∀ (s : State) (off : BitVec 8) (n : Nat) (v : Word), n ≠ 4 →
    hostAccess (.read (.window off) n) s = .refused (.notOneWord n) ∧
    hostAccess (.write (.window off) n v) s = .refused (.notOneWord n)) ∧
  (∀ (s : State) (a n : Nat) (v : Word),
    hostAccess (.read (.outside a) n) s = .fault (.outsideWindow a) ∧
    hostAccess (.write (.outside a) n v) s = .fault (.outsideWindow a)) ∧
  (∀ (s : State) (off : BitVec 8) (v : Word),
    hostAccess (.write (.window off) 4 v) s = hostAccess (.write (.window (off &&& 0xFC)) 4 v) s ∧
    readOffset off s = readOffset (off &&& 0xFC) s)

/-- R50, R234: the window of each SHA1-CORE is the 256 byte addresses from its own SHA1_BASE, a multiple of 256; no
two windows share an address; and the address of a transfer selects the one block of a platform whose window holds it.
That the blocks are numbered in the order of their addresses is the model's reading (notes/assumptions 16). -/
def Obligations.WindowIsAtItsBase : Prop :=
  (∀ k, Config.sha1Base k % 256 = 0) ∧
  (∀ j k, j < k → Config.sha1Base j + 0xFF < Config.sha1Base k) ∧
  (∀ (k : Nat) (off : BitVec 8), (BusAddr.window off).toNat k = Config.sha1Base k + off.toNat ∧
    BusAddr.ofNat k (Config.sha1Base k + off.toNat) = .window off) ∧
  (∀ k a : Nat, a < Config.sha1Base k ∨ Config.sha1Base k + 0xFF < a → BusAddr.ofNat k a = .outside a) ∧
  (∀ (p : Platform) (a : Nat), p.numbered →
    (∀ k, p.select a = some k ↔ k < p.cores.length ∧ Config.sha1Base k ≤ a ∧ a ≤ Config.sha1Base k + 0xFF) ∧
    (p.select a = none ↔
      ∀ k, k < p.cores.length → a < Config.sha1Base k ∨ Config.sha1Base k + 0xFF < a))

/-- R53 and R56: what a host read returns, register by register, and its frame: only the observation is recorded and one
free value is passed. A register that is UNSPECIFIED reads as a fresh free value (R14): while BUSY (R56), a word of M
never written since reset (R23, S1), PBUF until a PAD or FINAL gives it a value (S2), and H and PBUF after a command that
read such words (S4). That State notes which words are UNSPECIFIED is the model's choice (notes/assumptions 7, 20), and
so is that every read passes a free value (notes/assumptions 11). -/
def Obligations.HostReadReturnsTheRegister : Prop :=
  ∀ (s : State) (off : BitVec 8), ∃ v : Word,
    hostAccess (.read (.window off) 4) s =
      .next { s with readLog := { off := off, value := v } :: s.readLog, draws := s.draws + 1 } ∧
    let fresh := Config.freeWord s.stream s.draws
    (regAt off = none → v = 0) ∧ (regAt off = some .id → v = 0x53484131) ∧ (regAt off = some .cmd → v = 0) ∧
    (∀ i, regAt off = some (.m i) → v = if s.mWritten[i] = true then s.m[i] else fresh) ∧
    (regAt off = some .status →
      v = statusWith (if s.busy = true then Config.freeNblk s.stream s.draws else nblkBits s.nblk) s) ∧
    (∀ i, regAt off = some (.h i) → v = if s.busy = false ∧ s.hKnown[i] = true then CV.word s.h i else fresh) ∧
    (regAt off = some .lenHi → v = if s.busy = false then s.len.extractLsb' 32 32 else fresh) ∧
    (regAt off = some .lenLo → v = if s.busy = false then s.len.extractLsb' 0 32 else fresh) ∧
    (∀ j, regAt off = some (.pbuf j) → v = if s.busy = false ∧ s.pbufKnown = true then s.pbuf[j] else fresh)

/-- R54: what a host write does while the block is idle, register by register, with its frame. That State notes a word
of M as written, and a word of H as known, is the model's own (notes/assumptions 20). -/
def Obligations.HostWriteStoresTheRegister : Prop :=
  ∀ (s : State) (off : BitVec 8) (v : Word),
    (regAt off = some .cmd → hostAccess (.write (.window off) 4 v) s = issueCommand v s) ∧
    (s.busy = false →
      (∀ i, regAt off = some (.h i) →
        ∃ h, hostAccess (.write (.window off) 4 v) s =
            .next { s with h := h, hKnown := s.hKnown.set i true } ∧ CV.word h i = v ∧
          ∀ j, j ≠ i → CV.word h j = CV.word s.h j) ∧
      (regAt off = some .lenHi →
        ∃ l, hostAccess (.write (.window off) 4 v) s = .next { s with len := l } ∧
          l.extractLsb' 32 32 = v ∧ l.extractLsb' 0 32 = s.len.extractLsb' 0 32) ∧
      (regAt off = some .lenLo →
        ∃ l, hostAccess (.write (.window off) 4 v) s = .next { s with len := l } ∧
          l.extractLsb' 0 32 = v ∧ l.extractLsb' 32 32 = s.len.extractLsb' 32 32) ∧
      (∀ i, regAt off = some (.m i) →
        hostAccess (.write (.window off) 4 v) s =
          .next { s with m := s.m.set i v, mWritten := s.mWritten.set i true })) ∧
    (s.busy = true → ∀ r, regAt off = some r →
      ((∃ i, r = .h i) ∨ r = .lenHi ∨ r = .lenLo ∨ (∃ i, r = .m i)) →
      hostAccess (.write (.window off) 4 v) s = .next (recordError .wrBusy s)) ∧
    ((regAt off = none ∨ regAt off = some .id ∨ regAt off = some .status ∨ ∃ j, regAt off = some (.pbuf j)) →
      hostAccess (.write (.window off) 4 v) s = .next s)

/-- R25: the fields of STATUS in their bits, the reserved bits 0, the codes of R220, and NBLK never 3. -/
def Obligations.StatusFieldsAndReservedBits : Prop :=
  ∀ (s : State) (nb : BitVec 2),
    let v := statusWith nb s
    v.getLsbD 0 = s.busy ∧ v.getLsbD 1 = s.err ∧ v.getLsbD 2 = s.ovf ∧ v.getLsbD 3 = false ∧
    v.extractLsb' 4 2 = nb ∧ v.extractLsb' 6 2 = 0 ∧ v.extractLsb' 12 20 = 0 ∧
    (v.extractLsb' 8 4).toNat = (match s.errcode with | .none => 0 | .cmdBusy => 1 | .wrBusy => 2 | .illegalCmd => 3) ∧
    (nblkBits s.nblk).toNat = s.nblk.val ∧ nblkBits s.nblk ≠ 3

/-! ## Errors (spec 60_exceptions.md) -/

/-- R221: `raise Error(code)`: the first code since the last clear is kept, and nothing but ERR and ERRCODE changes. -/
def Obligations.FirstErrorIsKept : Prop :=
  ∀ (c d : ErrCode) (s : State),
    recordError c s = { s with err := true, errcode := if s.err then s.errcode else c } ∧
    recordError d (recordError c s) = recordError c s

/-- R222: every write to CMD while BUSY, whatever the value, records CMD_BUSY and nothing else: the command in flight
stays as it was, and the written one is dropped. -/
def Obligations.CommandWriteWhileBusyIsDropped : Prop :=
  ∀ (s : State) (off : BitVec 8) (v : Word), s.busy = true → regAt off = some .cmd →
    ∃ t, hostAccess (.write (.window off) 4 v) s = .next t ∧
      t = { s with err := true, errcode := if s.err then s.errcode else .cmdBusy } ∧ t.seq = s.seq

/-- R223: a write to H, LEN or M while BUSY is dropped with WR_BUSY; writes to ID, STATUS, PBUF and reserved offsets are
ignored at any time with no error; reads never raise an error. -/
def Obligations.DataWriteWhileBusyIsDropped : Prop :=
  ∀ (s : State) (off : BitVec 8) (v : Word),
    (s.busy = true → ∀ r, regAt off = some r →
      ((∃ i, r = .h i) ∨ r = .lenHi ∨ r = .lenLo ∨ (∃ i, r = .m i)) →
      hostAccess (.write (.window off) 4 v) s =
        .next { s with err := true, errcode := if s.err then s.errcode else .wrBusy }) ∧
    ((regAt off = none ∨ regAt off = some .id ∨ regAt off = some .status ∨ ∃ j, regAt off = some (.pbuf j)) →
      hostAccess (.write (.window off) 4 v) s = .next s) ∧
    (∃ t, hostAccess (.read (.window off) 4) s = .next t ∧ t.err = s.err ∧ t.errcode = s.errcode)

/-- R225: at a completion LEN + 512 (COMPRESS) or LEN + 8n (PAD, FINAL) of 2^64 or more wraps and sets OVF, and sets
neither ERR nor ERRCODE; otherwise OVF stays. PAD does not write LEN. -/
def Obligations.LengthOverflowSetsOvf : Prop :=
  ∀ (p : Pending) (s : State),
    let added := if p.op = .compress then 512 else 8 * p.n.toNat
    let t := completeCommand p s
    (2 ^ 64 ≤ p.lenIn.toNat + added → t.ovf = true) ∧
    (p.lenIn.toNat + added < 2 ^ 64 → t.ovf = s.ovf) ∧
    (p.op ≠ .pad → t.len.toNat = (p.lenIn.toNat + added) % 2 ^ 64) ∧ (p.op = .pad → t.len = s.len) ∧
    t.err = s.err ∧ t.errcode = s.errcode ∧ t.busy = false

/-- R228: CLRERR, taken while idle, and reset are the only ways to clear ERR, and the only ways to clear OVF
(R225 "sticky until CLRERR or reset"). -/
def Obligations.OnlyClrerrAndResetClearErrors : Prop :=
  ∀ s t : State, step s = .next t → (s.err = true ∧ t.err = false) ∨ (s.ovf = true ∧ t.ovf = false) →
    s.nextCycle.rst = true ∨ ∃ off, regAt off = some .cmd ∧ s.takesWrite off 0x5

/-! ## Reset (spec 70_reset_and_hazards.md) -/

/-- R250: the reset state, the values the spec gives; M, PBUF and the hidden round state are UNSPECIFIED and nothing is
said of them. -/
def Obligations.ResetLeavesTheStatedValues : Prop :=
  let s := State.reset
  s.h = ⟨0x67452301, 0xEFCDAB89, 0x98BADCFE, 0x10325476, 0xC3D2E1F0⟩ ∧ s.len = 0 ∧ s.busy = false ∧
  s.err = false ∧ s.ovf = false ∧ s.nblk = 0 ∧ s.errcode = .none ∧ s.seq = .idle ∧
  readStatus s = 0x00000000 ∧ readReg .id s = 0x53484131 ∧ ∀ i : Fin 5, readReg (.h i) s = CV.word s.h i

/-- R250, R251: a cycle with rst asserted gives, from every state, the values of R250, and abandons a command in flight
with none of its results; a host access in it is no step of the model. The model's own in it: that the inputs to come
and the observations stay as they were (DESIGN CHOICE, notes/assumptions 18), that no word of M counts as written
and PBUF as unknown (notes/assumptions 20), and the name of the refusal (notes/assumptions 12). -/
def Obligations.ResetCycleFromAnyState : Prop :=
  (∀ (s : State) (rest : List Cycle), s.port = { rst := true, access := none } :: rest →
    ∃ t, step s = .next t ∧
      t.h = ⟨0x67452301, 0xEFCDAB89, 0x98BADCFE, 0x10325476, 0xC3D2E1F0⟩ ∧ t.len = 0 ∧ t.seq = .idle ∧
      t.err = false ∧ t.ovf = false ∧ t.nblk = 0 ∧ t.errcode = .none ∧
      (∀ i : Fin 16, t.mWritten[i] = false) ∧ (∀ i : Fin 5, t.hKnown[i] = true) ∧ t.pbufKnown = false ∧
      t.port = rest ∧ t.readLog = s.readLog ∧ t.trace = s.trace) ∧
  (∀ (s : State) (rest : List Cycle) (a : Access), s.port = { rst := true, access := some a } :: rest →
    step s = .refused .accessInReset)

/-- R253: reset leaves what INIT would leave, with no error recorded and BUSY = 0. -/
def Obligations.ResetIsWhatInitLeaves : Prop :=
  exec .init State.reset = .next State.reset ∧ State.reset.err = false ∧ State.reset.errcode = .none ∧
  State.reset.busy = false

/-! ## The machine as a whole -/

/-- The invariant holds after reset. -/
def Obligations.ResetMeetsTheInvariant : Prop := State.reset.Inv

/-- Every step keeps the invariant: the error record is consistent (R25, R221), a command's snapshot equals the
registers throughout (R55), its latency is between 1 and LAT (R30), and a PBUF that is not UNSPECIFIED comes with an
NBLK that is not 0 (R25) and, with one block, has its second half 0 (R111). That State notes whether PBUF is UNSPECIFIED
is the model's own (notes/assumptions 20). -/
def Obligations.EveryStepKeepsTheInvariant : Prop :=
  ∀ s t : State, s.Inv → step s = .next t → t.Inv

/-- R21: H, and what is known of it, is written by the host, INIT, COMPRESS and FINAL, and by reset, and by nothing else. -/
def Obligations.OnlyTheseWriteTheChainingValue : Prop :=
  ∀ s t : State, step s = .next t → t.h ≠ s.h ∨ t.hKnown ≠ s.hKnown →
    s.nextCycle.rst = true ∨ s.completesOneOf [.compress, .final] ∨
    (∃ off v i, regAt off = some (.h i) ∧ s.takesWrite off v) ∨
    (∃ off, regAt off = some .cmd ∧ s.takesWrite off 0x1)

/-- R22: LEN is written by the host, INIT, COMPRESS and FINAL, and by reset, and by nothing else; PAD leaves it. -/
def Obligations.OnlyTheseWriteTheLength : Prop :=
  ∀ s t : State, step s = .next t → t.len ≠ s.len →
    s.nextCycle.rst = true ∨ s.completesOneOf [.compress, .final] ∨
    (∃ off v, (regAt off = some .lenHi ∨ regAt off = some .lenLo) ∧ s.takesWrite off v) ∨
    (∃ off, regAt off = some .cmd ∧ s.takesWrite off 0x1)

/-- R23: "No command writes M": M, and what is known of it to be written, changes by a host write to M that the block
takes, one word, and by reset. -/
def Obligations.OnlyTheHostWritesTheBlockBuffer : Prop :=
  ∀ s t : State, step s = .next t → t.m ≠ s.m ∨ t.mWritten ≠ s.mWritten →
    s.nextCycle.rst = true ∨
    ∃ off v i, regAt off = some (.m i) ∧ s.takesWrite off v ∧ t.m = s.m.set i v ∧
      t.mWritten = s.mWritten.set i true

/-- R24: PBUF and NBLK are written by PAD and FINAL, and by reset, and by nothing else; no host write reaches them. -/
def Obligations.OnlyPadAndFinalWriteThePadBuffer : Prop :=
  ∀ s t : State, step s = .next t → t.pbuf ≠ s.pbuf ∨ t.nblk ≠ s.nblk ∨ t.pbufKnown ≠ s.pbufKnown →
    s.nextCycle.rst = true ∨ s.completesOneOf [.pad, .final]

/-- R259: "Latency does not depend on data": from two states that differ only in H, M, LEN and what is computed from
them, the same inputs give the same timing, step for step; COMPRESS and PAD have one latency each, and FINAL's depends
only on whether n ≤ 55 or n ≥ 56. The relation carries three fields of the model's own, `port`, `stream` and `draws`, and
its preservation rests on the model's choices: a cycle is a step and the inputs to come a list (notes/assumptions 1), the
count of free values passed does not depend on data (notes/assumptions 11, 20), and the order of an access and a
completion in one cycle is taken from that count (notes/assumptions 10). -/
def Obligations.TimingIsIndependentOfData : Prop :=
  (∀ s t s' : State, s.sameControl t → step s = .next s' → ∃ t', step t = .next t' ∧ s'.sameControl t') ∧
  (∀ n n' : Nat, latencyOf .compress n = Config.latCompress ∧ latencyOf .pad n = Config.latPad ∧
    ((n ≤ 55 ↔ n' ≤ 55) → latencyOf .final n = latencyOf .final n'))

/-! ## The padder and the block parser (spec 40_padder_parser.md) -/

/-- R101: `pad`, with k the smallest solution of its congruence. -/
def Obligations.PadZeroBitsAreTheLeast : Prop :=
  (∀ m : List Byte, padBits m =
    bitsOfBytes m ++ [true] ++ List.replicate (padZeroBits (8 * m.length)) false ++
      bitsOfBytes (be64 (BitVec.ofNat 64 (8 * m.length)))) ∧
  (∀ bits, (bits + 1 + padZeroBits bits) % 512 = 448 ∧ ∀ k, k < padZeroBits bits → (bits + 1 + k) % 512 ≠ 448)

/-- R103: the invariants of `pad`. -/
def Obligations.PadInvariants : Prop :=
  ∀ m : List Byte, 8 * m.length < 2 ^ 64 →
    (padBits m).length % 512 = 0 ∧ 0 < (padBits m).length ∧ bitsOfBytes m <+: padBits m ∧
    padZeroBits (8 * m.length) < 512 ∧
    ((padBits m).drop ((padBits m).length - 64)).foldl (fun n b => 2 * n + b.toNat) 0 = 8 * m.length

/-- R102: `pad` in bytes: its bits, its length ℓ + 9 + z with z = (55 − ℓ) mod 64, a multiple of 64, and N(ℓ) blocks.
That the byte 0x80 begins with the 1 bit rests on the bit order within a byte, which R100 has from general knowledge
(notes/assumptions 14). -/
def Obligations.PadBytesAreThePadBits : Prop :=
  ∀ m : List Byte,
    bitsOfBytes (padBytes m) = padBits m ∧
    padBytes m = m ++ [0x80] ++ List.replicate ((55 - (m.length : Int)) % 64).toNat 0 ++
      be64 (BitVec.ofNat 64 (8 * m.length)) ∧
    (padBytes m).length = 64 * ((m.length + 8) / 64 + 1)

/-- R104: `parse` is defined on multiples of 512 only, and there gives the consecutive blocks in ascending order. That the
function answers none elsewhere is the model's form (notes/assumptions 19). -/
def Obligations.ParseGivesConsecutiveBlocks : Prop :=
  ∀ p : List Bool,
    (p.length % 512 ≠ 0 → parse p = none) ∧
    (∀ n, p.length = 512 * n → ∃ bs, parse p = some bs ∧ bs.length = n ∧
      ∀ i, i < n → bs[i]? = some ((p.drop (512 * i)).take 512))

/-- R106: the blocks of `parse (pad m)`, concatenated, are `pad m` bit for bit. -/
def Obligations.ParseRoundTrip : Prop :=
  ∀ m : List Byte, ∃ bs, parse (padBits m) = some bs ∧ bs.flatten = padBits m

/-- R105, R11: the words of a block of 64 bytes, and what a big-endian word is. -/
def Obligations.BlockWordsAreBigEndian : Prop :=
  (∀ b0 b1 b2 b3 : Byte,
    (be32 b0 b1 b2 b3).toNat = 2 ^ 24 * b0.toNat + 2 ^ 16 * b1.toNat + 2 ^ 8 * b2.toNat + b3.toNat) ∧
  ∀ b : List Byte, b.length = 64 → ∀ i, i < 16 →
    (blockWords (bitsOfBytes b))[i]? =
      some (be32 (b.getD (4 * i) 0) (b.getD (4 * i + 1) 0) (b.getD (4 * i + 2) 0) (b.getD (4 * i + 3) 0))

/-- R109: padding the tail in hardware gives the source's `pad`, and its blocks are the full blocks of the message
followed by the one or two blocks of PBUF. The clause on `parse` rests on the bit order within a byte, which the spec has
from general knowledge (notes/assumptions 14). -/
def Obligations.TailPaddingIsTheSourcesPadding : Prop :=
  ∀ m : List Byte, 8 * m.length < 2 ^ 64 →
    let q := m.length / 64
    let n := m.length % 64
    let tail := padTail (m.drop (64 * q)) n (BitVec.ofNat 64 (8 * m.length))
    padBytes m = m.take (64 * q) ++ tail.2 ∧ padBlockCount m.length = q + tail.1.val ∧
    (parse (padBits m)).map (fun bs => bs.map blockWords) =
      some ((List.range q).map (fun i => tabulate 16 (wordOfBytes (m.drop (64 * i)))) ++
        (List.range tail.1.val).map (fun k => pbufBlock (pbufOfBytes tail.2) k))

/-- R107, R111: the padded tail, of 64·nblk bytes; PAD and FINAL put byte j of it at byte j mod 64 of PBUF block j div 64;
the length field stands in the last two words of the last block, and the second block is 0 when there is one. Where
a word of M that the tail lies in was never written since reset all of PBUF is UNSPECIFIED (R114; the form is the model's
choice, notes/assumptions 20). -/
def Obligations.PaddedTailLayoutInPbuf : Prop :=
  ∀ (p : Pending) (s : State), p.op ≠ .compress →
    let l := p.lenIn + BitVec.ofNat 64 (8 * p.n.toNat)
    let q := padTail (tailBytes p.mIn p.n.toNat) p.n.toNat l
    let t := completeCommand p s
    q.1 = (if p.n.toNat ≤ 55 then 1 else 2) ∧ q.2.length = 64 * q.1.val ∧ t.nblk = q.1 ∧
    q.2 = tailBytes p.mIn p.n.toNat ++ [0x80] ++ List.replicate (64 * q.1.val - p.n.toNat - 9) 0 ++ be64 l ∧
    t.pbufKnown = s.wroteM ((p.n.toNat + 3) / 4) ∧
    (t.pbufKnown = false → t.pbuf = freePbuf s.stream (s.draws + 5)) ∧
    (t.pbufKnown = true →
      (∀ j, j < 64 * q.1.val →
        q.2[j]? = some (wordByte (t.pbuf[16 * (j / 64) + j % 64 / 4]?.getD 0) (j % 4))) ∧
      (q.1 = 1 → t.pbuf[14] = l.extractLsb' 32 32 ∧ t.pbuf[15] = l.extractLsb' 0 32 ∧
        ∀ j : Fin 32, 16 ≤ j.val → t.pbuf[j] = 0) ∧
      (q.1 = 2 → t.pbuf[30] = l.extractLsb' 32 32 ∧ t.pbuf[31] = l.extractLsb' 0 32))

/-- R108: bytes n to 63 of M are ignored, so only M words 0 to (n + 3) div 4 − 1 are read. -/
def Obligations.PaddingReadsOnlyTheTail : Prop :=
  ∀ p p' : Pending, p'.n = p.n → p'.lenIn = p.lenIn →
    ((∀ j, j < p.n.toNat → blockByte p'.mIn j = blockByte p.mIn j) → paddedTail p' = paddedTail p) ∧
    ((∀ i, i < (p.n.toNat + 3) / 4 → p'.mIn[i]? = p.mIn[i]?) → paddedTail p' = paddedTail p)

/-! ## The scheduler (spec 41_scheduler.md) and the compression engine (42_compression.md) -/

/-- R130, R131: the eighty schedule words. -/
def Obligations.ScheduleRecurrence : Prop :=
  ∀ b : Block, (schedule b).length = 80 ∧ (∀ t, t < 16 → (schedule b)[t]? = b[t]?) ∧
    ∀ t, 16 ≤ t → t ≤ 79 →
      (schedule b).getD t 0 =
        rotl ((schedule b).getD (t - 3) 0 ^^^ (schedule b).getD (t - 8) 0 ^^^ (schedule b).getD (t - 14) 0 ^^^
          (schedule b).getD (t - 16) 0) 1

/-- R133: "The window form returns exactly W[t]", from whatever the hidden state held before the block. -/
def Obligations.WindowFormGivesTheSchedule : Prop :=
  ∀ (b : Block) (r : RoundState) (t : Nat), t < 80 →
    some (schedWord b t (engineRounds b t r).w).1 = (schedule b)[t]?

/-- R135: linearity of the schedule, its value on the zero block, and W[16..18] of the all-ones block. -/
def Obligations.ScheduleIsLinear : Prop :=
  (∀ b1 b2 : Block, schedule (Vector.zipWith (· ^^^ ·) b1 b2) =
    List.zipWith (· ^^^ ·) (schedule b1) (schedule b2)) ∧
  schedule (tabulate 16 fun _ => 0) = List.replicate 80 0 ∧
  ∀ t, 16 ≤ t → t ≤ 18 → (schedule (tabulate 16 fun _ => 0xFFFFFFFF)).getD t 0 = 0

/-- R150 to R152, bit by bit. -/
def Obligations.RoundFunctionsBitByBit : Prop :=
  ∀ (x y z : Word) (i : Nat), i < 32 →
    (ch x y z).getLsbD i = (if x.getLsbD i then y.getLsbD i else z.getLsbD i) ∧
    ch x y z = (x &&& y) ^^^ (~~~x &&& z) ∧
    (parity x y z).getLsbD i = (x.getLsbD i ^^ y.getLsbD i ^^ z.getLsbD i) ∧
    (maj x y z).getLsbD i =
      decide (2 ≤ (x.getLsbD i).toNat + (y.getLsbD i).toNat + (z.getLsbD i).toNat)

/-- R153, R154: the round function and the round constant of each quartile. The constants are the spec's
[from general knowledge, not in source]: notes/assumptions 8. -/
def Obligations.QuartileTables : Prop :=
  ∀ (t : Nat) (x y z : Word),
    (t ≤ 19 → roundFunction t x y z = ch x y z ∧ roundConstant t = 0x5A827999) ∧
    (20 ≤ t → t ≤ 39 → roundFunction t x y z = parity x y z ∧ roundConstant t = 0x6ED9EBA1) ∧
    (40 ≤ t → t ≤ 59 → roundFunction t x y z = maj x y z ∧ roundConstant t = 0x8F1BBCDC) ∧
    (60 ≤ t → t ≤ 79 → roundFunction t x y z = parity x y z ∧ roundConstant t = 0xCA62C1D6)

/-- R10, R155, R156, and R29, R133. What a rotation is, bit by bit; what a round is, component by component; that
`compress` loads the chaining value, runs rounds 0 to 79 on the schedule in order and adds back component by component;
and that the engine's eighty rounds on its hidden state, with the sixteen-word window, compute `compress`, whatever the
hidden state held before, and end with t = 79 and the window W[64..79]. That the hidden state keeps these values after
the command is the model's reading (notes/assumptions 9). -/
def Obligations.EngineRoundsComputeCompress : Prop :=
  (∀ (x : Word) (n i : Nat), 0 < n → n < 32 → i < 32 →
    (rotl x n).getLsbD i = x.getLsbD ((i + 32 - n) % 32)) ∧
  (∀ (t : Nat) (v : WorkVars) (w : Word),
    let r := roundStep t v w
    r.a = rotl v.a 5 + roundFunction t v.b v.c v.d + v.e + roundConstant t + w ∧
    r.b = v.a ∧ r.c = rotl v.b 30 ∧ r.d = v.c ∧ r.e = v.d) ∧
  (∀ (cv : CV) (b : Block), ∃ v : Nat → WorkVars,
    v 0 = ⟨cv.h0, cv.h1, cv.h2, cv.h3, cv.h4⟩ ∧
    (∀ t, t < 80 → v (t + 1) = roundStep t (v t) ((schedule b).getD t 0)) ∧
    compress cv b =
      ⟨(v 80).a + cv.h0, (v 80).b + cv.h1, (v 80).c + cv.h2, (v 80).d + cv.h3, (v 80).e + cv.h4⟩) ∧
  (∀ (blk : Fin 2) (cv : CV) (b : Block) (r : RoundState),
    let x := engineBlock blk cv b r
    addBack x.vars cv = compress cv b ∧ x.blk = blk ∧ x.t.val = 79 ∧
    ∀ i, i < 16 → x.w[i]? = (schedule b)[64 + i]?)

/-- R233: where the trace port is present, one record per round of every block COMPRESS and FINAL compress, in round
order, with the schedule word of the round and the working variables after it; where it is absent, nothing. It
speaks of the model's `trace` alone: the spec gives the trace no contract and lets no claim about the hardware read it
(93_implementation_defined.md U3), its source gives no layout of a record (91_not_in_source.md N10), and this one is the
spec's own decision (D22). That the records stand in `trace` from the completion on is the model's choice
(notes/assumptions 5), and so is what they hold where results are UNSPECIFIED (notes/assumptions 20). -/
def Obligations.TraceHasOneRecordPerRound : Prop :=
  (∀ (blk : Fin 2) (cv : CV) (b : Block),
    (Config.tracePresent = false → traceBlock blk cv b = []) ∧
    (Config.tracePresent = true → (traceBlock blk cv b).length = 80 ∧
      ∀ t, t < 80 → ∃ r, (traceBlock blk cv b)[t]? = some r ∧ r.blk = blk ∧ r.t = t ∧
        some r.w = (schedule b)[t]? ∧ r.vars = runRounds 0 ((schedule b).take (t + 1)) (loadVars cv))) ∧
  (∀ (p : Pending) (s : State),
    (completeCompress p s).trace = s.trace ++ traceBlock 0 p.hIn p.mIn ∧
    (completePad p s).trace = s.trace ∧
    (completeFinal p s).trace =
      (let t := completeFinal p s
       let first := s.trace ++ traceBlock 0 p.hIn (pbufBlock t.pbuf 0)
       if t.nblk = 1 then first
       else first ++ traceBlock 1 (compress p.hIn (pbufBlock t.pbuf 0)) (pbufBlock t.pbuf 1)))

/-! ## The hash driver (spec 43_driver.md) -/

/-- R181, R190: the fold over blocks splits, with no block it is iv, and with one it is one compression. -/
def Obligations.DigestFoldSplits : Prop :=
  ∀ (x y : List Block) (b : Block) (iv : CV),
    digestFromBlocks (x ++ y) iv = digestFromBlocks y (digestFromBlocks x iv) ∧
    digestFromBlocks [] iv = iv ∧ digestFromBlocks (b :: x) iv = digestFromBlocks x (compress iv b)

/-- R189: the host procedure, from any idle state, whatever the bytes past the tail, whatever the waits as long as
each covers its latency, leaves H = digest(m) and LEN = 8ℓ, and records no error and no overflow. That an access takes
one cycle, and a wait is cycles without access, is the model's choice (notes/assumptions 1). -/
def Obligations.HostProcedureLeavesTheDigest : Prop :=
  ∀ (m fill : List Byte) (gapBlock gapTail : Nat) (s : State),
    8 * m.length < 2 ^ 64 → s.busy = false → s.port = hashCycles m fill gapBlock gapTail →
    Config.latCompress ≤ gapBlock → Config.latFinal (m.length % 64) ≤ gapTail →
    ∃ t, run s.port.length s = .next t ∧ digest m Config.iv = some t.h ∧
      t.len = BitVec.ofNat 64 (8 * m.length) ∧ t.busy = false ∧ t.port = [] ∧ t.err = s.err ∧
      t.errcode = s.errcode ∧ t.ovf = s.ovf ∧ t.nblk = (if m.length % 64 ≤ 55 then 1 else 2) ∧
      (∀ i : Fin 5, readReg (.h i) t = CV.word t.h i) ∧ t.pbufKnown = true

/-- R190 (2): hashing m1 ‖ g1 ‖ m2 is folding, from digest(m1), over the blocks of m2 padded for the total length. -/
def Obligations.ResumptionEquivalence : Prop :=
  ∀ (m1 m2 : List Byte) (d1 : CV),
    digest m1 Config.iv = some d1 →
    let g1 := padSuffix m1.length
    let total := m1.length + g1.length + m2.length
    8 * total < 2 ^ 64 →
    ∃ bs, parse (bitsOfBytes (m2 ++ padSuffix total)) = some bs ∧
      digest (m1 ++ g1 ++ m2) Config.iv = some (digestFromBlocks (bs.map blockWords) d1)

/-- R190, R191: in hardware: the digest of m1 and its padded length loaded, then m2 absorbed without INIT, leave the
digest of m1 ‖ g1 ‖ m2; the content of m1 is not needed, only its digest and its length. That an access takes one cycle,
and a wait is cycles without access, is the model's choice (notes/assumptions 1). -/
def Obligations.ResumedHashLeavesTheExtendedDigest : Prop :=
  ∀ (m1 m2 fill : List Byte) (d1 : CV) (gapBlock gapTail : Nat) (s : State),
    digest m1 Config.iv = some d1 →
    let g1 := padSuffix m1.length
    let l1 := m1.length + g1.length
    8 * (l1 + m2.length) < 2 ^ 64 → s.busy = false →
    s.port = resumeCycles d1 (BitVec.ofNat 64 (8 * l1)) ++ absorbCycles m2 fill gapBlock gapTail →
    Config.latCompress ≤ gapBlock → Config.latFinal (m2.length % 64) ≤ gapTail →
    ∃ t, run s.port.length s = .next t ∧ digest (m1 ++ g1 ++ m2) Config.iv = some t.h ∧
      t.len = BitVec.ofNat 64 (8 * (l1 + m2.length)) ∧ t.busy = false ∧ t.port = [] ∧ t.err = s.err ∧
      t.errcode = s.errcode ∧ t.ovf = s.ovf ∧ ∀ i : Fin 5, readReg (.h i) t = CV.word t.h i

/-- R59: the digest's bytes, from the words H[0] to H[4] in order. -/
def Obligations.DigestBytesAreBigEndian : Prop :=
  ∀ h : CV, (digestBytes h).length = 20 ∧
    ∀ i k, i < 5 → k < 4 →
      (digestBytes h)[4 * i + k]? =
        some (BitVec.extractLsb' (24 - 8 * k) 8 ([h.h0, h.h1, h.h2, h.h3, h.h4].getD i 0))

/-! ## Host programs and platforms -/

/-- R90, R256, R258: a WAIT loop ends, whatever the latency, and leaves the program after it with BUSY = 0 and the
command's results in the registers. That each RD takes one cycle, and a label and a BNZ none, is the model's choice
(notes/assumptions 15); which free values stand in H and PBUF where these are UNSPECIFIED depends on the reads made
meanwhile (notes/assumptions 20). -/
def Obligations.WaitLoopEndsWithTheResults : Prop :=
  ∀ (y : System) (l : String),
    y.host.gaps = [] →
    y.host.stmts[y.host.at_]? = some (.label l) → y.host.stmts[y.host.at_ + 1]? = some (.rd .status "s") →
    y.host.stmts[y.host.at_ + 2]? = some (.bnz "s" 0x1 l) → findLabel l y.host.stmts = some y.host.at_ →
    ∃ k z, System.run k y = .next z ∧ z.host.at_ = y.host.at_ + 3 ∧ z.host.stmts = y.host.stmts ∧
      z.core.busy = false ∧
      (y.core.seq = .idle → z.core.h = y.core.h ∧ z.core.len = y.core.len ∧ z.core.pbuf = y.core.pbuf ∧
        z.core.nblk = y.core.nblk ∧ z.core.ovf = y.core.ovf ∧ z.core.hKnown = y.core.hKnown ∧
        z.core.pbufKnown = y.core.pbufKnown) ∧
      (∀ p, y.core.seq = .busy p →
        (∃ d, let u := completeCommand p { y.core with draws := d }
          z.core.h = u.h ∧ z.core.len = u.len ∧ z.core.pbuf = u.pbuf ∧ z.core.nblk = u.nblk ∧ z.core.ovf = u.ovf ∧
          z.core.hKnown = u.hKnown ∧ z.core.pbufKnown = u.pbufKnown) ∧
        (y.core.hashKnown p.wordsConsumed = true → z.core.h = (completeCommand p y.core).h) ∧
        (y.core.wroteM p.wordsConsumed = true → z.core.pbuf = (completeCommand p y.core).pbuf) ∧
        z.core.hKnown = (completeCommand p y.core).hKnown ∧
        z.core.pbufKnown = (completeCommand p y.core).pbufKnown ∧
        z.core.len = (completeCommand p y.core).len ∧ z.core.nblk = (completeCommand p y.core).nblk ∧
        z.core.ovf = (completeCommand p y.core).ovf)

/-- R234: a cycle of one SHA1-CORE changes no other, and the cycles of two may come in either order; a transfer reaches
the one block whose window holds its address, at the offset in that window, and no other; where no window holds it, it
stops by name (notes/assumptions 12); and all blocks start together at reset. That a platform's cycles are taken one
block at a time is the model's choice (notes/assumptions 16). -/
def Obligations.CoresOfAPlatformAreIndependent : Prop :=
  (∀ (p q : Platform) (j k : Nat), j ≠ k → p.stepCore k = some (.next q) →
    q.cores[j]? = p.cores[j]? ∧ q.cores.length = p.cores.length ∧ (p.numbered → q.numbered) ∧
    (∃ s t, p.cores[k]? = some s ∧ step s = .next t ∧ q.cores[k]? = some t) ∧
    ∀ r, q.stepCore j = some (.next r) →
      ∃ q', p.stepCore j = some (.next q') ∧ q'.stepCore k = some (.next r)) ∧
  (∀ (p : Platform) (k : Nat) (s : State) (x : PlatformAccess), p.numbered → p.cores[k]? = some s →
    Config.sha1Base k ≤ x.addr → x.addr ≤ Config.sha1Base k + 0xFF →
    p.access x =
      match portCycle { rst := false, access := some (x.toBlock k) } s with
      | .next t => .next { cores := p.cores.set k t }
      | .fault f => .fault f
      | .refused r => .refused r) ∧
  (∀ (p q : Platform) (x : PlatformAccess), p.numbered → p.access x = .next q →
    q.numbered ∧ ∃ k, p.select x.addr = some k ∧ ∀ j, j ≠ k → q.cores[j]? = p.cores[j]?) ∧
  (∀ (p : Platform) (x : PlatformAccess), p.numbered →
    (∀ k, k < p.cores.length → x.addr < Config.sha1Base k ∨ Config.sha1Base k + 0xFF < x.addr) →
    p.access x = .fault (.outsideWindow x.addr)) ∧
  Platform.reset.numbered ∧ Platform.reset.cores.length = Config.nCores ∧
  (∀ (p : Platform) (k : Nat) (s : State), p.cores[k]? = some s → p.resetAll.cores[k]? = some (applyReset s))
end

