-- ==== Sys2Proof/Laws/Encoding.lean ====
section
/-! SUPPORT. The fields of a command word as numbers, and that packing and extracting them are inverse. -/

namespace Sys2Proof

theorem append_toNat {m n : Nat} (x : BitVec m) (y : BitVec n) :
    (x ++ y).toNat = x.toNat * 2 ^ n + y.toNat := by
  rw [BitVec.toNat_append, ← Nat.shiftLeft_add_eq_or_of_lt y.isLt, Nat.shiftLeft_eq]

theorem packFields_toNat (f : CmdW) :
    (packFields f).toNat = f.rsv.toNat * 1024 + f.nb.toNat * 16 + f.opc.toNat := by
  have h : (packFields f).toNat = (f.rsv ++ f.nb ++ f.opc).toNat := rfl
  rw [h, append_toNat, append_toNat]
  omega

theorem fieldsOf_opc_toNat (v : Word) : (fieldsOf v).opc.toNat = v.toNat % 16 := by
  simp [fieldsOf]

theorem fieldsOf_nb_toNat (v : Word) : (fieldsOf v).nb.toNat = v.toNat / 16 % 64 := by
  simp [fieldsOf, Nat.shiftRight_eq_div_pow]

theorem fieldsOf_rsv_toNat (v : Word) : (fieldsOf v).rsv.toNat = v.toNat / 1024 := by
  have := v.isLt
  simp [fieldsOf, Nat.shiftRight_eq_div_pow]
  omega

theorem fieldsOf_packFields (f : CmdW) : fieldsOf (packFields f) = f := by
  have h := packFields_toNat f
  have h1 := f.rsv.isLt
  have h2 := f.nb.isLt
  have h3 := f.opc.isLt
  have e1 : (fieldsOf (packFields f)).opc = f.opc := by
    apply BitVec.eq_of_toNat_eq; rw [fieldsOf_opc_toNat, h]; omega
  have e2 : (fieldsOf (packFields f)).nb = f.nb := by
    apply BitVec.eq_of_toNat_eq; rw [fieldsOf_nb_toNat, h]; omega
  have e3 : (fieldsOf (packFields f)).rsv = f.rsv := by
    apply BitVec.eq_of_toNat_eq; rw [fieldsOf_rsv_toNat, h]; omega
  generalize fieldsOf (packFields f) = g at e1 e2 e3
  cases f; cases g
  simp only at e1 e2 e3
  rw [e1, e2, e3]

theorem packFields_fieldsOf (v : Word) : packFields (fieldsOf v) = v := by
  apply BitVec.eq_of_toNat_eq
  rw [packFields_toNat, fieldsOf_opc_toNat, fieldsOf_nb_toNat, fieldsOf_rsv_toNat]
  omega

theorem fieldsOf_encode (i : Instr) : fieldsOf (encode i) = { opc := i.opcode, nb := i.tailField, rsv := 0 } :=
  fieldsOf_packFields _

theorem noTail_eq_command_iff (j i : Instr) (nb : BitVec 6) : noTail j nb = .command i ↔ nb = 0 ∧ i = j := by
  unfold noTail; split
  · simp_all; exact eq_comm
  · simp_all

/-- The opcode map, read backwards (R84, R87). -/
theorem decodeOpcode_eq_command_iff (opc : BitVec 4) (nb : BitVec 6) (i : Instr) :
    decodeOpcode opc nb = .command i ↔ i.wellFormed = true ∧ opc = i.opcode ∧ nb = i.tailField := by
  have key : ∀ o : BitVec 4, o = 0 ∨ o = 1 ∨ o = 2 ∨ o = 3 ∨ o = 4 ∨ o = 5 ∨ 6 ≤ o.toNat := by decide
  have hn : ∀ n, n < 64 → (BitVec.ofNat 6 n).toNat = n := fun n h => by simp; omega
  have hnb := nb.isLt
  rcases key opc with rfl | rfl | rfl | rfl | rfl | rfl | h
  · cases i <;> simp [decodeOpcode, noTail_eq_command_iff, Instr.wellFormed, Instr.opcode, Instr.tailField]
  · cases i <;> simp [decodeOpcode, noTail_eq_command_iff, Instr.wellFormed, Instr.opcode, Instr.tailField]
  · cases i <;> simp [decodeOpcode, noTail_eq_command_iff, Instr.wellFormed, Instr.opcode, Instr.tailField]
  · cases i <;> simp [decodeOpcode, Instr.wellFormed, Instr.opcode, Instr.tailField, tailCountFits]
    rename_i n
    constructor
    · rintro rfl; simp [hnb]
    · rintro ⟨h, e⟩; rw [e]; exact hn _ h
  · cases i <;> simp [decodeOpcode, Instr.wellFormed, Instr.opcode, Instr.tailField, tailCountFits]
    rename_i n
    constructor
    · rintro rfl; simp [hnb]
    · rintro ⟨h, e⟩; rw [e]; exact hn _ h
  · cases i <;> simp [decodeOpcode, noTail_eq_command_iff, Instr.wellFormed, Instr.opcode, Instr.tailField]
  · have : decodeOpcode opc nb = .illegal .reservedOpcode := by
      unfold decodeOpcode
      split <;> first | omega | rfl
    rw [this]
    constructor
    · simp
    · rintro ⟨-, rfl, -⟩; revert h; cases i <;> simp [Instr.opcode]

end Sys2Proof
end

