-- ==== Sys2Proof/Laws/State.lean ====
section
/-! SUPPORT. One lemma per field per state update: what each named update of State writes, and what it leaves as it
was. Each is true by rfl; later proofs cite these and unfold no record update. -/

namespace Sys2Proof.Machine

section
/-! R221: an error record touches ERR and ERRCODE only. -/
variable (s : State)
@[simp] theorem recordError_h (c : ErrCode) : (recordError c s).h = s.h := rfl
@[simp] theorem recordError_len (c : ErrCode) : (recordError c s).len = s.len := rfl
@[simp] theorem recordError_m (c : ErrCode) : (recordError c s).m = s.m := rfl
@[simp] theorem recordError_pbuf (c : ErrCode) : (recordError c s).pbuf = s.pbuf := rfl
@[simp] theorem recordError_ovf (c : ErrCode) : (recordError c s).ovf = s.ovf := rfl
@[simp] theorem recordError_nblk (c : ErrCode) : (recordError c s).nblk = s.nblk := rfl
@[simp] theorem recordError_seq (c : ErrCode) : (recordError c s).seq = s.seq := rfl
@[simp] theorem recordError_round (c : ErrCode) : (recordError c s).round = s.round := rfl
@[simp] theorem recordError_port (c : ErrCode) : (recordError c s).port = s.port := rfl
@[simp] theorem recordError_readLog (c : ErrCode) : (recordError c s).readLog = s.readLog := rfl
@[simp] theorem recordError_trace (c : ErrCode) : (recordError c s).trace = s.trace := rfl
@[simp] theorem recordError_stream (c : ErrCode) : (recordError c s).stream = s.stream := rfl
@[simp] theorem recordError_draws (c : ErrCode) : (recordError c s).draws = s.draws := rfl
@[simp] theorem recordError_mWritten (c : ErrCode) : (recordError c s).mWritten = s.mWritten := rfl
@[simp] theorem recordError_hKnown (c : ErrCode) : (recordError c s).hKnown = s.hKnown := rfl
@[simp] theorem recordError_pbufKnown (c : ErrCode) : (recordError c s).pbufKnown = s.pbufKnown := rfl
end

section
/-! R188: CLRERR touches ERR, ERRCODE and OVF only. -/
variable (s : State)
@[simp] theorem clearErrors_h : (clearErrors s).h = s.h := rfl
@[simp] theorem clearErrors_len : (clearErrors s).len = s.len := rfl
@[simp] theorem clearErrors_m : (clearErrors s).m = s.m := rfl
@[simp] theorem clearErrors_pbuf : (clearErrors s).pbuf = s.pbuf := rfl
@[simp] theorem clearErrors_nblk : (clearErrors s).nblk = s.nblk := rfl
@[simp] theorem clearErrors_seq : (clearErrors s).seq = s.seq := rfl
@[simp] theorem clearErrors_round : (clearErrors s).round = s.round := rfl
@[simp] theorem clearErrors_port : (clearErrors s).port = s.port := rfl
@[simp] theorem clearErrors_readLog : (clearErrors s).readLog = s.readLog := rfl
@[simp] theorem clearErrors_trace : (clearErrors s).trace = s.trace := rfl
@[simp] theorem clearErrors_stream : (clearErrors s).stream = s.stream := rfl
@[simp] theorem clearErrors_draws : (clearErrors s).draws = s.draws := rfl
@[simp] theorem clearErrors_mWritten : (clearErrors s).mWritten = s.mWritten := rfl
@[simp] theorem clearErrors_hKnown : (clearErrors s).hKnown = s.hKnown := rfl
@[simp] theorem clearErrors_pbufKnown : (clearErrors s).pbufKnown = s.pbufKnown := rfl
end

section
/-! R30: an issue touches the sequencer only. -/
variable (s : State)
@[simp] theorem issue_h (op : EngineOp) (n : BitVec 6) (l : Nat) : (issue op n l s).h = s.h := rfl
@[simp] theorem issue_len (op : EngineOp) (n : BitVec 6) (l : Nat) : (issue op n l s).len = s.len := rfl
@[simp] theorem issue_m (op : EngineOp) (n : BitVec 6) (l : Nat) : (issue op n l s).m = s.m := rfl
@[simp] theorem issue_pbuf (op : EngineOp) (n : BitVec 6) (l : Nat) : (issue op n l s).pbuf = s.pbuf := rfl
@[simp] theorem issue_err (op : EngineOp) (n : BitVec 6) (l : Nat) : (issue op n l s).err = s.err := rfl
@[simp] theorem issue_ovf (op : EngineOp) (n : BitVec 6) (l : Nat) : (issue op n l s).ovf = s.ovf := rfl
@[simp] theorem issue_nblk (op : EngineOp) (n : BitVec 6) (l : Nat) : (issue op n l s).nblk = s.nblk := rfl
@[simp] theorem issue_errcode (op : EngineOp) (n : BitVec 6) (l : Nat) : (issue op n l s).errcode = s.errcode := rfl
@[simp] theorem issue_round (op : EngineOp) (n : BitVec 6) (l : Nat) : (issue op n l s).round = s.round := rfl
@[simp] theorem issue_port (op : EngineOp) (n : BitVec 6) (l : Nat) : (issue op n l s).port = s.port := rfl
@[simp] theorem issue_readLog (op : EngineOp) (n : BitVec 6) (l : Nat) : (issue op n l s).readLog = s.readLog := rfl
@[simp] theorem issue_trace (op : EngineOp) (n : BitVec 6) (l : Nat) : (issue op n l s).trace = s.trace := rfl
@[simp] theorem issue_stream (op : EngineOp) (n : BitVec 6) (l : Nat) : (issue op n l s).stream = s.stream := rfl
@[simp] theorem issue_draws (op : EngineOp) (n : BitVec 6) (l : Nat) : (issue op n l s).draws = s.draws := rfl
@[simp] theorem issue_mWritten (op : EngineOp) (n : BitVec 6) (l : Nat) : (issue op n l s).mWritten = s.mWritten := rfl
@[simp] theorem issue_hKnown (op : EngineOp) (n : BitVec 6) (l : Nat) : (issue op n l s).hKnown = s.hKnown := rfl
@[simp] theorem issue_pbufKnown (op : EngineOp) (n : BitVec 6) (l : Nat) : (issue op n l s).pbufKnown = s.pbufKnown := rfl
end

section
/-! R53: a read touches the observations and the count of free values only. -/
variable (s : State) (off : BitVec 8)
@[simp] theorem hostRead_h : (hostRead off s).h = s.h := rfl
@[simp] theorem hostRead_len : (hostRead off s).len = s.len := rfl
@[simp] theorem hostRead_m : (hostRead off s).m = s.m := rfl
@[simp] theorem hostRead_pbuf : (hostRead off s).pbuf = s.pbuf := rfl
@[simp] theorem hostRead_err : (hostRead off s).err = s.err := rfl
@[simp] theorem hostRead_ovf : (hostRead off s).ovf = s.ovf := rfl
@[simp] theorem hostRead_nblk : (hostRead off s).nblk = s.nblk := rfl
@[simp] theorem hostRead_errcode : (hostRead off s).errcode = s.errcode := rfl
@[simp] theorem hostRead_seq : (hostRead off s).seq = s.seq := rfl
@[simp] theorem hostRead_round : (hostRead off s).round = s.round := rfl
@[simp] theorem hostRead_port : (hostRead off s).port = s.port := rfl
@[simp] theorem hostRead_trace : (hostRead off s).trace = s.trace := rfl
@[simp] theorem hostRead_stream : (hostRead off s).stream = s.stream := rfl
@[simp] theorem hostRead_mWritten : (hostRead off s).mWritten = s.mWritten := rfl
@[simp] theorem hostRead_hKnown : (hostRead off s).hKnown = s.hKnown := rfl
@[simp] theorem hostRead_pbufKnown : (hostRead off s).pbufKnown = s.pbufKnown := rfl
end

section
/-! R185: INIT touches H, what is known of it, and LEN only. -/
variable (s : State)
@[simp] theorem loadIv_m : (loadIv s).m = s.m := rfl
@[simp] theorem loadIv_pbuf : (loadIv s).pbuf = s.pbuf := rfl
@[simp] theorem loadIv_err : (loadIv s).err = s.err := rfl
@[simp] theorem loadIv_ovf : (loadIv s).ovf = s.ovf := rfl
@[simp] theorem loadIv_nblk : (loadIv s).nblk = s.nblk := rfl
@[simp] theorem loadIv_errcode : (loadIv s).errcode = s.errcode := rfl
@[simp] theorem loadIv_seq : (loadIv s).seq = s.seq := rfl
@[simp] theorem loadIv_round : (loadIv s).round = s.round := rfl
@[simp] theorem loadIv_port : (loadIv s).port = s.port := rfl
@[simp] theorem loadIv_readLog : (loadIv s).readLog = s.readLog := rfl
@[simp] theorem loadIv_trace : (loadIv s).trace = s.trace := rfl
@[simp] theorem loadIv_stream : (loadIv s).stream = s.stream := rfl
@[simp] theorem loadIv_draws : (loadIv s).draws = s.draws := rfl
@[simp] theorem loadIv_mWritten : (loadIv s).mWritten = s.mWritten := rfl
@[simp] theorem loadIv_pbufKnown : (loadIv s).pbufKnown = s.pbufKnown := rfl
end

section
/-! R114, R186: padding writes PBUF, NBLK and OVF only, and draws free values. -/
variable (s : State)
@[simp] theorem writePaddedTail_h (p : Pending) : (writePaddedTail p s).h = s.h := rfl
@[simp] theorem writePaddedTail_len (p : Pending) : (writePaddedTail p s).len = s.len := rfl
@[simp] theorem writePaddedTail_m (p : Pending) : (writePaddedTail p s).m = s.m := rfl
@[simp] theorem writePaddedTail_err (p : Pending) : (writePaddedTail p s).err = s.err := rfl
@[simp] theorem writePaddedTail_errcode (p : Pending) : (writePaddedTail p s).errcode = s.errcode := rfl
@[simp] theorem writePaddedTail_seq (p : Pending) : (writePaddedTail p s).seq = s.seq := rfl
@[simp] theorem writePaddedTail_round (p : Pending) : (writePaddedTail p s).round = s.round := rfl
@[simp] theorem writePaddedTail_port (p : Pending) : (writePaddedTail p s).port = s.port := rfl
@[simp] theorem writePaddedTail_readLog (p : Pending) : (writePaddedTail p s).readLog = s.readLog := rfl
@[simp] theorem writePaddedTail_trace (p : Pending) : (writePaddedTail p s).trace = s.trace := rfl
@[simp] theorem writePaddedTail_stream (p : Pending) : (writePaddedTail p s).stream = s.stream := rfl
@[simp] theorem writePaddedTail_mWritten (p : Pending) : (writePaddedTail p s).mWritten = s.mWritten := rfl
@[simp] theorem writePaddedTail_hKnown (p : Pending) : (writePaddedTail p s).hKnown = s.hKnown := rfl
end

section
/-! R54: a host write to M touches M only, and what is known to be written. -/
variable (s : State) (i : Fin 16) (v : Word)
@[simp] theorem writeMWord_h : (writeMWord i v s).h = s.h := rfl
@[simp] theorem writeMWord_len : (writeMWord i v s).len = s.len := rfl
@[simp] theorem writeMWord_pbuf : (writeMWord i v s).pbuf = s.pbuf := rfl
@[simp] theorem writeMWord_err : (writeMWord i v s).err = s.err := rfl
@[simp] theorem writeMWord_ovf : (writeMWord i v s).ovf = s.ovf := rfl
@[simp] theorem writeMWord_nblk : (writeMWord i v s).nblk = s.nblk := rfl
@[simp] theorem writeMWord_errcode : (writeMWord i v s).errcode = s.errcode := rfl
@[simp] theorem writeMWord_seq : (writeMWord i v s).seq = s.seq := rfl
@[simp] theorem writeMWord_round : (writeMWord i v s).round = s.round := rfl
@[simp] theorem writeMWord_port : (writeMWord i v s).port = s.port := rfl
@[simp] theorem writeMWord_readLog : (writeMWord i v s).readLog = s.readLog := rfl
@[simp] theorem writeMWord_trace : (writeMWord i v s).trace = s.trace := rfl
@[simp] theorem writeMWord_stream : (writeMWord i v s).stream = s.stream := rfl
@[simp] theorem writeMWord_draws : (writeMWord i v s).draws = s.draws := rfl
@[simp] theorem writeMWord_hKnown : (writeMWord i v s).hKnown = s.hKnown := rfl
@[simp] theorem writeMWord_pbufKnown : (writeMWord i v s).pbufKnown = s.pbufKnown := rfl
end

section
/-! R54: a host write to H touches H only, and what is known of it. -/
variable (s : State) (i : Fin 5) (v : Word)
@[simp] theorem writeHWord_len : (writeHWord i v s).len = s.len := rfl
@[simp] theorem writeHWord_m : (writeHWord i v s).m = s.m := rfl
@[simp] theorem writeHWord_pbuf : (writeHWord i v s).pbuf = s.pbuf := rfl
@[simp] theorem writeHWord_err : (writeHWord i v s).err = s.err := rfl
@[simp] theorem writeHWord_ovf : (writeHWord i v s).ovf = s.ovf := rfl
@[simp] theorem writeHWord_nblk : (writeHWord i v s).nblk = s.nblk := rfl
@[simp] theorem writeHWord_errcode : (writeHWord i v s).errcode = s.errcode := rfl
@[simp] theorem writeHWord_seq : (writeHWord i v s).seq = s.seq := rfl
@[simp] theorem writeHWord_round : (writeHWord i v s).round = s.round := rfl
@[simp] theorem writeHWord_port : (writeHWord i v s).port = s.port := rfl
@[simp] theorem writeHWord_readLog : (writeHWord i v s).readLog = s.readLog := rfl
@[simp] theorem writeHWord_trace : (writeHWord i v s).trace = s.trace := rfl
@[simp] theorem writeHWord_stream : (writeHWord i v s).stream = s.stream := rfl
@[simp] theorem writeHWord_draws : (writeHWord i v s).draws = s.draws := rfl
@[simp] theorem writeHWord_mWritten : (writeHWord i v s).mWritten = s.mWritten := rfl
@[simp] theorem writeHWord_pbufKnown : (writeHWord i v s).pbufKnown = s.pbufKnown := rfl
end

section
/-! R114: what PAD leaves unchanged. -/
variable (s : State)
@[simp] theorem completePad_h (p : Pending) : (completePad p s).h = s.h := rfl
@[simp] theorem completePad_len (p : Pending) : (completePad p s).len = s.len := rfl
@[simp] theorem completePad_m (p : Pending) : (completePad p s).m = s.m := rfl
@[simp] theorem completePad_err (p : Pending) : (completePad p s).err = s.err := rfl
@[simp] theorem completePad_errcode (p : Pending) : (completePad p s).errcode = s.errcode := rfl
@[simp] theorem completePad_round (p : Pending) : (completePad p s).round = s.round := rfl
@[simp] theorem completePad_port (p : Pending) : (completePad p s).port = s.port := rfl
@[simp] theorem completePad_readLog (p : Pending) : (completePad p s).readLog = s.readLog := rfl
@[simp] theorem completePad_trace (p : Pending) : (completePad p s).trace = s.trace := rfl
@[simp] theorem completePad_stream (p : Pending) : (completePad p s).stream = s.stream := rfl
@[simp] theorem completePad_mWritten (p : Pending) : (completePad p s).mWritten = s.mWritten := rfl
@[simp] theorem completePad_hKnown (p : Pending) : (completePad p s).hKnown = s.hKnown := rfl
end

section
/-! R159: what COMPRESS leaves unchanged. -/
variable (s : State)
@[simp] theorem completeCompress_m (p : Pending) : (completeCompress p s).m = s.m := rfl
@[simp] theorem completeCompress_pbuf (p : Pending) : (completeCompress p s).pbuf = s.pbuf := rfl
@[simp] theorem completeCompress_err (p : Pending) : (completeCompress p s).err = s.err := rfl
@[simp] theorem completeCompress_nblk (p : Pending) : (completeCompress p s).nblk = s.nblk := rfl
@[simp] theorem completeCompress_errcode (p : Pending) : (completeCompress p s).errcode = s.errcode := rfl
@[simp] theorem completeCompress_port (p : Pending) : (completeCompress p s).port = s.port := rfl
@[simp] theorem completeCompress_readLog (p : Pending) : (completeCompress p s).readLog = s.readLog := rfl
@[simp] theorem completeCompress_stream (p : Pending) : (completeCompress p s).stream = s.stream := rfl
@[simp] theorem completeCompress_mWritten (p : Pending) : (completeCompress p s).mWritten = s.mWritten := rfl
@[simp] theorem completeCompress_pbufKnown (p : Pending) : (completeCompress p s).pbufKnown = s.pbufKnown := rfl
end

section
/-! R186: what FINAL leaves unchanged. -/
variable (s : State)
@[simp] theorem completeFinal_m (p : Pending) : (completeFinal p s).m = s.m := rfl
@[simp] theorem completeFinal_err (p : Pending) : (completeFinal p s).err = s.err := rfl
@[simp] theorem completeFinal_errcode (p : Pending) : (completeFinal p s).errcode = s.errcode := rfl
@[simp] theorem completeFinal_port (p : Pending) : (completeFinal p s).port = s.port := rfl
@[simp] theorem completeFinal_readLog (p : Pending) : (completeFinal p s).readLog = s.readLog := rfl
@[simp] theorem completeFinal_stream (p : Pending) : (completeFinal p s).stream = s.stream := rfl
@[simp] theorem completeFinal_mWritten (p : Pending) : (completeFinal p s).mWritten = s.mWritten := rfl
end

/-! What each update writes. -/

@[simp] theorem recordError_err (c : ErrCode) (s : State) : (recordError c s).err = true := rfl
@[simp] theorem recordError_errcode (c : ErrCode) (s : State) :
    (recordError c s).errcode = if s.err then s.errcode else c := rfl
@[simp] theorem clearErrors_err (s : State) : (clearErrors s).err = false := rfl
@[simp] theorem clearErrors_errcode (s : State) : (clearErrors s).errcode = .none := rfl
@[simp] theorem clearErrors_ovf (s : State) : (clearErrors s).ovf = false := rfl
@[simp] theorem issue_seq (op : EngineOp) (n : BitVec 6) (l : Nat) (s : State) :
    (issue op n l s).seq =
      .busy { op := op, n := n, hIn := s.h, lenIn := s.len, mIn := s.m, remaining := l } := rfl
@[simp] theorem hostRead_readLog (off : BitVec 8) (s : State) :
    (hostRead off s).readLog = { off := off, value := readOffset off s } :: s.readLog := rfl
@[simp] theorem hostRead_draws (off : BitVec 8) (s : State) : (hostRead off s).draws = s.draws + 1 := rfl
@[simp] theorem loadIv_h (s : State) : (loadIv s).h = Config.iv := rfl
@[simp] theorem loadIv_len (s : State) : (loadIv s).len = 0 := rfl
@[simp] theorem loadIv_hKnown (s : State) : (loadIv s).hKnown = tabulate 5 fun _ => true := rfl
@[simp] theorem writeHWord_h (i : Fin 5) (v : Word) (s : State) :
    (writeHWord i v s).h = CV.withWord s.h i v := rfl
@[simp] theorem writeHWord_hKnown (i : Fin 5) (v : Word) (s : State) :
    (writeHWord i v s).hKnown = s.hKnown.set i true := rfl
@[simp] theorem writePaddedTail_pbuf (p : Pending) (s : State) :
    (writePaddedTail p s).pbuf = s.padded (tailWords p.n.toNat) (pbufOfBytes (paddedTail p).2) := rfl
@[simp] theorem writePaddedTail_pbufKnown (p : Pending) (s : State) :
    (writePaddedTail p s).pbufKnown = s.wroteM (tailWords p.n.toNat) := rfl
@[simp] theorem writePaddedTail_nblk (p : Pending) (s : State) :
    (writePaddedTail p s).nblk = (paddedTail p).1 := rfl
@[simp] theorem writePaddedTail_ovf (p : Pending) (s : State) :
    (writePaddedTail p s).ovf = noteCarry s.ovf p.lenIn (tailBits p.n) := rfl
@[simp] theorem completePad_pbuf (p : Pending) (s : State) :
    (completePad p s).pbuf = s.padded (tailWords p.n.toNat) (pbufOfBytes (paddedTail p).2) := rfl
@[simp] theorem completePad_pbufKnown (p : Pending) (s : State) :
    (completePad p s).pbufKnown = s.wroteM (tailWords p.n.toNat) := rfl
@[simp] theorem completePad_nblk (p : Pending) (s : State) : (completePad p s).nblk = (paddedTail p).1 := rfl
@[simp] theorem completePad_ovf (p : Pending) (s : State) :
    (completePad p s).ovf = noteCarry s.ovf p.lenIn (tailBits p.n) := rfl
@[simp] theorem completePad_seq (p : Pending) (s : State) : (completePad p s).seq = .idle := rfl
@[simp] theorem completeCompress_h (p : Pending) (s : State) :
    (completeCompress p s).h = s.absorbed 16 (compress p.hIn p.mIn) := rfl
@[simp] theorem completeCompress_hKnown (p : Pending) (s : State) :
    (completeCompress p s).hKnown = tabulate 5 fun _ => s.hashKnown 16 := rfl
@[simp] theorem completeCompress_len (p : Pending) (s : State) : (completeCompress p s).len = p.lenIn + 512 := rfl
@[simp] theorem completeCompress_ovf (p : Pending) (s : State) :
    (completeCompress p s).ovf = noteCarry s.ovf p.lenIn 512 := rfl
@[simp] theorem completeCompress_seq (p : Pending) (s : State) : (completeCompress p s).seq = .idle := rfl
@[simp] theorem completeCompress_round (p : Pending) (s : State) :
    (completeCompress p s).round = engineBlock 0 p.hIn p.mIn s.round := rfl
@[simp] theorem completeFinal_h (p : Pending) (s : State) :
    (completeFinal p s).h =
      s.absorbed (tailWords p.n.toNat)
        (absorbPbuf (s.padded (tailWords p.n.toNat) (pbufOfBytes (paddedTail p).2)) (paddedTail p).1 p.hIn) := rfl
@[simp] theorem completeFinal_hKnown (p : Pending) (s : State) :
    (completeFinal p s).hKnown = tabulate 5 fun _ => s.hashKnown (tailWords p.n.toNat) := rfl
@[simp] theorem completeFinal_len (p : Pending) (s : State) : (completeFinal p s).len = tailLength p := rfl
@[simp] theorem completeFinal_pbuf (p : Pending) (s : State) :
    (completeFinal p s).pbuf = s.padded (tailWords p.n.toNat) (pbufOfBytes (paddedTail p).2) := rfl
@[simp] theorem completeFinal_pbufKnown (p : Pending) (s : State) :
    (completeFinal p s).pbufKnown = s.wroteM (tailWords p.n.toNat) := rfl
@[simp] theorem completeFinal_nblk (p : Pending) (s : State) : (completeFinal p s).nblk = (paddedTail p).1 := rfl
@[simp] theorem completeFinal_ovf (p : Pending) (s : State) :
    (completeFinal p s).ovf = noteCarry s.ovf p.lenIn (tailBits p.n) := rfl
@[simp] theorem completeFinal_seq (p : Pending) (s : State) : (completeFinal p s).seq = .idle := rfl
@[simp] theorem writePaddedTail_draws (p : Pending) (s : State) :
    (writePaddedTail p s).draws = s.draws + completionDraws := rfl
@[simp] theorem completePad_draws (p : Pending) (s : State) :
    (completePad p s).draws = s.draws + completionDraws := rfl
@[simp] theorem completeCompress_draws (p : Pending) (s : State) :
    (completeCompress p s).draws = s.draws + completionDraws := rfl
@[simp] theorem completeFinal_draws (p : Pending) (s : State) :
    (completeFinal p s).draws = s.draws + completionDraws := rfl
@[simp] theorem writeMWord_m (i : Fin 16) (v : Word) (s : State) : (writeMWord i v s).m = s.m.set i v := rfl
@[simp] theorem writeMWord_mWritten (i : Fin 16) (v : Word) (s : State) :
    (writeMWord i v s).mWritten = s.mWritten.set i true := rfl

/-! What reset leaves (R250). -/

@[simp] theorem applyReset_h (s : State) : (applyReset s).h = Config.iv := rfl
@[simp] theorem applyReset_len (s : State) : (applyReset s).len = 0 := rfl
@[simp] theorem applyReset_err (s : State) : (applyReset s).err = false := rfl
@[simp] theorem applyReset_ovf (s : State) : (applyReset s).ovf = false := rfl
@[simp] theorem applyReset_nblk (s : State) : (applyReset s).nblk = 0 := rfl
@[simp] theorem applyReset_errcode (s : State) : (applyReset s).errcode = .none := rfl
@[simp] theorem applyReset_seq (s : State) : (applyReset s).seq = .idle := rfl
@[simp] theorem applyReset_port (s : State) : (applyReset s).port = s.port := rfl
@[simp] theorem applyReset_readLog (s : State) : (applyReset s).readLog = s.readLog := rfl
@[simp] theorem applyReset_trace (s : State) : (applyReset s).trace = s.trace := rfl
@[simp] theorem applyReset_stream (s : State) : (applyReset s).stream = s.stream := rfl
@[simp] theorem applyReset_draws (s : State) : (applyReset s).draws = s.draws + resetDraws := rfl
@[simp] theorem applyReset_mWritten (s : State) : (applyReset s).mWritten = tabulate 16 fun _ => false := rfl
@[simp] theorem applyReset_hKnown (s : State) : (applyReset s).hKnown = tabulate 5 fun _ => true := rfl
@[simp] theorem applyReset_pbufKnown (s : State) : (applyReset s).pbufKnown = false := rfl

/-! STATUS.BUSY is the sequencer's (R30). -/

theorem busy_eq_true_iff (s : State) : s.busy = true ↔ ∃ p, s.seq = .busy p := by
  cases h : s.seq <;> simp [State.busy, h]

theorem busy_eq_false_iff (s : State) : s.busy = false ↔ s.seq = .idle := by
  cases h : s.seq <;> simp [State.busy, h]

theorem busy_congr {s t : State} (h : s.seq = t.seq) : s.busy = t.busy := by
  simp [State.busy, h]

@[simp] theorem recordError_busy (c : ErrCode) (s : State) : (recordError c s).busy = s.busy := rfl
@[simp] theorem clearErrors_busy (s : State) : (clearErrors s).busy = s.busy := rfl
@[simp] theorem issue_busy (op : EngineOp) (n : BitVec 6) (l : Nat) (s : State) : (issue op n l s).busy = true := rfl
@[simp] theorem writeMWord_busy (i : Fin 16) (v : Word) (s : State) : (writeMWord i v s).busy = s.busy := rfl
@[simp] theorem writeHWord_busy (i : Fin 5) (v : Word) (s : State) : (writeHWord i v s).busy = s.busy := rfl
@[simp] theorem loadIv_busy (s : State) : (loadIv s).busy = s.busy := rfl
@[simp] theorem hostRead_busy (off : BitVec 8) (s : State) : (hostRead off s).busy = s.busy := rfl
@[simp] theorem applyReset_busy (s : State) : (applyReset s).busy = false := rfl

end Sys2Proof.Machine
end

