-- ==== Sys2Proof/Laws/Ops.lean ====
section
/-! SUPPORT. What each shared operation can do, said once: arrays, the register map, reads and writes, the issue of a
command. Provers cite these and do not unfold the operations. -/

namespace Sys2Proof

@[simp] theorem getElem_tabulate {α : Type} (n : Nat) (f : Nat → α) (i : Nat) (h : i < n) :
    (tabulate n f)[i] = f i := by
  simp [tabulate]

@[simp] theorem toList_tabulate {α : Type} (n : Nat) (f : Nat → α) :
    (tabulate n f).toList = (List.range n).map f := by
  simp [tabulate, Vector.toList]

theorem getElem?_tabulate {α : Type} (n : Nat) (f : Nat → α) (i : Nat) (h : i < n) :
    (tabulate n f)[i]? = some (f i) := by
  simp [h]

namespace Machine

/-! The gate every command passes (R222). -/

theorem whenIdle_of_busy {s : State} (h : s.busy = true) (f : State → Host.Outcome State Fault Refusal) :
    whenIdle s f = .next (recordError .cmdBusy s) := by
  simp [whenIdle, h]

theorem whenIdle_of_idle {s : State} (h : s.busy = false) (f : State → Host.Outcome State Fault Refusal) :
    whenIdle s f = f s := by
  simp [whenIdle, h]

/-- What a command can do at the write that issues it (R85, R222): it is dropped, or it is one of the three without
latency, or it is issued. -/
theorem exec_next_cases {i : Instr} {s t : State} (h : exec i s = .next t) :
    (s.busy = true ∧ t = recordError .cmdBusy s) ∨
    (s.busy = false ∧
      ((i = .nop ∧ t = s) ∨ (i = .init ∧ t = loadIv s) ∨
       (i = .clrerr ∧ t = clearErrors s) ∨
       (i = .compress ∧ t = issue .compress 0 (latencyOf .compress 0) s) ∨
       (∃ n, i = .pad n ∧ t = issue .pad (BitVec.ofNat 6 n) (latencyOf .pad (BitVec.ofNat 6 n).toNat) s) ∨
       (∃ n, i = .final n ∧
          t = issue .final (BitVec.ofNat 6 n) (latencyOf .final (BitVec.ofNat 6 n).toNat) s))) := by
  cases hb : s.busy with
  | true =>
    left
    cases i <;>
      simp only [exec, execNop, execInit, execCompress, execPad, execFinal, execClrerr, whenIdle_of_busy hb] at h <;>
      cases h <;> simp
  | false =>
    right
    cases i <;>
      simp only [exec, execNop, execInit, execCompress, execPad, execFinal, execClrerr, whenIdle_of_idle hb] at h <;>
      cases h <;> simp [latencyOf]

/-! The register map (R51, R52). -/

/-- Every register is found at its offset. -/
theorem regAt_offset (r : Reg) : regAt r.offset = some r := by
  cases r with
  | id => decide
  | cmd => decide
  | status => decide
  | h i => revert i; decide
  | lenHi => decide
  | lenLo => decide
  | m i => revert i; decide
  | pbuf j => revert j; decide

/-- A register of the window is at its own offset, up to the two address bits the port ignores. -/
theorem offset_of_regAt {off : BitVec 8} {r : Reg} (h : regAt off = some r) :
    r.offset = off &&& 0xFC := by
  revert off
  suffices H : ∀ off : BitVec 8, (regAt off).all (fun r => r.offset = off &&& 0xFC) = true by
    intro off h
    have := H off
    simpa [h] using this
  decide

/-! Reads (R14, R53, R56). -/

theorem valueIf_of_known (s : State) (v : Word) : s.valueIf true v = v := rfl

theorem valueIf_of_unknown (s : State) (v : Word) : s.valueIf false v = Config.freeWord s.stream s.draws := rfl

/-! Writes to data registers (R54, R55). -/

theorem writeUnlessBusy_of_idle {s : State} (h : s.busy = false) (w : State → State) :
    writeUnlessBusy w s = w s := by
  simp [writeUnlessBusy, h]

theorem writeUnlessBusy_of_busy {s : State} (h : s.busy = true) (w : State → State) :
    writeUnlessBusy w s = recordError .wrBusy s := by
  simp [writeUnlessBusy, h]

/-- Everything a host write to a register other than CMD can do. -/
theorem writeReg_cases (r : Reg) (v : Word) (s : State) :
    writeReg r v s = s ∨
    (s.busy = true ∧ writeReg r v s = recordError .wrBusy s) ∨
    (s.busy = false ∧
      ((∃ i, r = .h i ∧ writeReg r v s = writeHWord i v s) ∨
       (∃ l, (r = .lenHi ∨ r = .lenLo) ∧ writeReg r v s = { s with len := l }) ∨
       (∃ i, r = .m i ∧ writeReg r v s = writeMWord i v s))) := by
  cases hb : s.busy <;> cases r <;>
    simp [writeReg, writeUnlessBusy_of_idle, writeUnlessBusy_of_busy, hb]

/-! What a completing command consumes of M (R108, R159). -/

theorem wroteM_eq_true_iff (s : State) (k : Nat) :
    s.wroteM k = true ↔ ∀ i : Fin 16, i.val < k → s.mWritten[i] = true := by
  simp only [State.wroteM, List.all_eq_true, List.mem_take_iff_getElem, Vector.length_toList, Vector.getElem_toList,
    id_eq]
  exact ⟨fun h i hi => h _ ⟨i.val, by omega, rfl⟩, fun h x ⟨i, hi, hx⟩ => hx ▸ h ⟨i, by omega⟩ (by simpa using by omega)⟩

theorem wroteM_congr {s t : State} (h : s.mWritten = t.mWritten) (k : Nat) : s.wroteM k = t.wroteM k := by
  simp [State.wroteM, h]

theorem wroteM_mono {s : State} {j k : Nat} (h : j ≤ k) (hk : s.wroteM k = true) : s.wroteM j = true :=
  (wroteM_eq_true_iff s j).mpr fun i hi => (wroteM_eq_true_iff s k).mp hk i (by omega)

/-- No command has to have any word of M written to consume none. -/
@[simp] theorem wroteM_zero (s : State) : s.wroteM 0 = true := by
  simp [wroteM_eq_true_iff]

theorem knowsH_eq_true_iff (s : State) : s.knowsH = true ↔ ∀ i : Fin 5, s.hKnown[i] = true := by
  simp only [State.knowsH, List.all_eq_true, List.mem_iff_getElem, Vector.length_toList, Vector.getElem_toList, id_eq]
  exact ⟨fun h i => h _ ⟨i.val, i.isLt, rfl⟩, fun h x ⟨i, hi, hx⟩ => hx ▸ h ⟨i, hi⟩⟩

theorem knowsH_congr {s t : State} (h : s.hKnown = t.hKnown) : s.knowsH = t.knowsH := by
  simp [State.knowsH, h]

theorem hashKnown_eq_true_iff (s : State) (k : Nat) :
    s.hashKnown k = true ↔ s.knowsH = true ∧ s.wroteM k = true := by
  simp [State.hashKnown]

theorem hashKnown_congr {s t : State} (hh : s.hKnown = t.hKnown) (hm : s.mWritten = t.mWritten) (k : Nat) :
    s.hashKnown k = t.hashKnown k := by
  simp [State.hashKnown, knowsH_congr hh, wroteM_congr hm]

theorem absorbed_of_known {s : State} {k : Nat} (h : s.hashKnown k = true) (x : CV) : s.absorbed k x = x := by
  simp [State.absorbed, h]

theorem absorbed_of_unknown {s : State} {k : Nat} (h : s.hashKnown k = false) (x : CV) :
    s.absorbed k x = freeCV s.stream s.draws := by
  simp [State.absorbed, h]

theorem padded_of_wrote {s : State} {k : Nat} (h : s.wroteM k = true) (x : Vector Word 32) : s.padded k x = x := by
  simp [State.padded, h]

theorem padded_of_unwritten {s : State} {k : Nat} (h : s.wroteM k = false) (x : Vector Word 32) :
    s.padded k x = freePbuf s.stream (s.draws + 5) := by
  simp [State.padded, h]

@[simp] theorem word_withWord (h : CV) (i j : Fin 5) (v : Word) :
    CV.word (CV.withWord h i v) j = if j = i then v else CV.word h j := by
  fin_cases i <;> fin_cases j <;> rfl

/-- Two chaining values with the same five words are equal. -/
theorem CV.ext_word {x y : CV} (h : ∀ i, CV.word x i = CV.word y i) : x = y := by
  have h0 := h 0
  have h1 := h 1
  have h2 := h 2
  have h3 := h 3
  have h4 := h 4
  cases x; cases y
  simp_all [CV.word]

/-! The halves of LEN (R22, R60). -/

@[simp] theorem hiWord_append (x y : Word) : hiWord (x ++ y) = x := BitVec.extractLsb'_append_eq_left

@[simp] theorem loWord_append (x y : Word) : loWord (x ++ y) = y := BitVec.extractLsb'_append_eq_right

@[simp] theorem hiWord_append_loWord (l : Dword) : hiWord l ++ loWord l = l := by
  rw [hiWord, loWord, BitVec.extractLsb'_append_extractLsb'_eq_extractLsb' (by rfl)]
  simp

end Machine
end Sys2Proof
end

