-- ==== Sys2Proof/Laws/Padder.lean ====
section
/-! SUPPORT. Bits, bytes and words (spec 40_padder_parser.md R100, R105; 20_memory.md R57): lengths, and how the words of
a byte sequence depend on its bytes. -/

namespace Sys2Proof.Machine

/-! Lengths. -/

theorem length_byteBits (b : Byte) : (byteBits b).length = 8 := by simp [byteBits]

theorem length_bitsOfBytes (m : List Byte) : (bitsOfBytes m).length = 8 * m.length := by
  induction m with
  | nil => rfl
  | cons b m ih =>
    simp only [bitsOfBytes, List.flatMap_cons, List.length_append, length_byteBits, List.length_cons] at *
    omega

theorem length_be64 (l : Dword) : (be64 l).length = 8 := by simp [be64]

theorem length_tailBytes (b : Block) (n : Nat) : (tailBytes b n).length = n := by simp [tailBytes]

theorem length_padTail (t : List Byte) (n : Nat) (l : Dword) (ht : t.length = n) (hn : n < 64) :
    (padTail t n l).2.length = 64 * (padTail t n l).1.val := by
  simp only [padTail, tailBlockCount, List.length_append, List.length_replicate, length_be64, ht]
  split <;> simp <;> omega

theorem paddedTail_length (p : Pending) : (paddedTail p).2.length = 64 * (paddedTail p).1.val :=
  length_padTail _ _ _ (length_tailBytes _ _) p.n.isLt

theorem paddedTail_nblk (p : Pending) : (paddedTail p).1 = tailBlockCount p.n.toNat := rfl

theorem length_padSuffix (l : Nat) : (padSuffix l).length = padZeroBytes l + 9 := by
  simp [padSuffix, length_be64]

/-! Bits of bytes. -/

theorem bitsOfBytes_append (x y : List Byte) : bitsOfBytes (x ++ y) = bitsOfBytes x ++ bitsOfBytes y := by
  simp [bitsOfBytes]

theorem bitsOfBytes_replicate_zero (k : Nat) : bitsOfBytes (List.replicate k 0) = List.replicate (8 * k) false := by
  induction k with
  | zero => rfl
  | succ k ih =>
    rw [List.replicate_succ,
      show bitsOfBytes ((0 : Byte) :: List.replicate k 0) = byteBits 0 ++ bitsOfBytes (List.replicate k 0) from rfl, ih]
    rw [show byteBits 0 = List.replicate 8 false by decide, List.replicate_append_replicate]
    congr 1; omega

theorem take_drop_bitsOfBytes (b : List Byte) (i k : Nat) :
    ((bitsOfBytes b).drop (8 * i)).take (8 * k) = bitsOfBytes ((b.drop i).take k) := by
  have hd : ∀ (b : List Byte) (i : Nat), (bitsOfBytes b).drop (8 * i) = bitsOfBytes (b.drop i) := by
    intro b
    induction b with
    | nil => intro i; simp [bitsOfBytes]
    | cons x b ih =>
      intro i
      cases i with
      | zero => simp
      | succ i =>
        rw [show bitsOfBytes (x :: b) = byteBits x ++ bitsOfBytes b from rfl,
          show 8 * (i + 1) = 8 * i + 8 by omega, Nat.add_comm, ← List.drop_drop,
          show List.drop 8 (byteBits x ++ bitsOfBytes b) = bitsOfBytes b from by
            rw [List.drop_append_of_le_length (by rw [length_byteBits]),
                List.drop_of_length_le (by rw [length_byteBits]), List.nil_append], ih]
        rfl
  have ht : ∀ (b : List Byte) (i : Nat), (bitsOfBytes b).take (8 * i) = bitsOfBytes (b.take i) := by
    intro b
    induction b with
    | nil => intro i; simp [bitsOfBytes]
    | cons x b ih =>
      intro i
      cases i with
      | zero => simp [bitsOfBytes]
      | succ i =>
        rw [List.take_succ_cons, show bitsOfBytes (x :: b) = byteBits x ++ bitsOfBytes b from rfl,
          show bitsOfBytes (x :: b.take i) = byteBits x ++ bitsOfBytes (b.take i) from rfl,
          show 8 * (i + 1) = (byteBits x).length + 8 * i by rw [length_byteBits]; omega,
          List.take_length_add_append, ih]
  rw [hd, ht]

theorem shiftIn_ofNat (k : Nat) (b : Bool) :
    (BitVec.ofNat 32 k) <<< 1 ||| (BitVec.ofBool b).setWidth 32 = BitVec.ofNat 32 (2 * k + b.toNat) := by
  apply BitVec.eq_of_toNat_eq
  have h1 : ((BitVec.ofBool b).setWidth 32).toNat = b.toNat := by cases b <;> rfl
  rw [BitVec.toNat_or, BitVec.toNat_shiftLeft, h1, BitVec.toNat_ofNat, BitVec.toNat_ofNat]
  have h2 : (k % 2 ^ 32) <<< 1 % 2 ^ 32 = (k % 2 ^ 31) <<< 1 := by simp only [Nat.shiftLeft_eq]; omega
  have hb : b.toNat < 2 := by cases b <;> decide
  rw [h2, ← Nat.shiftLeft_add_eq_or_of_lt (by simpa using hb), Nat.shiftLeft_eq]; omega

theorem foldWord_ofNat (bits : List Bool) (k : Nat) :
    bits.foldl (fun (acc : Word) (b : Bool) => acc <<< 1 ||| (BitVec.ofBool b).setWidth 32) (BitVec.ofNat 32 k)
      = BitVec.ofNat 32 (bits.foldl (fun n b => 2 * n + b.toNat) k) := by
  induction bits generalizing k with
  | nil => rfl
  | cons x bits ih => rw [List.foldl_cons, shiftIn_ofNat, ih]; rfl

theorem foldNat_byteBits (k : Nat) (b : Byte) :
    (byteBits b).foldl (fun n b => 2 * n + b.toNat) k = 256 * k + b.toNat := by
  have : ∀ b : Byte,
      (b.getLsbD 7).toNat * 128 + (b.getLsbD 6).toNat * 64 + (b.getLsbD 5).toNat * 32 + (b.getLsbD 4).toNat * 16 +
        (b.getLsbD 3).toNat * 8 + (b.getLsbD 2).toNat * 4 + (b.getLsbD 1).toNat * 2 + (b.getLsbD 0).toNat =
          b.toNat := by decide
  rw [← this b]
  simp [byteBits, List.range_succ]
  omega

theorem foldNat_bitsOfBytes (m : List Byte) (k : Nat) :
    (bitsOfBytes m).foldl (fun n b => 2 * n + b.toNat) k = m.foldl (fun n b => 256 * n + b.toNat) k := by
  induction m generalizing k with
  | nil => rfl
  | cons b m ih =>
    rw [show bitsOfBytes (b :: m) = byteBits b ++ bitsOfBytes m from rfl, List.foldl_append, foldNat_byteBits, ih]
    rfl

/-! Words of bytes. -/

theorem be32_toNat (a b c d : Byte) :
    (be32 a b c d).toNat = ((a.toNat * 256 + b.toNat) * 256 + c.toNat) * 256 + d.toNat := by
  simp only [be32, append_toNat]; omega

theorem wordOfBits_four (a b c d : Byte) : wordOfBits (bitsOfBytes [a, b, c, d]) = be32 a b c d := by
  unfold wordOfBits
  have := foldWord_ofNat (bitsOfBytes [a, b, c, d]) 0
  rw [show (0 : Word) = BitVec.ofNat 32 0 from rfl, this, foldNat_bitsOfBytes]
  apply BitVec.eq_of_toNat_eq
  rw [be32_toNat, BitVec.toNat_ofNat]
  simp
  omega

theorem wordOfBytes_congr {x y : List Byte} {i i' : Nat} (h : ∀ j, j < 4 → x[4 * i + j]? = y[4 * i' + j]?) :
    wordOfBytes x i = wordOfBytes y i' := by
  have h0 := h 0 (by omega); have h1 := h 1 (by omega); have h2 := h 2 (by omega); have h3 := h 3 (by omega)
  simp only [Nat.add_zero] at h0
  simp [wordOfBytes, List.getD_eq_getElem?_getD, h0, h1, h2, h3]

theorem wordOfBytes_drop (x : List Byte) (k i : Nat) : wordOfBytes (x.drop (4 * k)) i = wordOfBytes x (k + i) := by
  apply wordOfBytes_congr
  intro j hj
  rw [List.getElem?_drop]; congr 1; omega

theorem wordOfBytes_beyond (p : List Byte) (i : Nat) (h : p.length ≤ 4 * i) : wordOfBytes p i = 0 := by
  have g : ∀ j, 4 * i ≤ j → p.getD j 0 = 0 := fun j hj => by simp [List.getD_eq_getElem?_getD,
      List.getElem?_eq_none (by omega : p.length ≤ j)]
  simp only [wordOfBytes, g _ (by omega : 4 * i ≤ 4 * i), g _ (by omega : 4 * i ≤ 4 * i + 1),
      g _ (by omega : 4 * i ≤ 4 * i + 2), g _ (by omega : 4 * i ≤ 4 * i + 3)]
  decide

theorem wordByte_be32 (a b c d : Byte) (k : Nat) (hk : k < 4) :
    wordByte (be32 a b c d) k = [a, b, c, d].getD k 0 := by
  have h := be32_toNat a b c d
  have ha := a.isLt; have hb := b.isLt; have hc := c.isLt; have hd := d.isLt
  apply BitVec.eq_of_toNat_eq
  rw [wordByte, BitVec.extractLsb'_toNat, h, Nat.shiftRight_eq_div_pow]
  interval_cases k <;> simp <;> omega

theorem wordByte_wordOfBytes (p : List Byte) (j : Nat) (h : j < p.length) :
    p[j]? = some (wordByte (wordOfBytes p (j / 4)) (j % 4)) := by
  rw [wordOfBytes, wordByte_be32 _ _ _ _ _ (by omega)]
  obtain ⟨q, r, e, hr⟩ : ∃ q r, j = 4 * q + r ∧ r < 4 := ⟨j / 4, j % 4, by omega, by omega⟩
  have e1 : j / 4 = q := by omega
  have e2 : j % 4 = r := by omega
  rw [e1, e2]
  subst e
  interval_cases r <;> simp [List.getD_eq_getElem?_getD] <;> simp_all

theorem wordOfBytes_be64_hi (x : List Byte) (l : Dword) (i : Nat) (h : x.length = 4 * i) :
    wordOfBytes (x ++ be64 l) i = hiWord l := by
  rw [show wordOfBytes (x ++ be64 l) i = wordOfBytes (be64 l) 0 from wordOfBytes_congr (fun j hj => by
      rw [List.getElem?_append_right (by omega)]; congr 1; omega)]
  apply BitVec.eq_of_toNat_eq
  simp [wordOfBytes, be32_toNat, hiWord, be64, List.range_succ, Nat.shiftRight_eq_div_pow]
  omega

theorem wordOfBytes_be64_lo (x : List Byte) (l : Dword) (i : Nat) (h : x.length = 4 * i) :
    wordOfBytes (x ++ be64 l) (i + 1) = loWord l := by
  rw [show wordOfBytes (x ++ be64 l) (i + 1) = wordOfBytes (be64 l) 1 from wordOfBytes_congr (fun j hj => by
      rw [List.getElem?_append_right (by omega)]; congr 1; omega)]
  apply BitVec.eq_of_toNat_eq
  simp [wordOfBytes, be32_toNat, loWord, be64, List.range_succ, Nat.shiftRight_eq_div_pow]
  omega

/-! The tail that PAD and FINAL read (R108). -/

/-- The tail of n bytes lies in words 0 to (n + 3) div 4 − 1. -/
theorem tailBytes_congr {x y : Block} {n : Nat} (h : ∀ i, i < tailWords n → x[i]? = y[i]?) :
    tailBytes x n = tailBytes y n := by
  apply List.map_congr_left
  intro j hj
  simp only [List.mem_range] at hj
  simp only [blockByte, h (j / 4) (by unfold tailWords; omega)]

/-! Lengths as 64-bit values (R22, R225). -/

theorem tailBits_ofNat {n : Nat} (h : n < 64) : tailBits (BitVec.ofNat 6 n) = BitVec.ofNat 64 (8 * n) := by
  apply BitVec.eq_of_toNat_eq
  simp [tailBits]
  omega

theorem tailBits_toNat (n : BitVec 6) : (tailBits n).toNat = 8 * n.toNat := by
  have := n.isLt
  simp [tailBits]
  omega

theorem noteCarry_of_lt {o : Bool} {a b : Dword} (h : a.toNat + b.toNat < 2 ^ 64) : noteCarry o a b = o := by
  simp only [noteCarry, carry64, decide_eq_false (by omega : ¬ 2 ^ 64 ≤ a.toNat + b.toNat), Bool.or_false]

/-! Parsing. -/

theorem parse_of_length {p : List Bool} {n : Nat} (h : p.length = 512 * n) : parse p = some (bitBlocks n p) := by
  simp [parse, h]

theorem bitBlocks_flatten (n : Nat) (p : List Bool) (h : p.length = 512 * n) : (bitBlocks n p).flatten = p := by
  induction n generalizing p with
  | zero => simp at h; subst h; rfl
  | succ n ih =>
    simp only [bitBlocks, List.flatten_cons]
    rw [ih _ (by simp; omega), List.take_append_drop]

end Sys2Proof.Machine
end

