-- ==== Sys2Proof/Laws/Port.lean ====
section
/-! SUPPORT. What one clock cycle can do, said once: the inversion of a host access, of a completion, of the engine's
cycle and of the step. Every invariant and frame follows from these without unfolding the step again. -/

namespace Sys2Proof.Machine

/-- What a CMD write can do (R85). -/
theorem issueCommand_next_cases {v : Word} {s t : State} (h : issueCommand v s = .next t) :
    (s.busy = true ∧ t = recordError .cmdBusy s) ∨
    (s.busy = false ∧ (∃ w, decode v = .illegal w) ∧ t = recordError .illegalCmd s) ∨
    (s.busy = false ∧ ∃ i, decode v = .command i ∧ exec i s = .next t) := by
  unfold issueCommand at h
  split at h
  · cases h; exact .inl ⟨‹_›, rfl⟩
  · rename_i hb
    have hb' : s.busy = false := by simpa using hb
    split at h
    · rename_i w hw
      cases h
      exact .inr (.inl ⟨hb', ⟨w, hw⟩, rfl⟩)
    · rename_i i hi
      exact .inr (.inr ⟨hb', i, hi, h⟩)

/-- What a host write can do (R54). -/
theorem hostWrite_next_cases {off : BitVec 8} {v : Word} {s t : State} (h : hostWrite off v s = .next t) :
    (regAt off = none ∧ t = s) ∨
    (regAt off = some .cmd ∧ issueCommand v s = .next t) ∨
    (∃ r, regAt off = some r ∧ r ≠ .cmd ∧ t = writeReg r v s) := by
  unfold hostWrite at h
  split at h
  · cases h; exact .inl ⟨‹_›, rfl⟩
  · exact .inr (.inl ⟨‹_›, h⟩)
  · rename_i r hne hr
    cases h
    exact .inr (.inr ⟨r, hr, fun e => hne e, rfl⟩)

/-- A host access that is accepted is a one-word read or write in the window (R50, R52). -/
theorem hostAccess_next_cases {a : Access} {s t : State} (h : hostAccess a s = .next t) :
    (∃ off, a = .read (.window off) 4 ∧ t = hostRead off s) ∨
    (∃ off v, a = .write (.window off) 4 v ∧ hostWrite off v s = .next t) := by
  cases a with
  | read x n =>
    cases x with
    | window off =>
      by_cases hn : n = 4
      · subst hn
        simp only [hostAccess, oneWord, if_true] at h
        cases h
        exact .inl ⟨off, rfl, rfl⟩
      · simp [hostAccess, oneWord, hn] at h
    | outside x => simp [hostAccess] at h
  | write x n v =>
    cases x with
    | window off =>
      by_cases hn : n = 4
      · subst hn
        exact .inr ⟨off, v, rfl, by simpa [hostAccess, oneWord] using h⟩
      · simp [hostAccess, oneWord, hn] at h
    | outside x => simp [hostAccess] at h

/-- What the engine's cycle can do (R30). -/
theorem engineTick_cases (s : State) :
    (s.seq = .idle ∧ engineTick s = s) ∨
    (∃ p, s.seq = .busy p ∧ p.remaining ≤ 1 ∧ engineTick s = completeCommand p s) ∨
    (∃ p, s.seq = .busy p ∧ 1 < p.remaining ∧
      engineTick s = { s with seq := .busy { p with remaining := p.remaining - 1 } }) := by
  unfold engineTick
  split
  · exact .inl ⟨‹_›, rfl⟩
  · rename_i p hp
    by_cases hr : p.remaining ≤ 1
    · exact .inr (.inl ⟨p, hp, hr, by simp [hr]⟩)
    · exact .inr (.inr ⟨p, hp, by omega, by simp [hr]⟩)

theorem engineTick_of_idle {s : State} (h : s.seq = .idle) : engineTick s = s := by
  simp [engineTick, h]

theorem engineTick_of_last {s : State} {p : Pending} (h : s.seq = .busy p) (hr : p.remaining ≤ 1) :
    engineTick s = completeCommand p s := by
  simp [engineTick, h, hr]

theorem engineTick_of_more {s : State} {p : Pending} (h : s.seq = .busy p) (hr : 1 < p.remaining) :
    engineTick s = { s with seq := .busy { p with remaining := p.remaining - 1 } } := by
  simp [engineTick, h, Nat.not_le.mpr hr]

theorem completing_eq_true_iff (s : State) :
    s.completing = true ↔ ∃ p, s.seq = .busy p ∧ p.remaining ≤ 1 := by
  cases h : s.seq <;> simp [State.completing, h]

theorem completing_of_idle {s : State} (h : s.seq = .idle) : s.completing = false := by
  simp [State.completing, h]

theorem completing_of_more {s : State} {p : Pending} (h : s.seq = .busy p) (hr : 1 < p.remaining) :
    s.completing = false := by
  simp [State.completing, h, hr]

/-! A completion, whichever command it is of (R30). -/

@[simp] theorem completeCommand_seq (p : Pending) (s : State) : (completeCommand p s).seq = .idle := by
  cases h : p.op <;> simp [completeCommand, h]
@[simp] theorem completeCommand_busy (p : Pending) (s : State) : (completeCommand p s).busy = false := by
  simp [State.busy]
@[simp] theorem completeCommand_m (p : Pending) (s : State) : (completeCommand p s).m = s.m := by
  cases h : p.op <;> simp [completeCommand, h]
@[simp] theorem completeCommand_err (p : Pending) (s : State) : (completeCommand p s).err = s.err := by
  cases h : p.op <;> simp [completeCommand, h]
@[simp] theorem completeCommand_errcode (p : Pending) (s : State) : (completeCommand p s).errcode = s.errcode := by
  cases h : p.op <;> simp [completeCommand, h]
@[simp] theorem completeCommand_port (p : Pending) (s : State) : (completeCommand p s).port = s.port := by
  cases h : p.op <;> simp [completeCommand, h]
@[simp] theorem completeCommand_readLog (p : Pending) (s : State) : (completeCommand p s).readLog = s.readLog := by
  cases h : p.op <;> simp [completeCommand, h]
@[simp] theorem completeCommand_stream (p : Pending) (s : State) : (completeCommand p s).stream = s.stream := by
  cases h : p.op <;> simp [completeCommand, h]
@[simp] theorem completeCommand_mWritten (p : Pending) (s : State) :
    (completeCommand p s).mWritten = s.mWritten := by
  cases h : p.op <;> simp [completeCommand, h]
@[simp] theorem completeCommand_draws (p : Pending) (s : State) :
    (completeCommand p s).draws = s.draws + completionDraws := by
  cases h : p.op <;> simp [completeCommand, h]

/-! Steps in sequence. -/

theorem run_succ_of_step {s t : State} (h : step s = .next t) (k : Nat) : run (k + 1) s = run k t := by
  simp [run, h]

theorem run_succ_of_fault {s : State} {f : Fault} (h : step s = .fault f) (k : Nat) : run (k + 1) s = .fault f := by
  simp [run, h]

theorem run_succ_of_refused {s : State} {r : Refusal} (h : step s = .refused r) (k : Nat) :
    run (k + 1) s = .refused r := by
  simp [run, h]

/-- Cycles run one after another: `j` and then `k`. -/
theorem run_add {s t : State} {j : Nat} (h : run j s = .next t) (k : Nat) : run (j + k) s = run k t := by
  induction j generalizing s with
  | zero => cases h; simp
  | succ j ih =>
    cases hs : step s <;> simp only [run, hs] at h
    · rw [show j + 1 + k = (j + k) + 1 by omega, run_succ_of_step hs, ih h]
    · cases h
    · cases h

/-! The host's own run of a machine, by the outcome of its first step. -/

theorem core_run_of_next {M : Host.Core} {s t : M.State} (h : M.step s = .next t) (k : Nat) :
    M.run (k + 1) s = M.run k t := by
  simp [Host.Core.run, h]

theorem core_run_of_fault {M : Host.Core} {s : M.State} {f : M.Fault} (h : M.step s = .fault f) (k : Nat) :
    M.run (k + 1) s = .fault f := by
  simp [Host.Core.run, h]

theorem core_run_of_refused {M : Host.Core} {s : M.State} {r : M.Refusal} (h : M.step s = .refused r) (k : Nat) :
    M.run (k + 1) s = .refused r := by
  simp [Host.Core.run, h]

/-- The host's own run of this machine is `run`. -/
theorem run_eq_core_run (k : Nat) (s : State) : Host.Core.run Sys2Proof.core k s = run k s := by
  induction k generalizing s with
  | zero => rfl
  | succ k ih =>
    cases h : step s with
    | next t => exact (core_run_of_next (M := Sys2Proof.core) h k).trans ((ih t).trans (run_succ_of_step h k).symm)
    | fault f => exact (core_run_of_fault (M := Sys2Proof.core) h k).trans (run_succ_of_fault h k).symm
    | refused r => exact (core_run_of_refused (M := Sys2Proof.core) h k).trans (run_succ_of_refused h k).symm

/-- Everything a cycle can do that answers a next state. -/
theorem portCycle_next_cases {c : Cycle} {s t : State} (h : portCycle c s = .next t) :
    (c.rst = true ∧ c.access = none ∧ t = applyReset s) ∨
    (c.rst = false ∧ c.access = none ∧ t = engineTick s) ∨
    (∃ a, c.rst = false ∧ c.access = some a ∧ s.completing = false ∧ hostAccess a (engineTick s) = .next t) ∨
    (∃ a, c.rst = false ∧ c.access = some a ∧ s.completing = true ∧
      hostAccess a (engineTick (drawOrder s)) = .next t) ∨
    (∃ a u, c.rst = false ∧ c.access = some a ∧ s.completing = true ∧
      hostAccess a (drawOrder s) = .next u ∧ t = engineTick u) := by
  unfold portCycle at h
  split at h
  · rename_i hr
    unfold resetCycle at h
    split at h
    · cases h; exact .inl ⟨hr, ‹_›, rfl⟩
    · cases h
  · rename_i hr
    have hr' : c.rst = false := by simpa using hr
    split at h
    · cases h; exact .inr (.inl ⟨hr', ‹_›, rfl⟩)
    · rename_i a ha
      unfold accessCycle at h
      split at h
      · rename_i hc
        split at h
        · cases hu : hostAccess a (drawOrder s) <;> simp only [hu, thenTick] at h
          · rename_i u
            cases h
            exact .inr (.inr (.inr (.inr ⟨a, u, hr', ha, hc, hu, rfl⟩)))
          · cases h
          · cases h
        · exact .inr (.inr (.inr (.inl ⟨a, hr', ha, hc, h⟩)))
      · rename_i hc
        exact .inr (.inr (.inl ⟨a, hr', ha, Bool.not_eq_true _ ▸ hc, h⟩))

/-- The package of an induction over accesses: what every accepted host access keeps, given that reads, error
records, data writes and the commands keep it. -/
theorem hostAccess_keeps {P : State → Prop} {a : Access} {s t : State} (h : hostAccess a s = .next t) (hs : P s)
    (hread : ∀ off, P (hostRead off s))
    (herr : ∀ c, c ≠ .none → P (recordError c s))
    (hwrite : ∀ r v, s.busy = false → P (writeReg r v s))
    (hexec : ∀ i u, s.busy = false → exec i s = .next u → P u) : P t := by
  rcases hostAccess_next_cases h with ⟨off, -, rfl⟩ | ⟨off, v, -, hw⟩
  · exact hread off
  · rcases hostWrite_next_cases hw with ⟨-, rfl⟩ | ⟨-, hi⟩ | ⟨r, -, -, rfl⟩
    · exact hs
    · rcases issueCommand_next_cases hi with ⟨-, rfl⟩ | ⟨-, -, rfl⟩ | ⟨hb, i, -, he⟩
      · exact herr _ (by decide)
      · exact herr _ (by decide)
      · exact hexec i t hb he
    · cases hb : s.busy with
      | false => exact hwrite r v hb
      | true =>
        rcases writeReg_cases r v s with hc | ⟨-, hc⟩ | ⟨hc, -⟩
        · rw [hc]; exact hs
        · rw [hc]; exact herr _ (by decide)
        · simp [hb] at hc

end Sys2Proof.Machine
end

