-- ==== Sys2Proof/Laws/PerInstr.lean ====
section
/-! SUPPORT. Statements made of every command, one lemma per constructor. The family TableRow: the word of a well-formed
command matches its own row of spec/opcode_table.json, match value under mask. -/

namespace Sys2Proof.Laws.TableRow

/-- The "match" entry of a command's row in spec/opcode_table.json. -/
def matchOf : Instr → Word
  | .nop => 0x00000000
  | .init => 0x00000001
  | .compress => 0x00000002
  | .pad _ => 0x00000003
  | .final _ => 0x00000004
  | .clrerr => 0x00000005

/-- The "mask" entry of a command's row in spec/opcode_table.json. -/
def maskOf : Instr → Word
  | .nop => 0xFFFFFFFF
  | .init => 0xFFFFFFFF
  | .compress => 0xFFFFFFFF
  | .pad _ => 0xFFFFFC0F
  | .final _ => 0xFFFFFC0F
  | .clrerr => 0xFFFFFFFF

/-- The word of a well-formed command carries its row's fixed bits, and its other bits are its tail count. -/
def Statement (i : Instr) : Prop :=
  i.wellFormed = true →
    encode i &&& maskOf i = matchOf i ∧ encode i &&& ~~~maskOf i = i.tailField.setWidth 32 <<< 4

theorem nop : Statement .nop := fun _ => by decide

theorem init : Statement .init := fun _ => by decide

theorem compress : Statement .compress := fun _ => by decide

theorem pad (nb : Nat) : Statement (.pad nb) := fun _ => by
  have h : ∀ x : BitVec 6,
      packFields { opc := 0x3, nb := x, rsv := 0 } &&& (0xFFFFFC0F : Word) = 0x00000003 ∧
      packFields { opc := 0x3, nb := x, rsv := 0 } &&& ~~~(0xFFFFFC0F : Word) = x.setWidth 32 <<< 4 := by decide
  exact h (BitVec.ofNat 6 nb)

theorem final (nb : Nat) : Statement (.final nb) := fun _ => by
  have h : ∀ x : BitVec 6,
      packFields { opc := 0x4, nb := x, rsv := 0 } &&& (0xFFFFFC0F : Word) = 0x00000004 ∧
      packFields { opc := 0x4, nb := x, rsv := 0 } &&& ~~~(0xFFFFFC0F : Word) = x.setWidth 32 <<< 4 := by decide
  exact h (BitVec.ofNat 6 nb)

theorem clrerr : Statement .clrerr := fun _ => by decide

end Sys2Proof.Laws.TableRow
end

