-- ==== Sys2Proof/Laws/Run.lean ====
section
/-! SUPPORT. One cycle by its inputs, and runs of cycles without access: the countdown of a latency to its completion
(spec 10_state.md R30). -/

namespace Sys2Proof.Machine

/-! A command write. -/

theorem hostAccess_cmd {off : BitVec 8} {v : Word} {s : State} (h : regAt off = some .cmd) :
    hostAccess (.write (.window off) 4 v) s = issueCommand v s := by
  simp [hostAccess, oneWord, hostWrite, h]

theorem exec_of_busy {s : State} (h : s.busy = true) (i : Instr) : exec i s = .next (recordError .cmdBusy s) := by
  cases i <;> simp [exec, execNop, execInit, execCompress, execPad, execFinal, execClrerr, whenIdle_of_busy h]

theorem issueCommand_of_command {v : Word} {i : Instr} {s : State} (h : decode v = .command i) :
    issueCommand v s = exec i s := by
  unfold issueCommand
  cases hb : s.busy with
  | false => simp [h]
  | true => rw [exec_of_busy hb]; rfl

theorem regAt_cmd : regAt 0x04 = some .cmd := by decide

/-! A step by its first input. -/

theorem step_of_cons {s : State} {c : Cycle} {rest : List Cycle} (h : s.port = c :: rest) :
    step s = portCycle c { s with port := rest } := by
  simp [step, State.nextCycle, State.popPort, h]

theorem step_of_nil {s : State} (h : s.port = []) : step s = .next (engineTick s) := by
  cases s; simp at h; subst h; rfl

theorem accessCycle_of_not_completing {a : Access} {s : State} (h : s.completing = false) :
    accessCycle a s = hostAccess a (engineTick s) := by simp [accessCycle, h]

theorem accessCycle_of_completing {a : Access} {s : State} (h : s.completing = true) :
    accessCycle a s = hostAccess a (engineTick (drawOrder s)) ∨
    accessCycle a s = thenTick (hostAccess a (drawOrder s)) := by
  cases hc : Config.accessFirst s.stream s.draws <;> simp [accessCycle, h, hc]

theorem portCycle_write (off : BitVec 8) (v : Word) (s : State) :
    portCycle (writeCycle off v) s = accessCycle (.write (.window off) 4 v) s := rfl

theorem idle_of_busy_false {s : State} (h : s.busy = false) : s.seq = .idle := by
  cases hs : s.seq <;> simp_all [State.busy]

theorem busy_of_idle {s : State} (h : s.seq = .idle) : s.busy = false := by simp [State.busy, h]

theorem step_write_idle {s : State} {off v rest} (hi : s.seq = .idle) (hp : s.port = writeCycle off v :: rest) :
    step s = hostWrite off v { s with port := rest } := by
  have hi' : ({ s with port := rest } : State).seq = .idle := hi
  rw [step_of_cons hp, portCycle_write, accessCycle_of_not_completing (completing_of_idle hi'),
      engineTick_of_idle hi']
  simp [hostAccess, oneWord]

theorem step_quiet_idle {s : State} {rest} (hi : s.seq = .idle) (hp : s.port = quietCycle :: rest) :
    step s = .next { s with port := rest } := by
  rw [step_of_cons hp]; simp [portCycle, quietCycle, engineTick_of_idle, hi]

/-! A completion reads only its operands (R30). -/

theorem completeCommand_remaining (p : Pending) (r : Nat) (s : State) :
    completeCommand { p with remaining := r } s = completeCommand p s := by
  cases h : p.op <;> simp [completeCommand, h, completeCompress, completePad, completeFinal, writePaddedTail,
      paddedTail, tailLength]

theorem completeCommand_seq_irrel (p : Pending) (q : Sequencer) (s : State) :
    completeCommand p { s with seq := q } = completeCommand p s := by
  cases h : p.op <;> simp only [completeCommand, h] <;> rfl

theorem completeCommand_withPort (p : Pending) (s : State) (l : List Cycle) :
    completeCommand p { s with port := l } = { completeCommand p s with port := l } := by
  cases h : p.op <;> simp only [completeCommand, h] <;> rfl

theorem completeCommand_withPort_seq (p : Pending) (s : State) (l : List Cycle) (q : Sequencer) :
    completeCommand p { s with port := l, seq := q } = { completeCommand p s with port := l } := by
  cases h : p.op <;> simp only [completeCommand, h] <;> rfl

/-- The registers that a completion leaves depend on its operands, on the registers themselves and on the model's own
fields that tell what is UNSPECIFIED and give free values, and on nothing else. -/
theorem completeCommand_congr {s t : State} (p : Pending) (hh : s.h = t.h) (hl : s.len = t.len)
    (hp : s.pbuf = t.pbuf) (hn : s.nblk = t.nblk) (ho : s.ovf = t.ovf) (hw : s.mWritten = t.mWritten)
    (hk : s.hKnown = t.hKnown) (hb : s.pbufKnown = t.pbufKnown) (hs : s.stream = t.stream)
    (hd : s.draws = t.draws) :
    (completeCommand p s).h = (completeCommand p t).h ∧ (completeCommand p s).len = (completeCommand p t).len ∧
    (completeCommand p s).pbuf = (completeCommand p t).pbuf ∧
    (completeCommand p s).nblk = (completeCommand p t).nblk ∧
    (completeCommand p s).ovf = (completeCommand p t).ovf ∧
    (completeCommand p s).hKnown = (completeCommand p t).hKnown ∧
    (completeCommand p s).pbufKnown = (completeCommand p t).pbufKnown := by
  cases h : p.op <;>
    simp [completeCommand, h, State.absorbed, State.padded, wroteM_congr hw, hashKnown_congr hk hw, hh, hl, hp, hn, ho,
      hk, hb, hs, hd]

/-- The free values count in H and PBUF alone, and there only where these are UNSPECIFIED. -/
theorem completeCommand_withDraws (p : Pending) (s : State) (d : Nat) :
    (completeCommand p { s with draws := d }).len = (completeCommand p s).len ∧
    (completeCommand p { s with draws := d }).nblk = (completeCommand p s).nblk ∧
    (completeCommand p { s with draws := d }).ovf = (completeCommand p s).ovf ∧
    (completeCommand p { s with draws := d }).hKnown = (completeCommand p s).hKnown ∧
    (completeCommand p { s with draws := d }).pbufKnown = (completeCommand p s).pbufKnown ∧
    (s.hashKnown p.wordsConsumed = true → (completeCommand p { s with draws := d }).h = (completeCommand p s).h) ∧
    (s.wroteM p.wordsConsumed = true →
      (completeCommand p { s with draws := d }).pbuf = (completeCommand p s).pbuf) := by
  have hw (k : Nat) : ({ s with draws := d } : State).wroteM k = s.wroteM k := wroteM_congr rfl k
  have hk (k : Nat) : ({ s with draws := d } : State).hashKnown k = s.hashKnown k := hashKnown_congr rfl rfl k
  cases h : p.op <;> simp only [completeCommand, h, Pending.wordsConsumed]
  · refine ⟨rfl, rfl, rfl, rfl, rfl, fun ho => ?_, fun _ => rfl⟩
    simp only [completeCompress_h, absorbed_of_known ho, absorbed_of_known ((hk 16).trans ho)]
  · refine ⟨rfl, rfl, rfl, rfl, rfl, fun _ => rfl, fun ho => ?_⟩
    simp only [completePad_pbuf, padded_of_wrote ho, padded_of_wrote ((hw _).trans ho)]
  · refine ⟨rfl, rfl, rfl, rfl, rfl, fun ho => ?_, fun ho => ?_⟩
    · have hm := ((hashKnown_eq_true_iff s _).mp ho).2
      simp only [completeFinal_h, absorbed_of_known ho, absorbed_of_known ((hk _).trans ho), padded_of_wrote hm,
        padded_of_wrote ((hw _).trans hm)]
    · simp only [completeFinal_pbuf, padded_of_wrote ho, padded_of_wrote ((hw _).trans ho)]

/-! Runs. -/

theorem run_countdown (s : State) (p : Pending) (hs : s.seq = .busy p) (hp : s.port = []) (k : Nat)
    (hk : k < p.remaining) :
    run k s = .next { s with seq := .busy { p with remaining := p.remaining - k } } := by
  induction k generalizing s p with
  | zero => cases s; simp at hs; subst hs; rfl
  | succ k ih =>
    have h1 : step s = .next { s with seq := .busy { p with remaining := p.remaining - 1 } } := by
      rw [step_of_nil hp, engineTick_of_more hs (by omega)]
    rw [run_succ_of_step h1]
    refine (ih { s with seq := .busy { p with remaining := p.remaining - 1 } }
      { p with remaining := p.remaining - 1 } rfl hp (by simp; omega)).trans ?_
    simp; omega

theorem run_to_completion (s : State) (p : Pending) (hs : s.seq = .busy p) (hp : s.port = []) (h1 : 1 ≤ p.remaining) :
    run p.remaining s = .next (completeCommand p s) := by
  have h := run_countdown s p hs hp (p.remaining - 1) (by omega)
  have e : p.remaining = (p.remaining - 1) + 1 := by omega
  rw [e, run_add h 1]
  have hstep : step { s with seq := .busy { p with remaining := p.remaining - (p.remaining - 1) } }
      = .next (completeCommand p s) := by
    rw [step_of_nil (by exact hp), engineTick_of_last rfl (by simp; omega), completeCommand_remaining,
        completeCommand_seq_irrel]
  rw [run_succ_of_step hstep]; rfl

theorem run_quiet_idle (g : Nat) (rest : List Cycle) (s : State) (hi : s.seq = .idle)
    (hp : s.port = List.replicate g quietCycle ++ rest) : run g s = .next { s with port := rest } := by
  induction g generalizing s with
  | zero => cases s; simp at hp; subst hp; rfl
  | succ g ih =>
    have h1 := step_quiet_idle (rest := List.replicate g quietCycle ++ rest) hi (by rw [hp]; rfl)
    rw [run_succ_of_step h1, ih _ (by exact hi) rfl]

theorem run_quiet_busy (g : Nat) (rest : List Cycle) (s : State) (p : Pending) (hs : s.seq = .busy p)
    (h1 : 1 ≤ p.remaining) (hg : p.remaining ≤ g) (hp : s.port = List.replicate g quietCycle ++ rest) :
    run g s = .next { completeCommand p s with port := rest } := by
  induction g generalizing s p with
  | zero => omega
  | succ g ih =>
    have hst : step s = .next (engineTick { s with port := List.replicate g quietCycle ++ rest }) := by
      rw [step_of_cons (rest := List.replicate g quietCycle ++ rest) (by rw [hp]; rfl)]; rfl
    rw [run_succ_of_step hst]
    by_cases hr : p.remaining ≤ 1
    · rw [engineTick_of_last (by exact hs) hr, run_quiet_idle g rest _ (by simp) (by simp), completeCommand_withPort]
    · rw [engineTick_of_more (by exact hs) (by omega)]
      rw [ih _ { p with remaining := p.remaining - 1 } rfl (by simp; omega) (by simp; omega) rfl,
          completeCommand_remaining]
      rw [completeCommand_withPort_seq, completeCommand_withPort]

end Sys2Proof.Machine
end

