-- ==== Sys2Proof/Laws/Scheduler.lean ====
section
/-! SUPPORT. The schedule as a list (spec 41_scheduler.md R130, R131) and the rounds over it (42_compression.md R156). -/

namespace Sys2Proof.Machine

theorem length_scheduleExtend (k : Nat) (ws : List Word) : (scheduleExtend k ws).length = k + ws.length := by
  induction k generalizing ws with
  | zero => simp [scheduleExtend]
  | succ k ih => simp only [scheduleExtend]; rw [ih]; simp; omega

theorem length_schedule (b : Block) : (schedule b).length = 80 := by
  simp [schedule, length_scheduleExtend]

/-- The words already there stay, at the end of the list that is held newest first. -/
theorem scheduleExtend_suffix (k : Nat) (ws : List Word) : ws <:+ scheduleExtend k ws := by
  induction k generalizing ws with
  | zero => exact List.suffix_refl _
  | succ k ih => exact List.IsSuffix.trans (List.suffix_cons _ _) (ih _)

theorem runRounds_append (t : Nat) (x y : List Word) (v : WorkVars) :
    runRounds t (x ++ y) v = runRounds (t + x.length) y (runRounds t x v) := by
  induction x generalizing t v with
  | nil => rfl
  | cons a x ih => simp only [List.cons_append, runRounds, ih, List.length_cons]; congr 1; omega

theorem rotl_xor (x y : Word) (n : Nat) : rotl (x ^^^ y) n = rotl x n ^^^ rotl y n := by
  apply BitVec.eq_of_getLsbD_eq
  intro i hi
  simp only [rotl, BitVec.getLsbD_or, BitVec.getLsbD_xor, BitVec.getLsbD_shiftLeft, BitVec.getLsbD_ushiftRight]
  by_cases h : i < n
  · simp [h, hi]
  · by_cases h2 : 32 - n + i < 32
    · omega
    · simp [h, hi, BitVec.getLsbD_of_ge _ _ (by omega : 32 ≤ 32 - n + i)]

theorem digestFromBlocks_cons (b : Block) (bs : List Block) (h : CV) :
    digestFromBlocks (b :: bs) h = digestFromBlocks bs (compress h b) := rfl

end Sys2Proof.Machine
end

