-- ==== Sys2Proof/Tests/Slice0.lean ====
section
/-! SUPPORT. Tests. Expected values are the spec's: its encodings (30_encoding.md, opcode_table.json) and its vectors
(95_test_vectors.md, cited by section). The second half holds, for each statement with hypotheses, a state and
operands that meet them. -/

namespace Sys2Proof.Tests

open Sys2Proof.Machine

/-! ## Small states -/

/-- The block buffer with these first words, the rest 0. -/
def blockOf (ws : List Word) : Block := tabulate 16 fun i => ws.getD i 0

/-- An idle block: IV, LEN 0, all of M written, everything else 0. -/
def idle : State :=
  { h := Config.iv, len := 0, m := blockOf [], pbuf := tabulate 32 fun _ => 0, err := false, ovf := false,
    nblk := 0, errcode := .none, seq := .idle,
    round := { vars := ⟨0, 0, 0, 0, 0⟩, t := 0, w := tabulate 16 fun _ => 0, blk := 0 },
    port := [], readLog := [], trace := [], stream := 0, draws := 0,
    mWritten := tabulate 16 fun _ => true, hKnown := tabulate 5 fun _ => true, pbufKnown := false }

/-- An idle block of which the host has written M0 alone since reset, as P1 of section 3 does. -/
def onlyM0 : State :=
  { idle with m := blockOf [0x61626300], mWritten := tabulate 16 fun i => decide (i = 0) }

/-- The command `op` with tail count `n` in flight on the operands of `s`, with `k` cycles left. -/
def inFlight (op : EngineOp) (n : BitVec 6) (k : Nat) (s : State) : Pending :=
  { op := op, n := n, hIn := s.h, lenIn := s.len, mIn := s.m, remaining := k }

/-- A block with a COMPRESS in flight, with `k` cycles left. -/
def busy (k : Nat) : State := { idle with seq := .busy (inFlight .compress 0 k idle) }

/-- What STATUS reads after an outcome. -/
def statusAfter (o : Host.Outcome State Fault Refusal) : Option Word :=
  match o with
  | .next s => some (statusWith (nblkBits s.nblk) s)
  | .fault _ => none
  | .refused _ => none

/-- A write to CMD. -/
def writeCmd (v : Word) (s : State) : Host.Outcome State Fault Refusal := hostAccess (.write (.window 0x04) 4 v) s

/-- The tail bytes 0x41, 0x42, ... of 95_test_vectors.md section 2.6, in M. -/
def letters : Block := tabulate 16 (wordOfBytes ((List.range 64).map fun j => BitVec.ofNat 8 (0x41 + j)))

/-! ## Well-formedness: the check refuses what it must (R82) -/

theorem test_pad_64_is_ill_formed : Instr.wellFormed (.pad 64) = false := by decide
theorem test_final_64_is_ill_formed : Instr.wellFormed (.final 64) = false := by decide
theorem test_tail_counts_0_and_63_are_well_formed :
    Instr.wellFormed (.pad 0) = true ∧ Instr.wellFormed (.pad 63) = true ∧
    Instr.wellFormed (.final 0) = true ∧ Instr.wellFormed (.final 63) = true := by decide

/-! ## Decoding: words written out from opcode_table.json's "encoding" rows, RSV, NB, OPC -/

theorem test_decode_nop : decode 0b0000000000000000000000_000000_0000 = .command .nop := by decide
theorem test_decode_init : decode 0b0000000000000000000000_000000_0001 = .command .init := by decide
theorem test_decode_compress : decode 0b0000000000000000000000_000000_0010 = .command .compress := by decide
theorem test_decode_pad : decode 0b0000000000000000000000_110101_0011 = .command (.pad 53) := by decide
theorem test_decode_final : decode 0b0000000000000000000000_001011_0100 = .command (.final 11) := by decide
theorem test_decode_clrerr : decode 0b0000000000000000000000_000000_0101 = .command .clrerr := by decide
theorem test_encode_nop : encode .nop = 0b0000000000000000000000_000000_0000 := by decide
theorem test_encode_init : encode .init = 0b0000000000000000000000_000000_0001 := by decide
theorem test_encode_compress : encode .compress = 0b0000000000000000000000_000000_0010 := by decide
theorem test_encode_pad : encode (.pad 53) = 0b0000000000000000000000_110101_0011 := by decide
theorem test_encode_final : encode (.final 11) = 0b0000000000000000000000_001011_0100 := by decide
theorem test_encode_clrerr : encode .clrerr = 0b0000000000000000000000_000000_0101 := by decide

/-- Section 2.9: the illegal words. -/
theorem test_decode_illegal :
    decode 0x00000006 = .illegal .reservedOpcode ∧ decode 0x0000000F = .illegal .reservedOpcode ∧
    decode 0x00000012 = .illegal .tailCountNotZero ∧ decode 0x00000011 = .illegal .tailCountNotZero ∧
    decode 0x00000434 = .illegal .reservedBits ∧ decode 0x80000004 = .illegal .reservedBits := by decide

theorem test_table_words :
    decodeTableWord 32 0x00000033 = some (.pad 3) ∧ decodeTableWord 32 0x00000005 = some .clrerr ∧
    decodeTableWord 32 0x00000006 = none ∧ decodeTableWord 40 0x100000000 = none := by decide

/-! ## Commands -/

/-- Section 2.9: NOP while idle. -/
theorem test_nop : statusAfter (writeCmd 0x00000000 idle) = some 0x000 := by decide +kernel

/-- R185's example. -/
theorem test_init :
    writeCmd 0x00000001
      { idle with h := ⟨0xFFFFFFFF, 0xFFFFFFFF, 0xFFFFFFFF, 0xFFFFFFFF, 0xFFFFFFFF⟩, len := 0x1234 } =
      .next idle := by rfl

/-- Section 2.9: CLRERR on STATUS = 0x306 and on 0x216. -/
theorem test_clrerr :
    statusAfter (writeCmd 0x00000005 { idle with err := true, ovf := true, errcode := .illegalCmd }) = some 0x000 ∧
    statusAfter (writeCmd 0x00000005 { idle with err := true, ovf := true, errcode := .wrBusy, nblk := 1 }) =
      some 0x010 := by decide +kernel

/-- R159's example: the padded block of "abc". -/
theorem test_compress_abc :
    let b := blockOf [0x61626380, 0, 0, 0, 0, 0, 0, 0, 0, 0, 0, 0, 0, 0, 0, 0x18]
    (completeCommand (inFlight .compress 0 1 { idle with m := b }) idle).h =
      ⟨0xA9993E36, 0x4706816A, 0xBA3E2571, 0x7850C26C, 0x9CD0D89D⟩ := by decide +kernel

/-- Section 2.8: LEN overflow at a COMPRESS, and a carry from LEN_LO into LEN_HI. -/
theorem test_compress_len :
    (completeCommand (inFlight .compress 0 1 { idle with len := 0xFFFFFFFFFFFFFE00 }) idle).len = 0 ∧
    (completeCommand (inFlight .compress 0 1 { idle with len := 0xFFFFFFFFFFFFFE00 }) idle).ovf = true ∧
    (completeCommand (inFlight .compress 0 1 { idle with len := 0x00000000FFFFFE00 }) idle).len = 0x100000000 ∧
    (completeCommand (inFlight .compress 0 1 { idle with len := 0x00000000FFFFFE00 }) idle).ovf = false := by
  decide +kernel

/-- Section 2.6: PAD 56 and PAD 55. -/
theorem test_pad_two_blocks_and_one :
    (let t := completeCommand (inFlight .pad 56 1 { idle with m := letters }) idle
     t.pbuf[13] = 0x75767778 ∧ t.pbuf[14] = 0x80000000 ∧ t.pbuf[15] = 0 ∧ t.pbuf[30] = 0 ∧ t.pbuf[31] = 0x1C0 ∧
     t.nblk = 2) ∧
    (let t := completeCommand (inFlight .pad 55 1 { idle with m := letters }) idle
     t.pbuf[12] = 0x71727374 ∧ t.pbuf[13] = 0x75767780 ∧ t.pbuf[15] = 0x1B8 ∧ t.pbuf[31] = 0 ∧ t.nblk = 1) := by
  decide +kernel

/-- Section 2.6, last row: PAD 3 with LEN = 0xFFFFFFFFFFFFFFF0. -/
theorem test_pad_wraps :
    let t := completeCommand (inFlight .pad 3 1 { idle with m := letters, len := 0xFFFFFFFFFFFFFFF0 }) idle
    t.pbuf[0] = 0x41424380 ∧ t.pbuf[15] = 0x8 ∧ t.pbuf[14] = 0 ∧ statusAfter (.next t) = some 0x14 := by
  decide +kernel

/-- Section 2.7, second row: FINAL 3 on "abc", the bytes after the tail not 0. -/
theorem test_final_abc :
    let t := completeCommand (inFlight .final 3 1 { idle with m := blockOf [0x616263FF, 0xFFFFFFFF] }) idle
    t.h = ⟨0xA9993E36, 0x4706816A, 0xBA3E2571, 0x7850C26C, 0x9CD0D89D⟩ ∧ t.len = 0x18 ∧ t.nblk = 1 := by
  decide +kernel

/-- Section 3, P2: FINAL 56, two blocks. -/
theorem test_final_two_blocks :
    let p := inFlight .final 56 1
      { idle with
        m := blockOf [0x61626364, 0x62636465, 0x63646566, 0x64656667, 0x65666768, 0x66676869, 0x6768696A, 0x68696A6B,
          0x696A6B6C, 0x6A6B6C6D, 0x6B6C6D6E, 0x6C6D6E6F, 0x6D6E6F70, 0x6E6F7071] }
    (completeCommand p idle).h = ⟨0x84983E44, 0x1C3BD26E, 0xBAAE4AA1, 0xF95129E5, 0xE54670F1⟩ ∧
    (completeCommand p idle).len = 0x1C0 := by
  decide +kernel

/-- Section 3, P1: FINAL 3 needs M0 alone, so its results are exact where the rest of M was never written. -/
theorem test_final_with_only_its_tail_written :
    let t := completeCommand (inFlight .final 3 1 onlyM0) onlyM0
    t.h = ⟨0xA9993E36, 0x4706816A, 0xBA3E2571, 0x7850C26C, 0x9CD0D89D⟩ ∧ t.pbuf[0] = 0x61626380 ∧ t.len = 0x18 := by
  decide +kernel

/-- R159: with words of M never written H is UNSPECIFIED and reads as a free value, and LEN is exact all the same. -/
theorem test_compress_with_unwritten_words :
    let t := completeCommand (inFlight .compress 0 1 onlyM0) onlyM0
    readReg (.h 0) t = Config.freeWord t.stream t.draws ∧ t.len = 512 ∧ t.ovf = false ∧ t.m = onlyM0.m := by
  refine ⟨rfl, rfl, rfl, rfl⟩

/-- R114: with M1 never written PAD 5 leaves all of PBUF UNSPECIFIED, the length word too, and NBLK is exact. -/
theorem test_pad_with_unwritten_word :
    let t := completeCommand (inFlight .pad 5 1 onlyM0) onlyM0
    readReg (.pbuf 15) t = Config.freeWord t.stream t.draws ∧ t.nblk = 1 := by
  refine ⟨rfl, rfl⟩

/-- A host write marks its word as written, and reset marks none. -/
theorem test_written_words :
    (writeReg (.m 15) 7 State.reset).mWritten[15] = true ∧ State.reset.mWritten[15] = false ∧
    readReg (.m 15) (writeReg (.m 15) 7 State.reset) = 7 ∧
    State.reset.wroteM 0 = true ∧ State.reset.wroteM 1 = false := by decide +kernel

/-- Section 2.1 and R137: words of the schedule of "abc". -/
theorem test_schedule_abc :
    let w := schedule (blockOf [0x61626380, 0, 0, 0, 0, 0, 0, 0, 0, 0, 0, 0, 0, 0, 0, 0x18])
    w.getD 16 0 = 0xC2C4C700 ∧ w.getD 17 0 = 0 ∧ w.getD 18 0 = 0x30 ∧ w.getD 19 0 = 0x85898E01 ∧
    w.getD 79 0 = 0x822E0879 := by decide +kernel

/-- Section 2.1: the working variables after rounds 0 and 20 of "abc". -/
theorem test_rounds_abc :
    let w := schedule (blockOf [0x61626380, 0, 0, 0, 0, 0, 0, 0, 0, 0, 0, 0, 0, 0, 0, 0x18])
    runRounds 0 (w.take 1) (loadVars Config.iv) = ⟨0x0116FC33, 0x67452301, 0x7BF36AE2, 0x98BADCFE, 0x10325476⟩ ∧
    runRounds 0 (w.take 21) (loadVars Config.iv) = ⟨0x1A37B0CA, 0xFD9E1D7D, 0x77192407, 0x20AA99CA, 0xD3A49608⟩ := by
  decide +kernel

/-- Section 1, L1-2: pad("a") as words. -/
theorem test_pad_function :
    (parse (padBits [0x61])).map (fun bs => bs.map blockWords) =
      some [blockOf [0x61800000, 0, 0, 0, 0, 0, 0, 0, 0, 0, 0, 0, 0, 0, 0, 0x8]] := by decide +kernel

/-- Section 2.5: the digests of the empty message and of "abc" from the source's functions. -/
theorem test_digest_function :
    digest [] Config.iv = some ⟨0xDA39A3EE, 0x5E6B4B0D, 0x3255BFEF, 0x95601890, 0xAFD80709⟩ ∧
    digest [0x61, 0x62, 0x63] Config.iv = some ⟨0xA9993E36, 0x4706816A, 0xBA3E2571, 0x7850C26C, 0x9CD0D89D⟩ := by
  decide +kernel

/-! ## Errors (section 2.9) -/

theorem test_illegal_commands :
    statusAfter (writeCmd 0x00000006 idle) = some 0x302 ∧ statusAfter (writeCmd 0x00000012 idle) = some 0x302 ∧
    statusAfter (writeCmd 0x80000004 idle) = some 0x302 := by decide +kernel

theorem test_busy_errors :
    statusAfter (writeCmd 0x00000006 (busy 2)) = some 0x103 ∧
    statusAfter (hostAccess (.write (.window 0x4C) 4 0xDEADBEEF) (busy 2)) = some 0x203 ∧
    statusAfter (hostAccess (.write (.window 0x08) 4 0xFFFFFFFF) (busy 2)) = some 0x001 := by decide +kernel

/-- Section 2.8: host writes do not carry between the halves of LEN. -/
theorem test_len_lo_write :
    hostAccess (.write (.window 0x2C) 4 0) { idle with len := 0x00000000FFFFFFFF } = .next { idle with len := 0 } := by
  rfl

/-- Section 2.10: what the registers read after reset. -/
theorem test_reset_reads :
    readOffset 0x00 State.reset = 0x53484131 ∧ readOffset 0x08 State.reset = 0 ∧
    readOffset 0x10 State.reset = 0x67452301 ∧ readOffset 0x20 State.reset = 0xC3D2E1F0 ∧
    readOffset 0x28 State.reset = 0 ∧ readOffset 0x0C State.reset = 0 := by decide +kernel

/-- The first step after reset runs the word placed for it. -/
theorem test_first_command :
    statusAfter (step (State.reset.withFetchWord 32 0x00000005)) = some 0x000 ∧
    statusAfter (step (State.reset.withFetchWord 32 0x000003F3)) = some 0x001 := by decide +kernel

/-! ## Hypotheses that hold: command words -/

theorem test_witness_DecodeOfEncode : Instr.wellFormed (.final 63) = true := by decide

theorem test_witness_LegalWord : decode 0x000003F3 = .command (.pad 63) := by decide

/-- Each ground of R224 and its boundary, on an idle block. -/
theorem test_witness_IllegalCommand :
    idle.busy = false ∧ (0x00000400 : Word).toNat / 1024 ≠ 0 ∧ 6 ≤ (0x00000006 : Word).toNat % 16 ∧
    (0x00000010 : Word).toNat / 16 % 64 ≠ 0 ∧ (0x00000005 : Word).toNat / 16 % 64 = 0 := by decide

theorem test_witness_IssueCommand : regAt 0x04 = some .cmd ∧ regAt 0x07 = some .cmd ∧ regAt 0x08 ≠ some .cmd := by
  decide

/-! ## Hypotheses that hold: the step -/

/-- One state for each clause: idle, in flight, completing, and no input. -/
theorem test_witness_StepRuns :
    let c := writeCycle 0x04 0x00000001
    let s : State := { idle with port := [c] }
    let b : State := { busy 2 with port := [c] }
    let e : State := { busy 1 with port := [c] }
    s.port = c :: [] ∧ regAt 0x04 = some .cmd ∧ decode 0x00000001 = .command .init ∧ s.busy = false ∧
    b.seq = .busy (inFlight .compress 0 2 idle) ∧ e.seq = .busy (inFlight .compress 0 1 idle) ∧ idle.port = [] ∧
    decodeTableWord 32 0x00000001 = some .init := by
  refine ⟨rfl, by decide, by decide, rfl, rfl, rfl, rfl, by decide⟩

theorem test_witness_SameCycle :
    let e : State := { busy 1 with port := [readCycle 0x08] }
    e.port = { rst := false, access := some (.read (.window 0x08) 4) } :: [] ∧
    e.seq = .busy (inFlight .compress 0 1 idle) := ⟨rfl, rfl⟩

/-! ## Hypotheses that hold: the commands -/

theorem test_witness_commands_idle_and_busy : idle.busy = false ∧ idle.port = [] ∧ (busy 1).busy = true := by decide

/-- For COMPRESS and FINAL: H is known, or one word is not. -/
theorem test_witness_known_hash :
    (∀ i : Fin 5, idle.hKnown[i] = true) ∧
    ∃ i : Fin 5, ({ idle with hKnown := tabulate 5 fun i => decide (i = 4) } : State).hKnown[i] = false :=
  ⟨by decide +kernel, 3, by decide +kernel⟩

/-- For COMPRESS, PAD and FINAL: all the words read are written, or one is not; at the edge, a tail of 4 bytes needs
word 0 alone and a tail of 5 bytes word 1 too. -/
theorem test_witness_written_words :
    (∀ i : Fin 16, idle.mWritten[i] = true) ∧ (∃ i : Fin 16, onlyM0.mWritten[i] = false) ∧ onlyM0.busy = false ∧
    (∀ i : Fin 16, i.val < (4 + 3) / 4 → onlyM0.mWritten[i] = true) ∧
    (∃ i : Fin 16, i.val < (5 + 3) / 4 ∧ onlyM0.mWritten[i] = false) := by
  refine ⟨by decide +kernel, ⟨1, by decide +kernel⟩, rfl, by decide +kernel, ⟨1, by decide +kernel⟩⟩

/-- For NOP, INIT and CLRERR: a word of the same opcode that is not the command's own. -/
theorem test_witness_other_words :
    (0x00000010 : Word).toNat % 16 = 0 ∧ (0x00000010 : Word) ≠ 0x0 ∧ (0x00000401 : Word).toNat % 16 = 1 ∧
    (0x00000401 : Word) ≠ 0x1 ∧ (0x80000005 : Word).toNat % 16 = 5 ∧ (0x80000005 : Word) ≠ 0x5 := by decide

/-- For CLRERR: a set record, as in its example, and a clear one. -/
theorem test_witness_Clrerr :
    let s : State := { idle with err := true, ovf := true, errcode := .illegalCmd }
    s.busy = false ∧ readStatus s = 0x00000306 ∧ idle.err = false ∧ idle.errcode = .none ∧ idle.ovf = false := by
  decide

theorem test_witness_latencies : 0 < Config.latCompress ∧ 0 < Config.latPad ∧ 0 < Config.latFinal 63 :=
  ⟨Nat.succ_pos _, Nat.succ_pos _, Nat.succ_pos _⟩

theorem test_witness_CommandInFlight :
    let cs := [writeCycle 0x40 0x1, readCycle 0x08, writeCycle 0x04 0x5]
    let s : State := { busy 4 with port := cs ++ [quietCycle] }
    s.seq = .busy (inFlight .compress 0 4 idle) ∧ cs.length + 1 = (inFlight .compress 0 4 idle).remaining ∧
    (∀ c ∈ cs, c.ordinary = true) ∧ s.port = cs ++ [quietCycle] ∧
    s.hashKnown (inFlight .compress 0 4 idle).wordsConsumed = true := by
  refine ⟨rfl, rfl, by decide, rfl, by decide +kernel⟩

/-! ## Hypotheses that hold: the register window -/

theorem two_blocks_are_numbered : Platform.numbered { cores := [idle, { busy 2 with stream := 1 }] } := by
  intro k s h
  match k, h with
  | 0, h => cases h; rfl
  | 1, h => cases h; rfl

/-- Each kind of offset at the edges of its range. -/
theorem test_witness_offsets :
    regAt 0x00 = some .id ∧ regAt 0x08 = some .status ∧ regAt 0x0C = none ∧ regAt 0x10 = some (.h 0) ∧
    regAt 0x20 = some (.h 4) ∧ regAt 0x24 = none ∧ regAt 0x28 = some .lenHi ∧ regAt 0x2F = some .lenLo ∧
    regAt 0x30 = none ∧ regAt 0x3F = none ∧ regAt 0x40 = some (.m 0) ∧ regAt 0x7C = some (.m 15) ∧
    regAt 0x80 = some (.pbuf 0) ∧ regAt 0xFF = some (.pbuf 31) := by decide

theorem test_witness_OnlyAlignedWords : (2 : Nat) ≠ 4 ∧ (8 : Nat) ≠ 4 := by decide

/-- The last address of a window and the first after it; two blocks with their numbers. -/
theorem test_witness_WindowIsAtItsBase :
    Config.sha1Base 0 + 0xFF < Config.sha1Base 0 + 0x100 ∧ (0 : Nat) < 1 ∧
    Platform.numbered { cores := [idle, { busy 2 with stream := 1 }] } :=
  ⟨Nat.add_lt_add_left (by decide) _, by decide, two_blocks_are_numbered⟩

/-- Each kind of register that can be UNSPECIFIED, known and not. -/
theorem test_witness_HostRead :
    let s : State := { idle with pbufKnown := true, hKnown := tabulate 5 fun i => decide (i = 4) }
    s.busy = false ∧ s.pbufKnown = true ∧ idle.pbufKnown = false ∧ s.hKnown[4] = true ∧ s.hKnown[3] = false ∧
    onlyM0.mWritten[0] = true ∧ onlyM0.mWritten[15] = false ∧ (busy 1).busy = true := by decide +kernel

/-! ## Hypotheses that hold: errors and reset -/

/-- The sums at both sides of 2^64, for each command with latency. -/
theorem test_witness_LengthOverflow :
    2 ^ 64 ≤ (0xFFFFFFFFFFFFFE00 : Dword).toNat + 512 ∧ (0xFFFFFFFFFFFFFDFF : Dword).toNat + 512 < 2 ^ 64 ∧
    2 ^ 64 ≤ (0xFFFFFFFFFFFFFFE8 : Dword).toNat + 8 * (3 : BitVec 6).toNat ∧
    (0xFFFFFFFFFFFFFFE7 : Dword).toNat + 8 * (3 : BitVec 6).toNat < 2 ^ 64 ∧
    EngineOp.final ≠ .pad := by decide

/-- A CLRERR that clears both ERR and OVF. -/
theorem test_witness_OnlyClrerr :
    let s : State :=
      { idle with err := true, ovf := true, errcode := .wrBusy, port := [writeCycle 0x04 0x00000005] }
    step s = .next idle ∧ s.err = true ∧ s.ovf = true ∧ idle.err = false ∧ idle.ovf = false := by
  refine ⟨rfl, rfl, rfl, rfl, rfl⟩

theorem test_witness_ResetCycle :
    let s : State := { busy 3 with port := [{ rst := true, access := none }] }
    let t : State := { busy 3 with port := [{ rst := true, access := some (.read (.window 0x08) 4) }] }
    s.port = { rst := true, access := none } :: [] ∧
    t.port = { rst := true, access := some (.read (.window 0x08) 4) } :: [] := ⟨rfl, rfl⟩

/-! ## Hypotheses that hold: the machine as a whole -/

theorem idle_meets_invariant : idle.Inv where
  errorRecord := by decide
  snapshot := fun p h => by cases h
  latency := fun p h => by cases h
  padBuffer := fun h => by cases h

theorem test_witness_EveryStep : idle.Inv ∧ step idle = .next idle := ⟨idle_meets_invariant, rfl⟩

/-- H changes by INIT and by a host write. -/
theorem test_witness_ChainingValue :
    let s : State := { idle with h := ⟨0, 0, 0, 0, 0⟩, port := [writeCycle 0x04 0x00000001] }
    let u : State := { idle with h := ⟨0, 0, 0, 0, 0⟩, port := [writeCycle 0x20 0x5] }
    step s = .next idle ∧ idle.h ≠ s.h ∧ step u = .next { idle with h := ⟨0, 0, 0, 0, 5⟩ } := by
  refine ⟨rfl, by decide, rfl⟩

/-- LEN changes by a COMPRESS. -/
theorem test_witness_Length :
    step (busy 1) = .next (completeCommand (inFlight .compress 0 1 idle) (busy 1)) ∧
    (completeCommand (inFlight .compress 0 1 idle) (busy 1)).len ≠ (busy 1).len := by
  refine ⟨rfl, by decide +kernel⟩

theorem test_witness_BlockBuffer :
    let s : State := { idle with port := [writeCycle 0x7C 0x1] }
    step s = .next { idle with m := idle.m.set 15 0x1 } ∧ idle.m.set 15 0x1 ≠ s.m := by
  refine ⟨rfl, by decide +kernel⟩

theorem test_witness_PadBuffer :
    let s : State := { idle with seq := .busy (inFlight .pad 3 1 idle) }
    step s = .next (completeCommand (inFlight .pad 3 1 idle) s) ∧
    (completeCommand (inFlight .pad 3 1 idle) s).nblk ≠ s.nblk := by
  refine ⟨rfl, by decide +kernel⟩

/-- Two states that differ in H, M and NBLK alone. -/
theorem test_witness_Timing :
    let t : State := { idle with h := ⟨1, 2, 3, 4, 5⟩, m := letters, nblk := 1 }
    idle.sameControl t ∧ step idle = .next idle ∧ ((55 : Nat) ≤ 55 ↔ (0 : Nat) ≤ 55) := by
  refine ⟨⟨rfl, rfl, rfl, rfl⟩, rfl, by decide⟩

/-! ## Hypotheses that hold: the functions -/

/-- The ends of the ranges of rounds, words, bits, bytes and tail counts that the statements range over. -/
theorem test_witness_ranges :
    (15 : Nat) < 16 ∧ (16 : Nat) ≤ 16 ∧ (79 : Nat) ≤ 79 ∧ (79 : Nat) < 80 ∧ (19 : Nat) ≤ 19 ∧
    (20 : Nat) ≤ 20 ∧ (39 : Nat) ≤ 39 ∧ (40 : Nat) ≤ 40 ∧ (59 : Nat) ≤ 59 ∧ (60 : Nat) ≤ 60 ∧ (31 : Nat) < 32 ∧
    (3 : Nat) < 4 ∧ (63 : Nat) < 64 := by decide

theorem test_witness_messages_fit : 8 * ([0x61, 0x62, 0x63] : List Byte).length < 2 ^ 64 := by decide

theorem test_witness_Parse :
    [true].length % 512 ≠ 0 ∧ (List.replicate 512 false).length = 512 * 1 := by
  exact ⟨by decide, List.length_replicate⟩

theorem test_witness_BlockWords : (List.replicate 64 (0x80 : Byte)).length = 64 := by simp

/-- Tails at both sides of the boundary between one block and two. -/
theorem test_witness_PaddedTail :
    (inFlight .pad 55 1 idle).op ≠ .compress ∧ tailBlockCount 55 = 1 ∧ tailBlockCount 56 = 2 ∧
    idle.wroteM ((55 + 3) / 4) = true := by decide +kernel

/-- Operands that differ in M past the tail alone. -/
theorem test_witness_PaddingReads :
    let p := inFlight .pad 5 1 { idle with m := blockOf [0x41424344, 0x45464748, 1] }
    let p' := inFlight .pad 5 1 { idle with m := blockOf [0x41424344, 0x45464748, 2] }
    p'.n = p.n ∧ p'.lenIn = p.lenIn ∧ (∀ j, j < p.n.toNat → blockByte p'.mIn j = blockByte p.mIn j) ∧
    (∀ i, i < (p.n.toNat + 3) / 4 → p'.mIn[i]? = p.mIn[i]?) ∧ p'.mIn ≠ p.mIn := by decide +kernel

/-- The two cases of TRACE_PRESENT are all there are. -/
theorem test_witness_Trace : Config.tracePresent = false ∨ Config.tracePresent = true := by
  cases Config.tracePresent <;> simp

/-! ## Hypotheses that hold: the driver, host programs and platforms -/

theorem test_witness_HostProcedure :
    let m : List Byte := [0x61, 0x62, 0x63]
    let s : State := { idle with port := hashCycles m [] Config.latCompress (Config.latFinal 3) }
    8 * m.length < 2 ^ 64 ∧ s.busy = false ∧ s.port = hashCycles m [] Config.latCompress (Config.latFinal 3) ∧
    Config.latCompress ≤ Config.latCompress ∧ Config.latFinal (m.length % 64) ≤ Config.latFinal 3 := by
  refine ⟨by decide, rfl, rfl, Nat.le_refl _, Nat.le_refl _⟩

theorem test_witness_Resumption :
    digest [] Config.iv = some ⟨0xDA39A3EE, 0x5E6B4B0D, 0x3255BFEF, 0x95601890, 0xAFD80709⟩ ∧
    8 * (0 + (padSuffix 0).length + ([0x78] : List Byte).length) < 2 ^ 64 := by
  refine ⟨by decide +kernel, by decide⟩

theorem test_witness_ResumedHash :
    let d : CV := ⟨0xDA39A3EE, 0x5E6B4B0D, 0x3255BFEF, 0x95601890, 0xAFD80709⟩
    let cs := resumeCycles d (BitVec.ofNat 64 (8 * (0 + (padSuffix 0).length))) ++
      absorbCycles [0x78] [] Config.latCompress (Config.latFinal 1)
    let s : State := { idle with port := cs }
    digest [] Config.iv = some d ∧ 8 * (0 + (padSuffix 0).length + ([0x78] : List Byte).length) < 2 ^ 64 ∧
    s.busy = false ∧ s.port = cs := by
  refine ⟨by decide +kernel, by decide, rfl, rfl⟩

/-- A WAIT on a block with a command in flight. -/
theorem test_witness_WaitLoop :
    let y := System.start (Pseudo.expand (.wait "w")) (busy 2)
    y.host.gaps = [] ∧ y.host.stmts[y.host.at_]? = some (.label "w") ∧
    y.host.stmts[y.host.at_ + 1]? = some (.rd .status "s") ∧
    y.host.stmts[y.host.at_ + 2]? = some (.bnz "s" 0x1 "w") ∧ findLabel "w" y.host.stmts = some y.host.at_ ∧
    y.core.seq = .busy (inFlight .compress 0 2 idle) ∧
    y.core.hashKnown (inFlight .compress 0 2 idle).wordsConsumed = true := by
  refine ⟨rfl, rfl, rfl, rfl, by decide, rfl, by decide +kernel⟩

/-- Two blocks with their numbers, and the last address of the second one's window. -/
theorem test_witness_Platform_access :
    let p : Platform := { cores := [idle, { busy 2 with stream := 1 }] }
    let x : PlatformAccess := .read (Config.sha1Base 1 + 0xFF) 4
    p.numbered ∧ p.cores[1]? = some { busy 2 with stream := 1 } ∧ Config.sha1Base 1 ≤ x.addr ∧
    x.addr ≤ Config.sha1Base 1 + 0xFF ∧ Platform.numbered { cores := [] } := by
  refine ⟨two_blocks_are_numbered, rfl, Nat.le_add_right _ _, Nat.le_refl _, ?_⟩
  intro k s h
  cases h

/-- A read of ID at the base address of a platform's one block. -/
theorem test_platform_read :
    Platform.access (.read (Config.sha1Base 0) 4) { cores := [idle] } =
      .next { cores := [{ idle with readLog := [{ off := 0x00, value := 0x53484131 }], draws := 1 }] } := by
  have h : inWindow 0 (Config.sha1Base 0) = true := by simp [inWindow]
  have hs : Platform.select (Config.sha1Base 0) { cores := [idle] } = some 0 := by
    simp [Platform.select, idle, h]
  have ho : BusAddr.ofNat 0 (Config.sha1Base 0) = .window 0 := by simp [BusAddr.ofNat, h]
  simp only [Platform.access, PlatformAccess.addr, hs, Option.bind_some, PlatformAccess.toBlock]
  simp [Platform.onCore, idle, ho]
  rfl

/-- Two blocks, each of which steps. -/
theorem test_witness_Platform :
    let p : Platform := { cores := [idle, busy 2] }
    let q : Platform := { cores := [idle, busy 1] }
    (0 : Nat) ≠ 1 ∧ p.stepCore 1 = some (.next q) ∧ q.stepCore 0 = some (.next q) := by
  refine ⟨by decide, rfl, rfl⟩

end Sys2Proof.Tests
end

section
/-! The schedule as the window holds it (spec 41_scheduler.md R130, R131, R133), the engine's rounds on the hidden state
(42_compression.md R155, R156), and O52. -/

namespace Sys2Proof.Machine

/-! ## Rotation (R10) -/

/-- Bits n and up come from the left shift, the low n bits from the right shift; no bit comes from both. -/
theorem getLsbD_rotl (x : Word) {n i : Nat} (hn : 0 < n) (hn' : n < 32) (hi : i < 32) :
    (rotl x n).getLsbD i = x.getLsbD ((i + 32 - n) % 32) := by
  simp only [rotl, BitVec.getLsbD_or, BitVec.getLsbD_shiftLeft, BitVec.getLsbD_ushiftRight]
  by_cases h : i < n
  · have hmod : (i + 32 - n) % 32 = 32 - n + i := by omega
    simp [h, hmod]
  · have hmod : (i + 32 - n) % 32 = i - n := by omega
    have hout : x.getLsbD (32 - n + i) = false := BitVec.getLsbD_of_ge _ _ (by omega)
    simp [h, hi, hmod, hout]

/-! ## The schedule words by their numbers (R130, R131) -/

/-- The word added last is the recurrence's, of the list built so far. -/
theorem scheduleExtend_succ (k : Nat) (ws : List Word) :
    scheduleExtend (k + 1) ws = scheduleExtend 1 (scheduleExtend k ws) := by
  induction k generalizing ws with
  | zero => rfl
  | succ k ih => exact ih _

theorem scheduleExtend_add (j k : Nat) (ws : List Word) :
    scheduleExtend (j + k) ws = scheduleExtend k (scheduleExtend j ws) := by
  induction k with
  | zero => rfl
  | succ k ih => rw [← Nat.add_assoc, scheduleExtend_succ, ih, ← scheduleExtend_succ]

/-- The schedule begins with what the first `k` extensions give: its first 16 + k words. -/
theorem reverse_scheduleExtend_prefix_schedule (b : Block) {k : Nat} (hk : k ≤ 64) :
    (scheduleExtend k b.toList.reverse).reverse <+: schedule b := by
  have hadd := scheduleExtend_add k (64 - k) b.toList.reverse
  rw [Nat.add_sub_cancel' hk] at hadd
  rw [schedule, List.reverse_prefix, hadd]
  exact scheduleExtend_suffix _ _

theorem length_scheduleExtend_block (b : Block) (k : Nat) :
    (scheduleExtend k b.toList.reverse).length = k + 16 := by
  simp [length_scheduleExtend]

/-- Word `i` of the schedule, read from the end of a list that is held newest first. -/
theorem getD_schedule_eq_getD_scheduleExtend (b : Block) {k i : Nat} (hk : k ≤ 64) (hi : i < k + 16) :
    (schedule b).getD i 0 = (scheduleExtend k b.toList.reverse).getD (k + 15 - i) 0 := by
  have hlen := length_scheduleExtend_block b k
  have hword := List.prefix_iff_getElem?.mp (reverse_scheduleExtend_prefix_schedule b hk) i (by simpa [hlen] using hi)
  have hin : k + 15 - i < (scheduleExtend k b.toList.reverse).length := by omega
  simp [List.getD_eq_getElem?_getD, hword, hlen, List.getElem?_eq_getElem hin]

theorem getElem?_schedule_of_lt_80 (b : Block) {t : Nat} (ht : t < 80) :
    (schedule b)[t]? = some ((schedule b).getD t 0) := by
  have hlen : t < (schedule b).length := by rwa [length_schedule]
  simp [List.getD_eq_getElem?_getD, hlen]

/-- R130: the first sixteen words are the block's. -/
theorem getD_schedule_of_lt_16 (b : Block) {t : Nat} (ht : t < 16) :
    (schedule b).getD t 0 = b[t]?.getD 0 := by
  have hpos : 16 - 1 - (15 - t) = t := by omega
  rw [getD_schedule_eq_getD_scheduleExtend b (Nat.zero_le 64) (by omega), Nat.zero_add]
  simp [scheduleExtend, List.getD_eq_getElem?_getD, hpos, (by omega : 15 - t < 16), ht]

/-- R131: the recurrence. -/
theorem getD_schedule_of_ge_16 (b : Block) {t : Nat} (h16 : 16 ≤ t) (h80 : t < 80) :
    (schedule b).getD t 0 =
      schedMix ((schedule b).getD (t - 3) 0) ((schedule b).getD (t - 8) 0)
        ((schedule b).getD (t - 14) 0) ((schedule b).getD (t - 16) 0) := by
  obtain ⟨k, rfl⟩ := Nat.exists_eq_add_of_le' h16
  have tap (i : Nat) (hi : i < 16) :
      (schedule b).getD (k + 16 - (i + 1)) 0 = (scheduleExtend k b.toList.reverse).getD i 0 := by
    rw [getD_schedule_eq_getD_scheduleExtend b (k := k) (by omega) (by omega)]
    congr 1; omega
  rw [tap 2 (by decide), tap 7 (by decide), tap 13 (by decide), tap 15 (by decide),
    getD_schedule_eq_getD_scheduleExtend b (k := k + 1) (by omega) (by omega), scheduleExtend_succ]
  have hnew : k + 1 + 15 - (k + 16) = 0 := by omega
  rw [hnew]
  rfl

/-! ## The sixteen-word window (R133) -/

/-- Before round `t` the window holds the schedule words of the last sixteen rounds, as many as there were. -/
def WindowHolds (b : Block) (t : Nat) (w : Vector Word 16) : Prop :=
  ∀ j, j < t → t ≤ j + 16 → windowWord w j = (schedule b).getD j 0

theorem windowWord_eq_of_mod_eq (w : Vector Word 16) {i j : Nat} (h : i % 16 = j % 16) :
    windowWord w i = windowWord w j := by
  rw [windowWord, windowWord, h]

theorem getElem?_eq_some_windowWord (w : Vector Word 16) {i : Nat} (hi : i < 16) :
    w[i]? = some (windowWord w i) := by
  simp [windowWord, Nat.mod_eq_of_lt hi, hi]

theorem windowWord_schedWord_same (b : Block) (t : Nat) (w : Vector Word 16) :
    windowWord (schedWord b t w).2 t = (schedWord b t w).1 := by
  simp [windowWord, schedWord, Nat.mod_lt]

theorem windowWord_schedWord_of_ne (b : Block) (t : Nat) (w : Vector Word 16) {j : Nat} (h : t % 16 ≠ j % 16) :
    windowWord (schedWord b t w).2 j = windowWord w j := by
  simp [windowWord, schedWord, Vector.getElem?_set_ne, h]

/-- The word leaving the window, W[t−16], stands where W[t] goes: the window's four taps are the recurrence's. -/
theorem schedWord_fst_of_windowHolds {b : Block} {t : Nat} {w : Vector Word 16} (hw : WindowHolds b t w)
    (ht : t < 80) : (schedWord b t w).1 = (schedule b).getD t 0 := by
  by_cases h16 : t < 16
  · simp only [schedWord, if_pos h16, getD_schedule_of_lt_16 b h16]
  · have hoff : windowWord w t = windowWord w (t - 16) := windowWord_eq_of_mod_eq w (by omega)
    simp only [schedWord, if_neg h16]
    rw [hoff, hw (t - 3) (by omega) (by omega), hw (t - 8) (by omega) (by omega),
      hw (t - 14) (by omega) (by omega), hw (t - 16) (by omega) (by omega)]
    exact (getD_schedule_of_ge_16 b (by omega) ht).symm

theorem windowHolds_schedWord {b : Block} {t : Nat} {w : Vector Word 16} (hw : WindowHolds b t w) (ht : t < 80) :
    WindowHolds b (t + 1) (schedWord b t w).2 := by
  intro j hj hj16
  rcases Nat.lt_succ_iff_lt_or_eq.mp hj with hlt | rfl
  · rw [windowWord_schedWord_of_ne b t w (by omega)]
    exact hw j hlt (by omega)
  · rw [windowWord_schedWord_same]
    exact schedWord_fst_of_windowHolds hw ht

/-! ## The engine's rounds (R29, R155, R156, R158) -/

theorem engineRounds_blk (b : Block) (k : Nat) (r : RoundState) : (engineRounds b k r).blk = r.blk := by
  induction k with
  | zero => rfl
  | succ k ih => exact ih

theorem engineRounds_succ_t (b : Block) (k : Nat) (r : RoundState) :
    (engineRounds b (k + 1) r).t = Fin.ofNat 80 k := rfl

theorem windowHolds_engineRounds (b : Block) {k : Nat} (hk : k ≤ 80) (r : RoundState) :
    WindowHolds b k (engineRounds b k r).w := by
  induction k with
  | zero => exact fun j hj => absurd hj (Nat.not_lt_zero j)
  | succ k ih => exact windowHolds_schedWord (ih (by omega)) hk

/-- One round more of `compress`'s rounds on the schedule. -/
theorem runRounds_take_succ (b : Block) {t : Nat} (ht : t < 80) (v : WorkVars) :
    runRounds 0 ((schedule b).take (t + 1)) v =
      roundStep t (runRounds 0 ((schedule b).take t) v) ((schedule b).getD t 0) := by
  have hlen : ((schedule b).take t).length = t := by simp [length_schedule]; omega
  rw [List.take_add_one, getElem?_schedule_of_lt_80 b ht, runRounds_append, hlen, Nat.zero_add]
  rfl

theorem runRounds_take_80 (b : Block) (v : WorkVars) :
    runRounds 0 ((schedule b).take 80) v = runRounds 0 (schedule b) v := by
  rw [List.take_of_length_le (length_schedule b).le]

/-- The engine's working variables after `k` rounds are those of `compress` after `k` rounds. -/
theorem engineRounds_vars (b : Block) {k : Nat} (hk : k ≤ 80) (r : RoundState) :
    (engineRounds b k r).vars = runRounds 0 ((schedule b).take k) r.vars := by
  induction k with
  | zero => rfl
  | succ k ih =>
    have hword := schedWord_fst_of_windowHolds (windowHolds_engineRounds b (by omega : k ≤ 80) r) hk
    calc (engineRounds b (k + 1) r).vars
        = roundStep k (engineRounds b k r).vars (schedWord b k (engineRounds b k r).w).1 := rfl
      _ = roundStep k (runRounds 0 ((schedule b).take k) r.vars) ((schedule b).getD k 0) := by
          rw [ih (by omega), hword]
      _ = runRounds 0 ((schedule b).take (k + 1)) r.vars := (runRounds_take_succ b hk r.vars).symm

theorem addBack_engineBlock (blk : Fin 2) (cv : CV) (b : Block) (r : RoundState) :
    addBack (engineBlock blk cv b r).vars cv = compress cv b := by
  rw [engineBlock, engineRounds_vars b le_rfl, runRounds_take_80, compress]

/-- After a block the window holds W[64..79]: 64 is a multiple of sixteen, so W[64 + i] stands at position i. -/
theorem engineBlock_w (blk : Fin 2) (cv : CV) (b : Block) (r : RoundState) {i : Nat} (hi : i < 16) :
    (engineBlock blk cv b r).w[i]? = (schedule b)[64 + i]? := by
  rw [getElem?_eq_some_windowWord _ hi, getElem?_schedule_of_lt_80 b (by omega),
    windowWord_eq_of_mod_eq _ (by omega : i % 16 = (64 + i) % 16)]
  exact congrArg some (windowHolds_engineRounds b le_rfl _ (64 + i) (by omega) (by omega))

/-- Settles O52: the window holds the schedule words that the recurrence reads, so that each round of the engine is the
round of `compress`; the working variables of `compress` after t rounds are those of its rounds on W[0..t−1]. -/
theorem engineRoundsComputeCompress : Obligations.EngineRoundsComputeCompress := by
  unfold Obligations.EngineRoundsComputeCompress
  refine ⟨fun x n i hn hn' hi => getLsbD_rotl x hn hn' hi, fun t v w => ⟨rfl, rfl, rfl, rfl, rfl⟩, fun cv b => ?_,
    fun blk cv b r => ⟨addBack_engineBlock blk cv b r, engineRounds_blk b 80 _, ?_,
      fun i hi => engineBlock_w blk cv b r hi⟩⟩
  · refine ⟨fun t => runRounds 0 ((schedule b).take t) (loadVars cv), rfl,
      fun t ht => runRounds_take_succ b ht (loadVars cv), ?_⟩
    simp only [runRounds_take_80]
    rfl
  · rw [engineBlock, engineRounds_succ_t]
    rfl

end Sys2Proof.Machine
end

section
/-! The registers between steps (spec 10_state.md R20 to R30): what one cycle can change of them and by which cause, the
invariant, the fields of STATUS, and O22 and O32 to O36. -/

namespace Sys2Proof.Machine

/-! ## What a host write stores (R54, R85, R185) -/

/-- A host write of `v` to `off` that an idle block takes and that writes H, LEN or M, and the state it leaves. -/
inductive DataWrite (off : BitVec 8) (v : Word) (s : State) : State → Prop where
  | init (hr : regAt off = some .cmd) (hv : v = 0x1) : DataWrite off v s (loadIv s)
  | h (i : Fin 5) (hr : regAt off = some (.h i)) : DataWrite off v s (writeHWord i v s)
  | len (l : Dword) (hr : regAt off = some .lenHi ∨ regAt off = some .lenLo) : DataWrite off v s { s with len := l }
  | m (i : Fin 16) (hr : regAt off = some (.m i)) : DataWrite off v s (writeMWord i v s)

/-- A view of State that does not depend on the inputs, the observations, the count of free values, the error record,
OVF and the sequencer: only a write to the data registers, or to what is known of them, can change it. -/
def DataView {α : Type} (f : State → α) : Prop :=
  ∀ (s : State) (port : List Cycle) (readLog : List ReadRecord) (draws : Nat) (err ovf : Bool) (errcode : ErrCode)
    (seq : Sequencer),
    f { s with port := port, readLog := readLog, draws := draws, err := err, ovf := ovf, errcode := errcode,
               seq := seq } = f s

/-- A completion in the next cycle can change what `f` shows. -/
def CompletionChanges {α : Type} (f : State → α) (s : State) : Prop :=
  ∃ p u, s.seq = .busy p ∧ p.remaining ≤ 1 ∧ f (completeCommand p u) ≠ f u

/-- The decoder is strict (R85 to R87): a command has one word. -/
theorem eq_encode_of_decode {v : Word} {i : Instr} (h : decode v = .command i) : v = encode i := by
  simp only [decode, ne_eq, ite_not] at h
  split at h
  case isTrue hrsv =>
    obtain ⟨-, hopc, hnb⟩ := (decodeOpcode_eq_command_iff _ _ _).mp h
    rw [← packFields_fieldsOf v, encode, ← hopc, ← hnb, ← hrsv]
  case isFalse => cases h

/-- Where the engine's cycle leaves the block idle, it was idle before or its command completed. -/
theorem idle_or_completing_of_engineTick {s : State} (h : (engineTick s).busy = false) :
    s.busy = false ∨ s.completing = true := by
  rcases engineTick_cases s with ⟨hi, -⟩ | ⟨p, hp, hr, -⟩ | ⟨p, -, -, he⟩
  · exact .inl (busy_of_idle hi)
  · exact .inr ((completing_eq_true_iff s).mpr ⟨p, hp, hr⟩)
  · simp [he, State.busy] at h

section
variable {α : Type} {f : State → α} (hf : DataView f)
include hf

theorem DataView.apply_popPort (s : State) : f s.popPort = f s := hf s _ _ _ _ _ _ _

theorem DataView.apply_drawOrder (s : State) : f (drawOrder s) = f s := hf s _ _ _ _ _ _ _

theorem DataView.apply_hostRead (off : BitVec 8) (s : State) : f (hostRead off s) = f s := hf s _ _ _ _ _ _ _

theorem DataView.apply_recordError (c : ErrCode) (s : State) : f (recordError c s) = f s := hf s _ _ _ _ _ _ _

theorem DataView.apply_clearErrors (s : State) : f (clearErrors s) = f s := hf s _ _ _ _ _ _ _

theorem DataView.apply_issue (op : EngineOp) (n : BitVec 6) (l : Nat) (s : State) : f (issue op n l s) = f s :=
  hf s _ _ _ _ _ _ _

/-- The engine's cycle changes data only where it completes a command. -/
theorem DataView.engineTick_change {s : State} (hne : f (engineTick s) ≠ f s) : CompletionChanges f s := by
  rcases engineTick_cases s with ⟨-, he⟩ | ⟨p, hp, hr, he⟩ | ⟨p, -, -, he⟩
  · exact absurd (congrArg f he) hne
  · exact ⟨p, s, hp, hr, he ▸ hne⟩
  · exact absurd ((congrArg f he).trans (hf s _ _ _ _ _ _ _)) hne

/-- Of the commands INIT alone changes data at the write that issues it. -/
theorem DataView.exec_change {i : Instr} {s t : State} (h : exec i s = .next t) (hne : f t ≠ f s) :
    i = .init ∧ t = loadIv s := by
  rcases exec_next_cases h with ⟨-, rfl⟩ | ⟨-, ⟨-, rfl⟩ | hinit | ⟨-, rfl⟩ | ⟨-, rfl⟩ | ⟨n, -, rfl⟩ | ⟨n, -, rfl⟩⟩
  · exact absurd (hf.apply_recordError _ s) hne
  · exact absurd rfl hne
  · exact hinit
  · exact absurd (hf.apply_clearErrors s) hne
  · exact absurd (hf.apply_issue _ _ _ s) hne
  · exact absurd (hf.apply_issue _ _ _ s) hne
  · exact absurd (hf.apply_issue _ _ _ s) hne

/-- While BUSY no access changes data, and none touches the command in flight (R55, R222, R223). -/
theorem DataView.hostAccess_of_busy {a : Access} {s t : State} (h : hostAccess a s = .next t) (hb : s.busy = true) :
    f t = f s ∧ t.seq = s.seq :=
  hostAccess_keeps (P := fun u => f u = f s ∧ u.seq = s.seq) h ⟨rfl, rfl⟩
    (fun off => ⟨hf.apply_hostRead off s, rfl⟩)
    (fun c _ => ⟨hf.apply_recordError c s, rfl⟩)
    (fun _ _ hi => by simp [hb] at hi)
    (fun _ _ hi => by simp [hb] at hi)

theorem DataView.hostWrite_change {off : BitVec 8} {v : Word} {s t : State} (h : hostWrite off v s = .next t)
    (hb : s.busy = false) (hne : f t ≠ f s) : DataWrite off v s t := by
  rcases hostWrite_next_cases h with ⟨-, rfl⟩ | ⟨hr, hi⟩ | ⟨r, hr, -, rfl⟩
  · exact absurd rfl hne
  · rcases issueCommand_next_cases hi with ⟨-, rfl⟩ | ⟨-, -, rfl⟩ | ⟨-, i, hd, he⟩
    · exact absurd (hf.apply_recordError _ s) hne
    · exact absurd (hf.apply_recordError _ s) hne
    · obtain ⟨rfl, rfl⟩ := hf.exec_change he hne
      exact .init hr ((eq_encode_of_decode hd).trans (by decide))
  · rcases writeReg_cases r v s with hw | ⟨hb', -⟩ | ⟨-, ⟨i, rfl, hw⟩ | ⟨l, rfl | rfl, hw⟩ | ⟨i, rfl, hw⟩⟩
    · exact absurd (congrArg f hw) hne
    · simp [hb] at hb'
    · exact hw ▸ .h i hr
    · exact hw ▸ .len l (.inl hr)
    · exact hw ▸ .len l (.inr hr)
    · exact hw ▸ .m i hr

/-- An access changes data only as a data write to an idle block. -/
theorem DataView.hostAccess_change {a : Access} {s t : State} (h : hostAccess a s = .next t) (hne : f t ≠ f s) :
    s.busy = false ∧ ∃ off v, a = .write (.window off) 4 v ∧ DataWrite off v s t := by
  have hb : s.busy = false := by
    by_contra hb
    exact hne (hf.hostAccess_of_busy h (by simpa using hb)).1
  rcases hostAccess_next_cases h with ⟨off, -, rfl⟩ | ⟨off, v, ha, hw⟩
  · exact absurd (hf.apply_hostRead off s) hne
  · exact ⟨hb, off, v, ha, hf.hostWrite_change hw hb hne⟩

/-- The access of the next cycle, after the engine's cycle on `w`, which is `s` as far as `f` and the sequencer go:
the completion or the access has changed data. -/
theorem DataView.accessAfterTick_change {a : Access} {s w t : State}
    (hc : s.nextCycle = { rst := false, access := some a }) (hw : f w = f s) (hseq : w.seq = s.seq)
    (h : hostAccess a (engineTick w) = .next t) (hne : f t ≠ f s) :
    CompletionChanges f s ∨ ∃ off v u, s.takesWrite off v ∧ f u = f s ∧ DataWrite off v u t := by
  by_cases htick : f (engineTick w) = f w
  · obtain ⟨hb, off, v, rfl, hwrite⟩ := hf.hostAccess_change h (htick.trans hw ▸ hne)
    have htake := idle_or_completing_of_engineTick hb
    rw [State.busy, State.completing, hseq] at htake
    exact .inr ⟨off, v, _, ⟨hc, htake⟩, htick.trans hw, hwrite⟩
  · obtain ⟨p, u, hp, hcompl⟩ := hf.engineTick_change htick
    exact .inl ⟨p, u, hseq ▸ hp, hcompl⟩

/-- Everything that can change data in a step: reset, a completion, or a data write that the block takes. -/
theorem DataView.step_change {s t : State} (h : step s = .next t) (hne : f t ≠ f s) :
    s.nextCycle.rst = true ∨ CompletionChanges f s ∨
    ∃ off v u, s.takesWrite off v ∧ f u = f s ∧ DataWrite off v u t := by
  have hpop := hf.apply_popPort s
  have hdraw := (hf.apply_drawOrder s.popPort).trans hpop
  have hcycle {a : Access} (hrst : s.nextCycle.rst = false) (ha : s.nextCycle.access = some a) :
      s.nextCycle = { rst := false, access := some a } := by rw [← hrst, ← ha]
  rcases portCycle_next_cases h with ⟨hrst, -⟩ | ⟨-, -, rfl⟩ | ⟨a, hrst, ha, -, hu⟩ | ⟨a, hrst, ha, -, hu⟩ |
    ⟨a, u, -, -, hcompleting, hu, rfl⟩
  · exact .inl hrst
  · exact .inr (.inl (hf.engineTick_change (s := s.popPort) (hpop ▸ hne)))
  · exact .inr (hf.accessAfterTick_change (hcycle hrst ha) hpop rfl hu hne)
  · exact .inr (hf.accessAfterTick_change (hcycle hrst ha) hdraw rfl hu hne)
  · obtain ⟨q, hq, -⟩ := (completing_eq_true_iff _).mp hcompleting
    obtain ⟨hfu, hseq⟩ := hf.hostAccess_of_busy hu ((busy_eq_true_iff _).mpr ⟨q, hq⟩)
    obtain ⟨p, v, hp, hcompl⟩ := hf.engineTick_change (hfu.trans hdraw ▸ hne)
    exact .inr (.inl ⟨p, v, hseq.symm.trans hp, hcompl⟩)

end

/-! ## Which causes reach which register (R21 to R25, R134) -/

theorem dataView_h : DataView fun s => (s.h, s.hKnown) := fun _ _ _ _ _ _ _ _ => rfl

theorem dataView_len : DataView State.len := fun _ _ _ _ _ _ _ _ => rfl

theorem dataView_m : DataView fun s => (s.m, s.mWritten) := fun _ _ _ _ _ _ _ _ => rfl

theorem dataView_pbuf : DataView fun s => (s.pbuf, s.nblk, s.pbufKnown) := fun _ _ _ _ _ _ _ _ => rfl

/-- Only COMPRESS and FINAL write H and LEN (R159, R186); PAD leaves both (R114). -/
theorem op_mem_of_completeCommand_hash_change {p : Pending} {u : State}
    (hne : (completeCommand p u).h ≠ u.h ∨ (completeCommand p u).hKnown ≠ u.hKnown ∨
      (completeCommand p u).len ≠ u.len) : p.op ∈ [EngineOp.compress, .final] := by
  cases hop : p.op with
  | compress => decide
  | pad => simp [completeCommand, hop] at hne
  | final => decide

/-- Only PAD and FINAL write PBUF and NBLK (R114, R186); COMPRESS leaves both (R159). -/
theorem op_mem_of_completeCommand_pbuf_change {p : Pending} {u : State}
    (hne : (completeCommand p u).pbuf ≠ u.pbuf ∨ (completeCommand p u).nblk ≠ u.nblk ∨
      (completeCommand p u).pbufKnown ≠ u.pbufKnown) : p.op ∈ [EngineOp.pad, .final] := by
  cases hop : p.op with
  | compress => simp [completeCommand, hop] at hne
  | pad => decide
  | final => decide

/-- Settles O33: of the causes of a change, a completion of PAD and a write to LEN or M leave H. -/
theorem onlyTheseWriteTheChainingValue : Obligations.OnlyTheseWriteTheChainingValue := by
  intro s t h hne
  have hview : (t.h, t.hKnown) ≠ (s.h, s.hKnown) := by
    simpa only [ne_eq, Prod.mk.injEq, not_and_or] using hne
  rcases dataView_h.step_change h hview with hrst | ⟨p, u, hp, hr, hcompl⟩ | ⟨off, v, u, htake, hu, hw⟩
  · exact .inl hrst
  · refine .inr (.inl ⟨p, hp, hr, op_mem_of_completeCommand_hash_change (u := u) ?_⟩)
    simp only [ne_eq, Prod.mk.injEq, not_and_or] at hcompl
    exact hcompl.imp_right .inl
  · rw [← hu] at hview
    cases hw with
    | init hreg hv => exact .inr (.inr (.inr ⟨off, hreg, hv ▸ htake⟩))
    | h i hreg => exact .inr (.inr (.inl ⟨off, v, i, hreg, htake⟩))
    | len l hreg => exact absurd rfl hview
    | m i hreg => exact absurd rfl hview

/-- Settles O34: of the causes of a change, a completion of PAD and a write to H or M leave LEN. -/
theorem onlyTheseWriteTheLength : Obligations.OnlyTheseWriteTheLength := by
  intro s t h hne
  rcases dataView_len.step_change h hne with hrst | ⟨p, u, hp, hr, hcompl⟩ | ⟨off, v, u, htake, hu, hw⟩
  · exact .inl hrst
  · exact .inr (.inl ⟨p, hp, hr, op_mem_of_completeCommand_hash_change (.inr (.inr hcompl))⟩)
  · rw [← hu] at hne
    cases hw with
    | init hreg hv => exact .inr (.inr (.inr ⟨off, hreg, hv ▸ htake⟩))
    | h i hreg => exact absurd rfl hne
    | len l hreg => exact .inr (.inr (.inl ⟨off, v, hreg, htake⟩))
    | m i hreg => exact absurd rfl hne

/-- Settles O35: no completion writes M, and of the data writes only that of a word of M does. -/
theorem onlyTheHostWritesTheBlockBuffer : Obligations.OnlyTheHostWritesTheBlockBuffer := by
  intro s t h hne
  have hview : (t.m, t.mWritten) ≠ (s.m, s.mWritten) := by
    simpa only [ne_eq, Prod.mk.injEq, not_and_or] using hne
  rcases dataView_m.step_change h hview with hrst | ⟨p, u, -, -, hcompl⟩ | ⟨off, v, u, htake, hu, hw⟩
  · exact .inl hrst
  · simp at hcompl
  · obtain ⟨hm, hwritten⟩ := Prod.mk.inj hu
    rw [← hu] at hview
    cases hw with
    | init hreg hv => exact absurd rfl hview
    | h i hreg => exact absurd rfl hview
    | len l hreg => exact absurd rfl hview
    | m i hreg =>
      refine .inr ⟨off, v, i, hreg, htake, ?_, ?_⟩
      · rw [writeMWord_m, hm]
      · rw [writeMWord_mWritten, hwritten]

/-- Settles O36: no data write reaches PBUF or NBLK, and of the completions that of COMPRESS leaves them. -/
theorem onlyPadAndFinalWriteThePadBuffer : Obligations.OnlyPadAndFinalWriteThePadBuffer := by
  intro s t h hne
  have hview : (t.pbuf, t.nblk, t.pbufKnown) ≠ (s.pbuf, s.nblk, s.pbufKnown) := by
    simpa only [ne_eq, Prod.mk.injEq, not_and_or] using hne
  rcases dataView_pbuf.step_change h hview with hrst | ⟨p, u, hp, hr, hcompl⟩ | ⟨off, v, u, -, hu, hw⟩
  · exact .inl hrst
  · refine .inr ⟨p, hp, hr, op_mem_of_completeCommand_pbuf_change (u := u) ?_⟩
    simpa only [ne_eq, Prod.mk.injEq, not_and_or] using hcompl
  · rw [← hu] at hview
    cases hw <;> exact absurd rfl hview

/-! ## The invariant (R25, R30, R55, R111, R221) -/

theorem latencyOf_pos (op : EngineOp) (n : Nat) : 1 ≤ latencyOf op n := by
  cases op <;> exact Nat.le_add_left 1 _

/-- Idle, there is no snapshot and no latency to speak of. -/
theorem inv_of_idle {s : State} (hi : s.seq = .idle) (he : s.errorRecordOk) (hp : s.padBufferOk) : s.Inv where
  errorRecord := he
  snapshot := fun p h => by simp [hi] at h
  latency := fun p h => by simp [hi] at h
  padBuffer := hp

theorem inv_applyReset (s : State) : (applyReset s).Inv :=
  inv_of_idle rfl (by simp [State.errorRecordOk]) (by simp [State.padBufferOk])

theorem inv_recordError {s : State} (hs : s.Inv) {c : ErrCode} (hc : c ≠ .none) : (recordError c s).Inv where
  errorRecord := by
    have he := hs.errorRecord
    cases hb : s.err <;> simp_all [State.errorRecordOk]
  snapshot := hs.snapshot
  latency := hs.latency
  padBuffer := hs.padBuffer

theorem inv_issue {s : State} (hs : s.Inv) (op : EngineOp) (n : BitVec 6) :
    (issue op n (latencyOf op n.toNat) s).Inv where
  errorRecord := hs.errorRecord
  snapshot := by
    intro p hp
    cases hp
    exact ⟨rfl, rfl, rfl⟩
  latency := by
    intro p hp
    cases hp
    exact ⟨latencyOf_pos op _, le_rfl⟩
  padBuffer := hs.padBuffer

theorem inv_exec {i : Instr} {s t : State} (hs : s.Inv) (h : exec i s = .next t) : t.Inv := by
  rcases exec_next_cases h with ⟨-, rfl⟩ |
    ⟨hb, ⟨-, rfl⟩ | ⟨-, rfl⟩ | ⟨-, rfl⟩ | ⟨-, rfl⟩ | ⟨n, -, rfl⟩ | ⟨n, -, rfl⟩⟩
  · exact inv_recordError hs (by decide)
  · exact hs
  · exact inv_of_idle (idle_of_busy_false hb) hs.errorRecord hs.padBuffer
  · exact inv_of_idle (idle_of_busy_false hb) (by simp [State.errorRecordOk]) hs.padBuffer
  · exact inv_issue hs .compress 0
  · exact inv_issue hs .pad _
  · exact inv_issue hs .final _

theorem inv_writeReg {s : State} (hs : s.Inv) (hb : s.busy = false) (r : Reg) (v : Word) : (writeReg r v s).Inv := by
  have hi := idle_of_busy_false hb
  rcases writeReg_cases r v s with hw | ⟨-, hw⟩ | ⟨-, ⟨i, -, hw⟩ | ⟨l, -, hw⟩ | ⟨i, -, hw⟩⟩
  · exact hw.symm ▸ hs
  · exact hw ▸ inv_recordError hs (by decide)
  · exact hw ▸ inv_of_idle hi hs.errorRecord hs.padBuffer
  · exact hw ▸ inv_of_idle hi hs.errorRecord hs.padBuffer
  · exact hw ▸ inv_of_idle hi hs.errorRecord hs.padBuffer

theorem inv_hostAccess {a : Access} {s t : State} (hs : s.Inv) (h : hostAccess a s = .next t) : t.Inv :=
  hostAccess_keeps h hs
    (fun _ => ⟨hs.errorRecord, hs.snapshot, hs.latency, hs.padBuffer⟩)
    (fun _ hc => inv_recordError hs hc)
    (fun r v hb => inv_writeReg hs hb r v)
    (fun _ _ _ he => inv_exec hs he)

theorem paddedTail_nblk_ne_zero (p : Pending) : (paddedTail p).1 ≠ 0 := by
  rw [paddedTail_nblk, tailBlockCount]
  split <;> decide

/-- The bytes of one block end at word 16 of PBUF (R111). -/
theorem pbufOfBytes_paddedTail_eq_zero {p : Pending} (h1 : (paddedTail p).1 = 1) (j : Fin 32) (hj : 16 ≤ j.val) :
    (pbufOfBytes (paddedTail p).2)[j] = 0 := by
  have hlen : (paddedTail p).2.length = 64 := by rw [paddedTail_length, h1]; rfl
  have hword : (pbufOfBytes (paddedTail p).2)[j] = wordOfBytes (paddedTail p).2 j :=
    getElem_tabulate 32 _ j.val j.isLt
  rw [hword]
  exact wordOfBytes_beyond _ _ (by omega)

theorem padBufferOk_writePaddedTail (p : Pending) (s : State) : (writePaddedTail p s).padBufferOk := by
  intro hk
  refine ⟨paddedTail_nblk_ne_zero p, fun h1 j hj => ?_⟩
  rw [writePaddedTail_pbufKnown] at hk
  rw [writePaddedTail_pbuf, padded_of_wrote hk]
  exact pbufOfBytes_paddedTail_eq_zero h1 j hj

theorem padBufferOk_completeCommand {s : State} (hs : s.padBufferOk) (p : Pending) :
    (completeCommand p s).padBufferOk := by
  cases hop : p.op <;> simp only [completeCommand, hop]
  case compress => exact hs
  case pad => exact padBufferOk_writePaddedTail p s
  case final => exact padBufferOk_writePaddedTail p s

theorem inv_completeCommand {s : State} (hs : s.Inv) (p : Pending) : (completeCommand p s).Inv :=
  inv_of_idle (completeCommand_seq p s)
    (by rw [State.errorRecordOk, completeCommand_err, completeCommand_errcode]; exact hs.errorRecord)
    (padBufferOk_completeCommand hs.padBuffer p)

theorem inv_engineTick {s : State} (hs : s.Inv) : (engineTick s).Inv := by
  rcases engineTick_cases s with ⟨-, he⟩ | ⟨p, -, -, he⟩ | ⟨p, hp, hr, he⟩ <;> rw [he]
  · exact hs
  · exact inv_completeCommand hs p
  · refine ⟨hs.errorRecord, fun q hq => ?_, fun q hq => ?_, hs.padBuffer⟩ <;> cases hq
    · exact hs.snapshot p hp
    · have hlat := (hs.latency p hp).2
      exact ⟨by dsimp only; omega, by dsimp only; omega⟩

theorem inv_drawOrder {s : State} (hs : s.Inv) : (drawOrder s).Inv :=
  ⟨hs.errorRecord, hs.snapshot, hs.latency, hs.padBuffer⟩

theorem inv_popPort {s : State} (hs : s.Inv) : s.popPort.Inv :=
  ⟨hs.errorRecord, hs.snapshot, hs.latency, hs.padBuffer⟩

/-- Settles O32: reset, the engine's cycle and every access keep the invariant, and so does each order of the two. -/
theorem everyStepKeepsTheInvariant : Obligations.EveryStepKeepsTheInvariant := by
  intro s t hs h
  have hpop := inv_popPort hs
  rcases portCycle_next_cases h with ⟨-, -, rfl⟩ | ⟨-, -, rfl⟩ | ⟨a, -, -, -, hu⟩ | ⟨a, -, -, -, hu⟩ |
    ⟨a, u, -, -, -, hu, rfl⟩
  · exact inv_applyReset _
  · exact inv_engineTick hpop
  · exact inv_hostAccess (inv_engineTick hpop) hu
  · exact inv_hostAccess (inv_engineTick (inv_drawOrder hpop)) hu
  · exact inv_engineTick (inv_hostAccess (inv_drawOrder hpop) hu)

/-! ## STATUS (R25, R220) -/

/-- STATUS as a number: each field at the weight of its lowest bit. -/
theorem toNat_statusWith (nb : BitVec 2) (s : State) :
    (statusWith nb s).toNat =
      256 * s.errcode.bits.toNat + 16 * nb.toNat + 4 * s.ovf.toNat + 2 * s.err.toNat + s.busy.toNat := by
  simp only [statusWith, packStatus, append_toNat, BitVec.toNat_ofBool, BitVec.toNat_ofNat]
  omega

theorem getLsbD_eq_of_toNat {v : Word} {i : Nat} {b : Bool} (h : v.toNat / 2 ^ i % 2 = b.toNat) : v.getLsbD i = b := by
  rw [BitVec.getLsbD, Nat.testBit_eq_decide_div_mod_eq, h]
  cases b <;> rfl

theorem extractLsb'_eq_of_toNat {v : Word} {start len : Nat} {x : BitVec len}
    (h : v.toNat / 2 ^ start % 2 ^ len = x.toNat) : v.extractLsb' start len = x := by
  apply BitVec.eq_of_toNat_eq
  rwa [BitVec.extractLsb'_toNat, Nat.shiftRight_eq_div_pow]

/-- Settles O22: each field is what division leaves of STATUS's number. -/
theorem statusFieldsAndReservedBits : Obligations.StatusFieldsAndReservedBits := by
  intro s nb
  have hnblk : ∀ k : Fin 3, (nblkBits k).toNat = k.val ∧ nblkBits k ≠ 3 := by decide
  have hstatus := toNat_statusWith nb s
  have hbusy := s.busy.toNat_le
  have herr := s.err.toNat_le
  have hovf := s.ovf.toNat_le
  have hcode : (statusWith nb s).extractLsb' 8 4 = s.errcode.bits := extractLsb'_eq_of_toNat (by omega)
  refine ⟨getLsbD_eq_of_toNat (by omega), getLsbD_eq_of_toNat (by omega), getLsbD_eq_of_toNat (by omega),
    getLsbD_eq_of_toNat ?_, extractLsb'_eq_of_toNat (by omega), extractLsb'_eq_of_toNat ?_,
    extractLsb'_eq_of_toNat ?_, ?_, hnblk s.nblk⟩
  · change _ = 0; omega
  · change _ = 0; omega
  · change _ = 0; omega
  · rw [hcode]
    cases s.errcode <;> rfl

end Sys2Proof.Machine
end

section
/-! The register window (spec 20_memory.md R50 to R65): the register map, what one word read and one word write at the
port do, the command that a step issues, and the addresses of a platform; O20, O21, O8, O17, O18, O19 and O58. -/

namespace Sys2Proof.Machine

/-! ## The register map (R51, R52) -/

theorem toNat_alignedOffset (off : BitVec 8) : (off &&& 0xFC).toNat = 4 * (off.toNat / 4) := by
  revert off
  decide

/-- R52: the port decodes the word of the window that the offset lies in. -/
theorem regAt_eq_regAtWord (off : BitVec 8) : regAt off = regAtWord (off.toNat / 4) := by
  have hlt := off.isLt
  rw [regAt, BitVec.extractLsb'_toNat, Nat.shiftRight_eq_div_pow, Nat.mod_eq_of_lt (by omega)]

theorem regAt_alignedOffset (off : BitVec 8) : regAt (off &&& 0xFC) = regAt off := by
  rw [regAt_eq_regAtWord, regAt_eq_regAtWord, toNat_alignedOffset, Nat.mul_div_cancel_left _ (by decide)]

theorem regAt_eq_some_iff (off : BitVec 8) (r : Reg) : regAt off = some r ↔ r.offset = off &&& 0xFC := by
  refine ⟨offset_of_regAt, fun h => ?_⟩
  rw [← regAt_alignedOffset, ← h, regAt_offset]

/-- The reserved words of R51's table. -/
theorem regAt_eq_none_iff (off : BitVec 8) :
    regAt off = none ↔ off.toNat / 4 = 3 ∨ off.toNat / 4 = 9 ∨ (12 ≤ off.toNat / 4 ∧ off.toNat / 4 < 16) := by
  have hlt := off.isLt
  rw [regAt_eq_regAtWord, regAtWord]
  split_ifs <;> simp only [false_iff, true_iff] <;> omega

/-- Settles O17: a register's own offset is a multiple of 4, and the map finds it from each of the four offsets of its
word. -/
theorem registerMap : Obligations.RegisterMap := by
  refine ⟨rfl, rfl, rfl, fun i => ?_, rfl, rfl, fun i => ?_, fun j => ?_, fun off r => ?_, regAt_eq_none_iff⟩
  · simp only [Reg.offset, BitVec.toNat_ofNat]; omega
  · simp only [Reg.offset, BitVec.toNat_ofNat]; omega
  · simp only [Reg.offset, BitVec.toNat_ofNat]; omega
  · rw [regAt_eq_some_iff, ← BitVec.toNat_inj, toNat_alignedOffset]

/-! ## One access at the port (R50, R52 to R55) -/

theorem hostAccess_read (off : BitVec 8) (s : State) :
    hostAccess (.read (.window off) 4) s = .next (hostRead off s) := rfl

theorem hostAccess_write (off : BitVec 8) (v : Word) (s : State) :
    hostAccess (.write (.window off) 4 v) s = hostWrite off v s := rfl

theorem oneWord_of_ne {bytes : Nat} (h : bytes ≠ 4) (o : Host.Outcome State Fault Refusal) :
    oneWord bytes o = .refused (.notOneWord bytes) := if_neg h

theorem readOffset_congr {off off' : BitVec 8} (h : regAt off = regAt off') (s : State) :
    readOffset off s = readOffset off' s := by
  rw [readOffset, readOffset, h]

theorem hostWrite_congr {off off' : BitVec 8} (h : regAt off = regAt off') (v : Word) (s : State) :
    hostWrite off v s = hostWrite off' v s := by
  rw [hostWrite, hostWrite, h]

/-- Settles O18: the width and the window are checked before the offset is looked at, and the offset counts by its
register alone. -/
theorem onlyAlignedWordsExistAtThePort : Obligations.OnlyAlignedWordsExistAtThePort := by
  refine ⟨fun s off n v hn => ⟨oneWord_of_ne hn _, oneWord_of_ne hn _⟩, fun s a n v => ⟨rfl, rfl⟩,
    fun s off v => ⟨?_, readOffset_congr (regAt_alignedOffset off).symm s⟩⟩
  rw [hostAccess_write, hostAccess_write]
  exact hostWrite_congr (regAt_alignedOffset off).symm v s

/-! ## Reads (R14, R53, R56) -/

theorem readOffset_of_reserved {off : BitVec 8} (h : regAt off = none) (s : State) : readOffset off s = 0 := by
  rw [readOffset, h]

theorem readOffset_of_regAt {off : BitVec 8} {r : Reg} (h : regAt off = some r) (s : State) :
    readOffset off s = readReg r s := by
  rw [readOffset, h]

theorem valueIf_eq_ite (s : State) (v : Word) {known : Bool} {p : Prop} [Decidable p] (h : known = true ↔ p) :
    s.valueIf known v = if p then v else Config.freeWord s.stream s.draws := by
  simp only [State.valueIf, State.freshWord, h]

/-- Settles O20: the value is that of the register at the offset, by the conditions under which it is known. -/
theorem hostReadReturnsTheRegister : Obligations.HostReadReturnsTheRegister := by
  intro s off
  have hidle : (!s.busy) = true ↔ s.busy = false := by simp
  have hboth (known : Bool) : (!s.busy && known) = true ↔ s.busy = false ∧ known = true := by simp
  refine ⟨readOffset off s, hostAccess_read off s, fun h => readOffset_of_reserved h s,
    fun h => readOffset_of_regAt h s, fun h => readOffset_of_regAt h s, fun i h => ?_,
    fun h => readOffset_of_regAt h s, fun i h => ?_, fun h => ?_, fun h => ?_, fun j h => ?_⟩
  · exact (readOffset_of_regAt h s).trans (valueIf_eq_ite s _ Iff.rfl)
  · exact (readOffset_of_regAt h s).trans (valueIf_eq_ite s _ (hboth _))
  · exact (readOffset_of_regAt h s).trans (valueIf_eq_ite s _ hidle)
  · exact (readOffset_of_regAt h s).trans (valueIf_eq_ite s _ hidle)
  · exact (readOffset_of_regAt h s).trans (valueIf_eq_ite s _ (hboth _))

/-! ## Writes (R54, R55) -/

theorem hostWrite_of_reserved {off : BitVec 8} (h : regAt off = none) (v : Word) (s : State) :
    hostWrite off v s = .next s := by
  rw [hostWrite, h]

theorem hostWrite_of_regAt {off : BitVec 8} {r : Reg} (h : regAt off = some r) (hr : r ≠ .cmd) (v : Word) (s : State) :
    hostWrite off v s = .next (writeReg r v s) := by
  rw [hostWrite, h]
  cases r
  case cmd => exact absurd rfl hr
  all_goals rfl

/-- The registers that a write stores into while idle, and drops while BUSY, are H, LEN and M (R54, R55). -/
theorem writeReg_data_of_busy {r : Reg} (h : (∃ i, r = .h i) ∨ r = .lenHi ∨ r = .lenLo ∨ ∃ i, r = .m i) {s : State}
    (hb : s.busy = true) (v : Word) : writeReg r v s = recordError .wrBusy s := by
  rcases h with ⟨i, rfl⟩ | rfl | rfl | ⟨i, rfl⟩ <;> rw [writeReg, writeUnlessBusy_of_busy hb]

/-- Settles O21: while idle each data register stores its word, in LEN beside the half that stays. -/
theorem hostWriteStoresTheRegister : Obligations.HostWriteStoresTheRegister := by
  intro s off v
  simp only [hostAccess_write]
  refine ⟨hostAccess_cmd, fun hb => ⟨fun i h => ?_, fun h => ?_, fun h => ?_, fun i h => ?_⟩, fun hb r h hr => ?_, ?_⟩
  · refine ⟨CV.withWord s.h i v, ?_, by simp, fun j hj => by simp [hj]⟩
    rw [hostWrite_of_regAt h (by simp), writeReg, writeUnlessBusy_of_idle hb, writeHWord]
  · refine ⟨v ++ loWord s.len, ?_, hiWord_append v _, loWord_append v _⟩
    rw [hostWrite_of_regAt h (by simp), writeReg, writeUnlessBusy_of_idle hb]
  · refine ⟨hiWord s.len ++ v, ?_, loWord_append _ v, hiWord_append _ v⟩
    rw [hostWrite_of_regAt h (by simp), writeReg, writeUnlessBusy_of_idle hb]
  · rw [hostWrite_of_regAt h (by simp), writeReg, writeUnlessBusy_of_idle hb, writeMWord]
  · rw [hostWrite_of_regAt h (by rintro rfl; simp at hr), writeReg_data_of_busy hr hb]
  · rintro (h | h | h | ⟨j, h⟩)
    · exact hostWrite_of_reserved h v s
    · exact hostWrite_of_regAt h (by simp) v s
    · exact hostWrite_of_regAt h (by simp) v s
    · exact hostWrite_of_regAt h (by simp) v s

/-! ## The command of a step (R63, R65, R85, R226) -/

theorem hostAccess_command {off : BitVec 8} {v : Word} {i : Instr} (hreg : regAt off = some .cmd)
    (hdec : decode v = .command i) (s : State) : hostAccess (.write (.window off) 4 v) s = exec i s :=
  (hostAccess_cmd hreg).trans (issueCommand_of_command hdec)

theorem decode_of_decodeTableWord {nbits w : Nat} {i : Instr} (h : decodeTableWord nbits w = some i) :
    decode (BitVec.ofNat 32 (w % 2 ^ nbits)) = .command i := by
  simp only [decodeTableWord] at h
  split at h
  · split at h
    · cases h; assumption
    · cases h
  · cases h

section
/-! The cycle of a write of a decodable word to CMD, by what the engine does in it. -/
variable {off : BitVec 8} {v : Word} {i : Instr} (hreg : regAt off = some .cmd) (hdec : decode v = .command i)
include hreg hdec

theorem accessCycle_command_of_idle {s : State} (hs : s.seq = .idle) :
    accessCycle (.write (.window off) 4 v) s = exec i s := by
  rw [accessCycle_of_not_completing (completing_of_idle hs), engineTick_of_idle hs, hostAccess_command hreg hdec]

theorem accessCycle_command_of_more {s : State} {p : Pending} (hs : s.seq = .busy p) (hr : 1 < p.remaining) :
    accessCycle (.write (.window off) 4 v) s =
      exec i { s with seq := .busy { p with remaining := p.remaining - 1 } } := by
  rw [accessCycle_of_not_completing (completing_of_more hs hr), engineTick_of_more hs hr, hostAccess_command hreg hdec]

/-- R226: the completion first and then the command, or the command dropped and then the completion. -/
theorem accessCycle_command_of_last {s : State} {p : Pending} (hs : s.seq = .busy p) (hr : p.remaining ≤ 1) :
    accessCycle (.write (.window off) 4 v) s = exec i (completeCommand p (drawOrder s)) ∨
    accessCycle (.write (.window off) 4 v) s = .next (completeCommand p (recordError .cmdBusy (drawOrder s))) := by
  have hdrawn : (drawOrder s).seq = .busy p := hs
  have hbusy : (drawOrder s).busy = true := (busy_eq_true_iff _).mpr ⟨p, hdrawn⟩
  have hcompleting : s.completing = true := (completing_eq_true_iff s).mpr ⟨p, hs, hr⟩
  rcases accessCycle_of_completing (a := .write (.window off) 4 v) hcompleting with h | h
  · left
    rw [h, engineTick_of_last hdrawn hr, hostAccess_command hreg hdec]
  · right
    rw [h, hostAccess_command hreg hdec, exec_of_busy hbusy, thenTick,
      engineTick_of_last (s := recordError .cmdBusy (drawOrder s)) hdrawn hr]

end

theorem step_of_writeCycle {s : State} {off : BitVec 8} {v : Word} {rest : List Cycle}
    (hp : s.port = writeCycle off v :: rest) :
    step s = accessCycle (.write (.window off) 4 v) { s with port := rest } := by
  rw [step_of_cons hp, portCycle_write]

theorem step_command_of_idle {s : State} {rest : List Cycle} {off : BitVec 8} {v : Word} {i : Instr}
    (hp : s.port = writeCycle off v :: rest) (hreg : regAt off = some .cmd) (hdec : decode v = .command i)
    (hb : s.busy = false) : step s = exec i { s with port := rest } := by
  rw [step_of_writeCycle hp]
  exact accessCycle_command_of_idle hreg hdec (idle_of_busy_false hb)

/-- Settles O8: the write's access runs the command on what the engine's cycle leaves, in each of its three cases. -/
theorem stepRunsTheDecodedCommand : Obligations.StepRunsTheDecodedCommand := by
  refine ⟨fun s rest off v i hp hreg hdec => ⟨step_command_of_idle hp hreg hdec, fun p hs hr => ?_,
    fun p hs hr => ?_⟩, fun s => step_of_nil, fun s nbits w i hb _ hw => ?_⟩
  · rw [step_of_writeCycle hp]
    exact accessCycle_command_of_more hreg hdec hs hr
  · rw [step_of_writeCycle hp]
    exact accessCycle_command_of_last hreg hdec hs hr
  · exact step_command_of_idle (s := s.withFetchWord nbits w) rfl (regAt_offset .cmd) (decode_of_decodeTableWord hw) hb

/-! ## Addresses (R7, R50, R234) -/

theorem sha1Page_strictMono : StrictMono Config.sha1Page :=
  strictMono_nat_of_lt_succ fun k => by rw [Config.sha1Page]; omega

/-- The windows stand in the order of the blocks, and none reaches into the next. -/
theorem sha1Base_add_lt_sha1Base {j k : Nat} (h : j < k) : Config.sha1Base j + 0xFF < Config.sha1Base k := by
  have hpage := sha1Page_strictMono h
  rw [Config.sha1Base, Config.sha1Base]
  omega

theorem inWindow_eq_true_iff (k a : Nat) :
    inWindow k a = true ↔ Config.sha1Base k ≤ a ∧ a ≤ Config.sha1Base k + 0xFF := by
  rw [inWindow, decide_eq_true_iff]
  omega

theorem inWindow_eq_false_iff (k a : Nat) :
    inWindow k a = false ↔ a < Config.sha1Base k ∨ Config.sha1Base k + 0xFF < a := by
  rw [← Bool.not_eq_true, inWindow_eq_true_iff]
  omega

/-- No address is in the windows of two blocks. -/
theorem inWindow_unique {j k a : Nat} (hj : inWindow j a = true) (hk : inWindow k a = true) : j = k := by
  rw [inWindow_eq_true_iff] at hj hk
  rcases Nat.lt_trichotomy j k with hlt | heq | hlt
  · have := sha1Base_add_lt_sha1Base hlt
    omega
  · exact heq
  · have := sha1Base_add_lt_sha1Base hlt
    omega

theorem busAddr_ofNat_window (k : Nat) (off : BitVec 8) :
    BusAddr.ofNat k (Config.sha1Base k + off.toNat) = .window off := by
  have hlt := off.isLt
  have hin : inWindow k (Config.sha1Base k + off.toNat) = true := (inWindow_eq_true_iff k _).mpr (by omega)
  rw [BusAddr.ofNat, if_pos hin, Nat.add_sub_cancel_left, BitVec.ofNat_toNat, BitVec.setWidth_eq]

theorem busAddr_ofNat_outside {k a : Nat} (h : a < Config.sha1Base k ∨ Config.sha1Base k + 0xFF < a) :
    BusAddr.ofNat k a = .outside a := by
  simp [BusAddr.ofNat, (inWindow_eq_false_iff k a).mpr h]

theorem Platform.numbered.stream_getElem {p : Platform} (hp : p.numbered) {k : Nat} (hk : k < p.cores.length) :
    p.cores[k].stream = k :=
  hp k _ (List.getElem?_eq_getElem hk)

theorem Platform.numbered.select_eq_some_iff {p : Platform} (hp : p.numbered) (a k : Nat) :
    p.select a = some k ↔ k < p.cores.length ∧ inWindow k a = true := by
  rw [Platform.select, List.findIdx?_eq_some_iff_getElem]
  constructor
  · rintro ⟨hk, hin, -⟩
    exact ⟨hk, hp.stream_getElem hk ▸ hin⟩
  · rintro ⟨hk, hin⟩
    refine ⟨hk, (hp.stream_getElem hk).symm ▸ hin, fun j hj hjin => ?_⟩
    rw [hp.stream_getElem (hj.trans hk)] at hjin
    exact hj.ne (inWindow_unique hjin hin)

theorem Platform.numbered.select_eq_none_iff {p : Platform} (hp : p.numbered) (a : Nat) :
    p.select a = none ↔ ∀ k, k < p.cores.length → inWindow k a = false := by
  simp only [Option.eq_none_iff_forall_ne_some, ne_eq, hp.select_eq_some_iff, not_and, Bool.not_eq_true]

/-- Settles O19: the pages of the blocks increase, so a window's addresses are its block's alone. -/
theorem windowIsAtItsBase : Obligations.WindowIsAtItsBase := by
  refine ⟨fun k => Nat.mul_mod_right 256 _, fun j k => sha1Base_add_lt_sha1Base,
    fun k off => ⟨rfl, busAddr_ofNat_window k off⟩, fun k a => busAddr_ofNat_outside,
    fun p a hp => ⟨fun k => ?_, ?_⟩⟩
  · rw [hp.select_eq_some_iff, inWindow_eq_true_iff]
  · simp only [hp.select_eq_none_iff, inWindow_eq_false_iff]

/-! ## The digest's bytes (R59) -/

theorem word_ofNat_eq_getD (h : CV) {i : Nat} (hi : i < 5) :
    CV.word h (Fin.ofNat 5 i) = [h.h0, h.h1, h.h2, h.h3, h.h4].getD i 0 := by
  interval_cases i <;> rfl

/-- Settles O58: 4i + k divided by 4 names the word i and leaves the byte k. -/
theorem digestBytesAreBigEndian : Obligations.DigestBytesAreBigEndian := by
  refine fun h => ⟨by simp [digestBytes], fun i k hi hk => ?_⟩
  have hword : (4 * i + k) / 4 = i := by omega
  have hbyte : (4 * i + k) % 4 = k := by omega
  rw [digestBytes, List.getElem?_map, List.getElem?_range (by omega), Option.map_some, hword, hbyte,
    word_ofNat_eq_getD h hi, wordByte]

end Sys2Proof.Machine
end

section
/-! Command words (spec 30_encoding.md): decoding and encoding as inverse, the 132 legal words, the pseudo-instructions,
and `IssueCommand` (R85); O1, O2, O3, O4, O6 and O7. -/

namespace Sys2Proof.Machine

/-! ## Decoding and encoding (R80 to R87) -/

theorem decode_encode (i : Instr) : decode (encode i) = decodeOpcode i.opcode i.tailField := by
  simp [decode, fieldsOf_encode]

/-- The decoder, read backwards: it accepts exactly the words of well-formed commands. -/
theorem decode_eq_command_iff (v : Word) (i : Instr) :
    decode v = .command i ↔ i.wellFormed = true ∧ encode i = v := by
  constructor
  · intro h
    obtain rfl := eq_encode_of_decode h
    rw [decode_encode, decodeOpcode_eq_command_iff] at h
    exact ⟨h.1, rfl⟩
  · rintro ⟨hwf, rfl⟩
    rw [decode_encode, decodeOpcode_eq_command_iff]
    exact ⟨hwf, rfl, rfl⟩

/-- Settles O1: the fields of the word are the command's opcode and tail count, which name it in the opcode map. -/
theorem decodeOfEncodeIsTheCommand : Obligations.DecodeOfEncodeIsTheCommand :=
  fun i hwf => (decode_eq_command_iff _ i).mpr ⟨hwf, rfl⟩

/-- Settles O2: a word that decodes is put together again from the three fields that its command has. -/
theorem legalWordIsTheWordOfItsCommand : Obligations.LegalWordIsTheWordOfItsCommand :=
  fun v i => (decode_eq_command_iff v i).mp

/-! ## The legal words (R87) -/

/-- The commands without a tail count, in the order of their words. -/
def plainCommands : List Instr := [.nop, .init, .compress, .clrerr]

/-- The well-formed PAD commands. -/
def padCommands : List Instr := (List.range 64).map .pad

/-- The well-formed FINAL commands. -/
def finalCommands : List Instr := (List.range 64).map .final

/-- All well-formed commands. -/
def legalCommands : List Instr := plainCommands ++ padCommands ++ finalCommands

theorem mem_padCommands_iff (i : Instr) : i ∈ padCommands ↔ i.wellFormed = true ∧ ∃ n, i = .pad n := by
  cases i <;> simp [padCommands, Instr.wellFormed, tailCountFits]

theorem mem_finalCommands_iff (i : Instr) : i ∈ finalCommands ↔ i.wellFormed = true ∧ ∃ n, i = .final n := by
  cases i <;> simp [finalCommands, Instr.wellFormed, tailCountFits]

theorem mem_legalCommands_iff (i : Instr) : i ∈ legalCommands ↔ i.wellFormed = true := by
  simp only [legalCommands, List.mem_append, mem_padCommands_iff, mem_finalCommands_iff]
  cases i <;> simp [plainCommands, Instr.wellFormed]

theorem nodup_legalCommands : legalCommands.Nodup := by
  have hpad : padCommands.Nodup := List.nodup_range.map fun _ _ h => Instr.pad.inj h
  have hfinal : finalCommands.Nodup := List.nodup_range.map fun _ _ h => Instr.final.inj h
  have hplain : plainCommands.Nodup := by decide
  refine (hplain.append hpad ?_).append hfinal ?_
  · simp [plainCommands, padCommands, List.disjoint_left]
  · simp [plainCommands, padCommands, finalCommands, List.disjoint_left]

/-- No two well-formed commands have one word. -/
theorem encode_inj_of_wellFormed {i j : Instr} (hi : i.wellFormed = true) (hj : j.wellFormed = true)
    (h : encode i = encode j) : i = j := by
  have hdec := decodeOfEncodeIsTheCommand i hi
  rw [h, decodeOfEncodeIsTheCommand j hj] at hdec
  exact (Decoded.command.inj hdec).symm

/-- The words of the well-formed commands with property `P` are the words that decode to a command with `P`. -/
theorem mem_map_encode_iff {l : List Instr} {P : Instr → Prop} (hl : ∀ i, i ∈ l ↔ i.wellFormed = true ∧ P i)
    (v : Word) : v ∈ l.map encode ↔ ∃ i, P i ∧ decode v = .command i := by
  simp only [List.mem_map, hl, decode_eq_command_iff]
  exact exists_congr fun i => by tauto

/-- Settles O3: the lists are the words of the well-formed commands, and distinct commands have distinct words. -/
theorem legalWordsAreOneHundredThirtyTwo : Obligations.LegalWordsAreOneHundredThirtyTwo := by
  have happend : plainCommands.map encode ++ padCommands.map encode ++ finalCommands.map encode =
      legalCommands.map encode := by
    simp only [legalCommands, List.map_append]
  refine ⟨plainCommands.map encode, padCommands.map encode, finalCommands.map encode, by decide,
    by simp [padCommands], by simp [finalCommands], ?_, ?_, fun v => ?_, fun v => ?_, fun v => ?_⟩
  · rw [happend]
    exact nodup_legalCommands.map_on fun i hi j hj =>
      encode_inj_of_wellFormed ((mem_legalCommands_iff i).mp hi) ((mem_legalCommands_iff j).mp hj)
  · simp [plainCommands, padCommands, finalCommands]
  · simp [mem_map_encode_iff mem_padCommands_iff]
  · simp [mem_map_encode_iff mem_finalCommands_iff]
  · rw [happend, mem_map_encode_iff (P := fun _ => True) (by simp [mem_legalCommands_iff])]
    simp

/-! ## Words and pseudo-instructions written out (R90, R91) -/

/-- Settles O4: evaluation of the encoder and the decoder on the words listed. -/
theorem workedEncodings : Obligations.WorkedEncodings := by
  unfold Obligations.WorkedEncodings
  decide

/-- A command word as a number: the tail count above the opcode. -/
theorem encode_toNat (i : Instr) : (encode i).toNat = i.tailField.toNat * 16 + i.opcode.toNat := by
  simp [encode, packFields_toNat]

/-- The word of a command with tail count `n`, as R90 writes it. -/
theorem encode_eq_shiftLeft_or {i : Instr} {n : Nat} (hn : n < 64) (htail : i.tailField = BitVec.ofNat 6 n) :
    encode i = BitVec.ofNat 32 n <<< 4 ||| i.opcode.setWidth 32 := by
  have hopcode : i.opcode.toNat < 2 ^ 4 := i.opcode.isLt
  have hfield : (BitVec.ofNat 6 n).toNat = n := Nat.mod_eq_of_lt hn
  have hshift : (BitVec.ofNat 32 n <<< 4).toNat = n <<< 4 := by
    rw [BitVec.toNat_shiftLeft, BitVec.toNat_ofNat, Nat.mod_eq_of_lt (by omega : n < 2 ^ 32)]
    exact Nat.mod_eq_of_lt (by rw [Nat.shiftLeft_eq]; omega)
  apply BitVec.eq_of_toNat_eq
  rw [encode_toNat, htail, hfield, BitVec.toNat_or, hshift, BitVec.toNat_setWidth,
    Nat.mod_eq_of_lt (by omega), ← Nat.shiftLeft_add_eq_or_of_lt hopcode, Nat.shiftLeft_eq]

/-- Settles O7: each expansion is R90's by definition, and the words of PAD n and FINAL n are those of their fields. -/
theorem pseudoInstructionExpansions : Obligations.PseudoInstructionExpansions := by
  refine ⟨rfl, rfl, rfl, rfl, fun n hn => ⟨?_, ?_⟩, fun l => rfl, fun b i hi => ?_, fun b => ?_, fun h => rfl,
    fun d => rfl, fun l => rfl⟩
  · rw [Pseudo.expand, encode_eq_shiftLeft_or hn rfl]; rfl
  · rw [Pseudo.expand, encode_eq_shiftLeft_or hn rfl]; rfl
  · simp [Pseudo.expand, hi]
  · simp [Pseudo.expand]

/-! ## `IssueCommand` (R85) -/

theorem decodeOpcode_of_reserved {opc : BitVec 4} (nb : BitVec 6) (h : 6 ≤ opc.toNat) :
    decodeOpcode opc nb = .illegal .reservedOpcode := by
  unfold decodeOpcode
  split
  case h_7 => rfl
  all_goals omega

/-- The checks of R85 after the busy check, in their order, on the numbers of the three fields. -/
theorem decode_eq_checks (v : Word) :
    decode v =
      if v.toNat / 1024 ≠ 0 then .illegal .reservedBits
      else if 6 ≤ v.toNat % 16 then .illegal .reservedOpcode
      else if (v.toNat % 16 = 0 ∨ v.toNat % 16 = 1 ∨ v.toNat % 16 = 2 ∨ v.toNat % 16 = 5) ∧
          v.toNat / 16 % 64 ≠ 0 then
        .illegal .tailCountNotZero
      else if v.toNat % 16 = 0 then .command .nop
      else if v.toNat % 16 = 1 then .command .init
      else if v.toNat % 16 = 5 then .command .clrerr
      else if v.toNat % 16 = 2 then .command .compress
      else if v.toNat % 16 = 3 then .command (.pad (v.toNat / 16 % 64))
      else .command (.final (v.toNat / 16 % 64)) := by
  have hrsv : (fieldsOf v).rsv = 0 ↔ v.toNat / 1024 = 0 := by
    rw [← fieldsOf_rsv_toNat, BitVec.toNat_eq]; rfl
  have hnb : (fieldsOf v).nb = 0#6 ↔ v.toNat / 16 % 64 = 0 := by
    rw [← fieldsOf_nb_toNat, BitVec.toNat_eq]; rfl
  have hopc : v.toNat % 16 = 0 ∨ v.toNat % 16 = 1 ∨ v.toNat % 16 = 2 ∨ v.toNat % 16 = 3 ∨ v.toNat % 16 = 4 ∨
      v.toNat % 16 = 5 ∨ 6 ≤ v.toNat % 16 := by omega
  simp only [decode, ne_eq, hrsv]
  rcases hopc with h | h | h | h | h | h | h
  case inr.inr.inr.inr.inr.inr =>
    rw [decodeOpcode_of_reserved _ ((fieldsOf_opc_toNat v).symm ▸ h), if_pos h]
  all_goals simp [decodeOpcode, noTail, hnb, fieldsOf_opc_toNat, fieldsOf_nb_toNat, h]

section
/-! Each command on an idle block (R85, R222). -/
variable {s : State} (h : s.busy = false)
include h

theorem exec_nop_of_idle : exec .nop s = .next s := by
  rw [exec, execNop, whenIdle_of_idle h]

theorem exec_init_of_idle : exec .init s = .next (loadIv s) := by
  rw [exec, execInit, whenIdle_of_idle h]

theorem exec_clrerr_of_idle : exec .clrerr s = .next (clearErrors s) := by
  rw [exec, execClrerr, whenIdle_of_idle h]

theorem exec_compress_of_idle : exec .compress s = .next (issue .compress 0 Config.latCompress s) := by
  rw [exec, execCompress, whenIdle_of_idle h]

theorem exec_pad_of_idle (n : Nat) : exec (.pad n) s = .next (issue .pad (BitVec.ofNat 6 n) Config.latPad s) := by
  rw [exec, execPad, whenIdle_of_idle h]

theorem exec_final_of_idle {n : Nat} (hn : n < 64) :
    exec (.final n) s = .next (issue .final (BitVec.ofNat 6 n) (Config.latFinal n) s) := by
  have hfield : (BitVec.ofNat 6 n).toNat = n := Nat.mod_eq_of_lt hn
  rw [exec, execFinal, whenIdle_of_idle h, hfield]

end

/-- What an idle block makes of a decoded word. -/
def runDecoded (s : State) : Decoded → Host.Outcome State Fault Refusal
  | .illegal _ => .next (recordError .illegalCmd s)
  | .command i => exec i s

theorem issueCommand_of_idle {s : State} (h : s.busy = false) (v : Word) :
    issueCommand v s = runDecoded s (decode v) := by
  unfold issueCommand
  rw [h]
  rfl

/-- Settles O6: on an idle block the decoder's checks are R85's, and each command does what R85 says of it. -/
theorem issueCommandFollowsItsPseudocode : Obligations.IssueCommandFollowsItsPseudocode := by
  intro s off v hreg
  refine ⟨?_, fun op n latency => rfl⟩
  rw [hostAccess_cmd hreg]
  cases hb : s.busy with
  | true => exact if_pos hb
  | false =>
    rw [if_neg Bool.false_ne_true, issueCommand_of_idle hb, decode_eq_checks]
    simp only [apply_ite (runDecoded s)]
    refine ite_congr rfl (fun _ => rfl) fun _ => ?reservedOpcode
    refine ite_congr rfl (fun _ => rfl) fun _ => ?tailCountNotZero
    refine ite_congr rfl (fun _ => rfl) fun _ => ?nop
    refine ite_congr rfl (fun _ => exec_nop_of_idle hb) fun _ => ?init
    refine ite_congr rfl (fun _ => exec_init_of_idle hb) fun _ => ?clrerr
    refine ite_congr rfl (fun _ => exec_clrerr_of_idle hb) fun _ => ?compress
    refine ite_congr rfl (fun _ => exec_compress_of_idle hb) fun _ => ?pad
    refine ite_congr rfl (fun _ => exec_pad_of_idle hb _) fun _ => ?final
    exact exec_final_of_idle hb (Nat.mod_lt _ (by decide))

end Sys2Proof.Machine
end

section
/-! The WAIT of a host program (spec 30_encoding.md R90; 70_reset_and_hazards.md R256, R258): one turn of its loop reads
STATUS in one cycle, and the loop is left at the first turn that reads BUSY = 0; O59. -/

namespace Sys2Proof.Machine

/-! ## Steps of a host program (R89) -/

theorem System.step_of_no_gaps {y : System} (h : y.host.gaps = []) : y.step = runStmt y := by
  simp [System.step, h]

theorem System.run_succ_of_step {y z : System} (h : y.step = .next z) (k : Nat) :
    System.run (k + 1) y = System.run k z := by
  simp [System.run, h]

theorem System.run_add {y z : System} {j : Nat} (h : System.run j y = .next z) (k : Nat) :
    System.run (j + k) y = System.run k z := by
  induction j generalizing y with
  | zero => cases h; rw [Nat.zero_add]
  | succ j ih =>
    cases hs : y.step with
    | next x =>
      rw [System.run_succ_of_step hs] at h
      rw [Nat.add_right_comm, System.run_succ_of_step hs, ih h]
    | fault f => simp [System.run, hs] at h
    | refused r => simp [System.run, hs] at h

theorem runStmt_of_label {y : System} {l : String} (h : y.host.stmts[y.host.at_]? = some (.label l)) :
    runStmt y = .next { y with host := y.host.advance } := by
  simp [runStmt, h]

theorem runStmt_of_rd {y : System} {r : Reg} {name : String} {s : State}
    (h : y.host.stmts[y.host.at_]? = some (.rd r name)) (hs : portCycle (readCycle r.offset) y.core = .next s) :
    runStmt y = .next { host := (y.host.bind name s).advance, core := s } := by
  simp [runStmt, h, System.cycle, hs]

theorem runStmt_of_bnz {y : System} {name l : String} {mask v : Word}
    (h : y.host.stmts[y.host.at_]? = some (.bnz name mask l)) (hv : y.host.vals.lookup name = some v) {k : Nat}
    (hl : findLabel l y.host.stmts = some k) :
    runStmt y = .next { y with host := { y.host with at_ := if v &&& mask = 0 then y.host.at_ + 1 else k } } := by
  simp only [runStmt, h, branch, hv, hl]
  split_ifs <;> rfl

/-! ## One turn of the loop -/

/-- The program stands at the first statement of a WAIT. -/
structure System.AtWait (l : String) (y : System) : Prop where
  no_gaps : y.host.gaps = []
  label : y.host.stmts[y.host.at_]? = some (.label l)
  rd : y.host.stmts[y.host.at_ + 1]? = some (.rd .status "s")
  bnz : y.host.stmts[y.host.at_ + 2]? = some (.bnz "s" 0x1 l)
  target : findLabel l y.host.stmts = some y.host.at_

/-- The program after a turn of the loop that has read `v` and left the block in `s`. -/
def System.afterTurn (v : Word) (s : State) (y : System) : System :=
  { host := { y.host with
      vals := ("s", v) :: y.host.vals
      at_ := if v &&& 0x1 = 0 then y.host.at_ + 3 else y.host.at_ }
    core := s }

/-- The program leaves its WAIT, with the block idle and `P` true of it. -/
def System.PassesWait (y : System) (P : State → Prop) : Prop :=
  ∃ k z, System.run k y = .next z ∧ z.host.at_ = y.host.at_ + 3 ∧ z.host.stmts = y.host.stmts ∧
    z.core.busy = false ∧ P z.core

theorem System.PassesWait.imp {y : System} {P Q : State → Prop} (h : y.PassesWait P) (hPQ : ∀ t, P t → Q t) :
    y.PassesWait Q := by
  obtain ⟨k, z, hrun, hat, hstmts, hb, hP⟩ := h
  exact ⟨k, z, hrun, hat, hstmts, hb, hPQ _ hP⟩

section
variable {l : String} {y : System} (hy : y.AtWait l) {s : State} {r : ReadRecord} {log : List ReadRecord}
  (hcycle : portCycle (readCycle Reg.status.offset) y.core = .next s) (hlog : s.readLog = r :: log)
include hy

theorem System.AtWait.afterTurn {v : Word} (hv : v &&& 0x1 ≠ 0) (s : State) : (y.afterTurn v s).AtWait l := by
  have hat : (y.afterTurn v s).host.at_ = y.host.at_ := if_neg hv
  obtain ⟨hgaps, hlabel, hrd, hbnz, htarget⟩ := hy
  exact ⟨hgaps, hat.symm ▸ hlabel, hat.symm ▸ hrd, hat.symm ▸ hbnz, hat.symm ▸ htarget⟩

include hcycle hlog

theorem System.AtWait.run_turn : System.run 3 y = .next (y.afterTurn r.value s) := by
  obtain ⟨hgaps, hlabel, hrd, hbnz, htarget⟩ := hy
  have hbind : y.host.advance.bind "s" s = { y.host.advance with vals := ("s", r.value) :: y.host.vals } := by
    rw [HostProgram.bind, hlog]; rfl
  have h1 : y.step = .next { y with host := y.host.advance } := by
    rw [System.step_of_no_gaps hgaps, runStmt_of_label hlabel]
  have h2 : System.step { y with host := y.host.advance } =
      .next { host := (y.host.advance.bind "s" s).advance, core := s } := by
    rw [System.step_of_no_gaps (by exact hgaps), runStmt_of_rd (by exact hrd) (by exact hcycle)]
  have h3 : System.step { host := (y.host.advance.bind "s" s).advance, core := s } =
      .next (y.afterTurn r.value s) := by
    rw [hbind, System.step_of_no_gaps (by exact hgaps),
      runStmt_of_bnz (v := r.value) (by exact hbnz) rfl (by exact htarget)]
    rfl
  rw [System.run_succ_of_step h1, System.run_succ_of_step h2, System.run_succ_of_step h3, System.run]

theorem System.AtWait.passesWait_of_last_turn {P : State → Prop} (hv : r.value &&& 0x1 = 0)
    (hb : s.busy = false) (hP : P s) : y.PassesWait P :=
  ⟨3, _, hy.run_turn hcycle hlog, if_pos hv, rfl, hb, hP⟩

theorem System.AtWait.passesWait_of_turn {P : State → Prop} (hv : r.value &&& 0x1 ≠ 0)
    (h : (y.afterTurn r.value s).PassesWait P) : y.PassesWait P := by
  obtain ⟨k, z, hrun, hat, hstmts, hb, hP⟩ := h
  have hback : (y.afterTurn r.value s).host.at_ = y.host.at_ := if_neg hv
  rw [hback] at hat
  exact ⟨3 + k, z, (System.run_add (hy.run_turn hcycle hlog) k).trans hrun, hat, hstmts, hb, hP⟩

end

/-! ## A read of STATUS, by what the engine does in its cycle (R25, R226) -/

theorem portCycle_read (off : BitVec 8) (s : State) :
    portCycle (readCycle off) s = accessCycle (.read (.window off) 4) s := rfl

theorem portCycle_read_of_idle {s : State} (hs : s.seq = .idle) (off : BitVec 8) :
    portCycle (readCycle off) s = .next (hostRead off s) := by
  rw [portCycle_read, accessCycle_of_not_completing (completing_of_idle hs), engineTick_of_idle hs, hostAccess_read]

theorem portCycle_read_of_more {s : State} {p : Pending} (hs : s.seq = .busy p) (hr : 1 < p.remaining)
    (off : BitVec 8) :
    portCycle (readCycle off) s =
      .next (hostRead off { s with seq := .busy { p with remaining := p.remaining - 1 } }) := by
  rw [portCycle_read, accessCycle_of_not_completing (completing_of_more hs hr), engineTick_of_more hs hr,
    hostAccess_read]

theorem portCycle_read_of_last {s : State} {p : Pending} (hs : s.seq = .busy p) (hr : p.remaining ≤ 1)
    (off : BitVec 8) :
    portCycle (readCycle off) s = .next (hostRead off (completeCommand p (drawOrder s))) ∨
    portCycle (readCycle off) s = .next (completeCommand p (hostRead off (drawOrder s))) := by
  have hdrawn : (drawOrder s).seq = .busy p := hs
  rw [portCycle_read]
  rcases accessCycle_of_completing (a := .read (.window off) 4) ((completing_eq_true_iff s).mpr ⟨p, hs, hr⟩)
    with h | h
  · left
    rw [h, engineTick_of_last hdrawn hr, hostAccess_read]
  · right
    rw [h, hostAccess_read, thenTick, engineTick_of_last (s := hostRead off (drawOrder s)) hdrawn hr]

/-- BUSY is bit 0 of what a read of STATUS returns, and the mask of a WAIT. -/
theorem readOffset_status_and_one_eq_zero_iff (s : State) :
    readOffset Reg.status.offset s &&& 0x1 = 0 ↔ s.busy = false := by
  obtain ⟨nb, hread⟩ : ∃ nb, readOffset Reg.status.offset s = statusWith nb s :=
    ⟨_, readOffset_of_regAt (regAt_offset .status) s⟩
  have hstatus := toNat_statusWith nb s
  have hmask : (statusWith nb s &&& 0x1).toNat = (statusWith nb s).toNat % 2 := Nat.and_one_is_mod _
  rw [hread, BitVec.toNat_eq, hmask]
  cases hb : s.busy with
  | false => rw [hb, Bool.toNat_false] at hstatus; simp; omega
  | true => rw [hb, Bool.toNat_true] at hstatus; simp; omega

theorem readOffset_status_of_busy {s : State} {p : Pending} (hs : s.seq = .busy p) :
    readOffset Reg.status.offset s &&& 0x1 ≠ 0 := by
  rw [ne_eq, readOffset_status_and_one_eq_zero_iff, Bool.not_eq_false, busy_eq_true_iff]
  exact ⟨p, hs⟩

theorem readOffset_status_of_idle {s : State} (hs : s.seq = .idle) : readOffset Reg.status.offset s &&& 0x1 = 0 :=
  (readOffset_status_and_one_eq_zero_iff s).mpr (busy_of_idle hs)

/-! ## The loop (R256, R258) -/

/-- The registers that a completion can write, and what is known of them. -/
def State.results (s : State) : CV × Dword × Vector Word 32 × Fin 3 × Bool × Vector Bool 5 × Bool :=
  (s.h, s.len, s.pbuf, s.nblk, s.ovf, s.hKnown, s.pbufKnown)

/-- The results in `t` are those of the completion of `p` on `s`, with free values from some place on. -/
def HasResultsOf (p : Pending) (s t : State) : Prop :=
  ∃ d, t.results = (completeCommand p { s with draws := d }).results

/-- The observations and the sequencer do not count in the results of a completion (R30). -/
theorem results_completeCommand_readLog_seq_irrel (p : Pending) (s : State) (log : List ReadRecord) (d : Nat)
    (q : Sequencer) :
    (completeCommand p { s with readLog := log, draws := d, seq := q }).results =
      (completeCommand p { s with draws := d }).results := by
  obtain ⟨hh, hlen, hpbuf, hnblk, hovf, hkh, hkp⟩ :=
    completeCommand_congr (s := { s with readLog := log, draws := d, seq := q }) (t := { s with draws := d }) p
      rfl rfl rfl rfl rfl rfl rfl rfl rfl rfl
  simp only [State.results, hh, hlen, hpbuf, hnblk, hovf, hkh, hkp]

theorem System.AtWait.passesWait_of_idle {l : String} {y : System} (hy : y.AtWait l) (hs : y.core.seq = .idle) :
    y.PassesWait fun t => t.results = y.core.results :=
  hy.passesWait_of_last_turn (portCycle_read_of_idle hs _) rfl (readOffset_status_of_idle hs) (busy_of_idle hs) rfl

/-- R226: the read in the completion's cycle sees BUSY = 0, or it comes first and the next turn does. -/
theorem System.AtWait.passesWait_of_last {l : String} {y : System} (hy : y.AtWait l) {p : Pending}
    (hs : y.core.seq = .busy p) (hr : p.remaining ≤ 1) : y.PassesWait (HasResultsOf p y.core) := by
  rcases portCycle_read_of_last hs hr Reg.status.offset with hcycle | hcycle
  · exact hy.passesWait_of_last_turn hcycle rfl (readOffset_status_of_idle (completeCommand_seq p _))
      (completeCommand_busy p _) ⟨y.core.draws + 1, rfl⟩
  · have hlog := completeCommand_readLog p (hostRead Reg.status.offset (drawOrder y.core))
    have hv := readOffset_status_of_busy (s := drawOrder y.core) hs
    refine hy.passesWait_of_turn hcycle hlog hv ?_
    refine System.PassesWait.imp ((hy.afterTurn hv _).passesWait_of_idle (completeCommand_seq p _)) ?_
    refine fun t ht => ⟨y.core.draws + 1 + 1, ht.trans ?_⟩
    exact results_completeCommand_readLog_seq_irrel p y.core _ _ y.core.seq

/-- Each turn takes one cycle of the latency, until one is left. -/
theorem System.AtWait.passesWait_of_busy {l : String} {y : System} (hy : y.AtWait l) {p : Pending}
    (hs : y.core.seq = .busy p) {n : Nat} (hn : p.remaining ≤ n + 1) : y.PassesWait (HasResultsOf p y.core) := by
  induction n generalizing y p with
  | zero => exact hy.passesWait_of_last hs hn
  | succ n ih =>
    rcases Nat.lt_or_ge 1 p.remaining with hr | hr
    · have hcycle := portCycle_read_of_more hs hr Reg.status.offset
      have hv := readOffset_status_of_busy
        (s := { y.core with seq := .busy { p with remaining := p.remaining - 1 } }) rfl
      refine hy.passesWait_of_turn hcycle rfl hv ?_
      refine System.PassesWait.imp (ih (hy.afterTurn hv _) rfl (Nat.sub_le_of_le_add hn)) ?_
      rintro t ⟨d, ht⟩
      refine ⟨d, ht.trans ?_⟩
      rw [completeCommand_remaining]
      exact results_completeCommand_readLog_seq_irrel p y.core _ d _
    · exact hy.passesWait_of_last hs hr

/-- Settles O59: the loop is left with the completion's results, which depend on the free values in H and PBUF alone. -/
theorem waitLoopEndsWithTheResults : Obligations.WaitLoopEndsWithTheResults := by
  intro y l hgaps hlabel hrd hbnz htarget
  have hy : y.AtWait l := ⟨hgaps, hlabel, hrd, hbnz, htarget⟩
  cases hs : y.core.seq with
  | idle =>
    obtain ⟨k, z, hrun, hat, hstmts, hb, hz⟩ := hy.passesWait_of_idle hs
    simp only [State.results, Prod.mk.injEq] at hz
    exact ⟨k, z, hrun, hat, hstmts, hb, fun _ => hz, fun p hp => absurd hp (by simp)⟩
  | busy p =>
    obtain ⟨k, z, hrun, hat, hstmts, hb, d, hz⟩ := hy.passesWait_of_busy hs (Nat.le_succ p.remaining)
    simp only [State.results, Prod.mk.injEq] at hz
    refine ⟨k, z, hrun, hat, hstmts, hb, fun h => absurd h (by simp), fun q hq => ?_⟩
    obtain rfl := Sequencer.busy.inj hq
    obtain ⟨hlen, hnblk, hovf, hkh, hkp, hh, hpbuf⟩ := completeCommand_withDraws p y.core d
    obtain ⟨zh, zlen, zpbuf, znblk, zovf, zkh, zkp⟩ := hz
    exact ⟨⟨d, zh, zlen, zpbuf, znblk, zovf, zkh, zkp⟩, fun hk => zh.trans (hh hk),
      fun hw => zpbuf.trans (hpbuf hw), zkh.trans hkh, zkp.trans hkp, zlen.trans hlen, znblk.trans hnblk, zovf.trans hovf⟩

end Sys2Proof.Machine
end

section
/-! The padder and the block parser (spec 40_padder_parser.md): the source's `pad` in bits and in bytes, its blocks and
their words, the tail that the hardware pads and its place in PBUF, and PAD; O14 and O38 to O46. -/

namespace Sys2Proof.Machine

/-! ## The zeros of `pad` (R101, R102) -/

theorem padZeroBits_solves (bits : Nat) : (bits + 1 + padZeroBits bits) % 512 = 448 := by
  unfold padZeroBits
  omega

theorem padZeroBits_lt (bits : Nat) : padZeroBits bits < 512 := Nat.mod_lt _ (by decide)

/-- Two solutions differ by a multiple of 512, so the one below 512 is the least. -/
theorem padZeroBits_least {bits k : Nat} (hk : k < padZeroBits bits) : (bits + 1 + k) % 512 ≠ 448 := by
  have hsolves := padZeroBits_solves bits
  have hlt := padZeroBits_lt bits
  omega

/-- The zero bits are the seven of the byte 0x80 and those of the zero bytes. -/
theorem padZeroBits_eight_mul (l : Nat) : padZeroBits (8 * l) = 7 + 8 * padZeroBytes l := by
  unfold padZeroBits padZeroBytes
  omega

theorem padZeroBytes_eq_emod (l : Nat) : padZeroBytes l = ((55 - (l : Int)) % 64).toNat := by
  unfold padZeroBytes
  omega

/-- Settles O38: k is below 512 and solves the congruence modulo 512. -/
theorem padZeroBitsAreTheLeast : Obligations.PadZeroBitsAreTheLeast :=
  ⟨fun _ => rfl, fun bits => ⟨padZeroBits_solves bits, fun _ hk => padZeroBits_least hk⟩⟩

/-! ## `pad` in bytes and in bits (R101 to R103) -/

theorem length_padBytes (m : List Byte) : (padBytes m).length = 64 * padBlockCount m.length := by
  simp only [padBytes, List.length_append, length_padSuffix, padZeroBytes, padBlockCount]
  omega

/-- The byte 0x80 is the 1 bit and seven of the zeros. -/
theorem bitsOfBytes_padBytes (m : List Byte) : bitsOfBytes (padBytes m) = padBits m := by
  have h80 : bitsOfBytes [0x80] = [true] ++ List.replicate 7 false := by decide
  simp only [padBytes, padSuffix, padBits, bitsOfBytes_append, bitsOfBytes_replicate_zero, h80,
    padZeroBits_eight_mul, ← List.replicate_append_replicate, List.append_assoc]

theorem length_padBits (m : List Byte) : (padBits m).length = 512 * padBlockCount m.length := by
  rw [← bitsOfBytes_padBytes, length_bitsOfBytes, length_padBytes]
  omega

theorem foldNat_be64 (l : Dword) : (be64 l).foldl (fun n b => 256 * n + b.toNat) 0 = l.toNat := by
  have hlt := l.isLt
  simp [be64, List.range_succ, Nat.shiftRight_eq_div_pow]
  omega

/-- The last 64 bits of `pad` are the length field (R101). -/
theorem drop_padBits (m : List Byte) :
    (padBits m).drop ((padBits m).length - 64) = bitsOfBytes (be64 (bitLength m.length)) := by
  rw [padBits, List.length_append, length_bitsOfBytes (be64 _), length_be64, Nat.add_sub_cancel, List.drop_left]

theorem padBlockCount_pos (l : Nat) : 0 < padBlockCount l := Nat.succ_pos _

/-- Settles O39: `pad` is a positive number of blocks, and the length field holds every bit length below 2^64. -/
theorem padInvariants : Obligations.PadInvariants := by
  intro m hm
  have hpos := padBlockCount_pos m.length
  refine ⟨?_, ?_, ?_, padZeroBits_lt _, ?_⟩
  · rw [length_padBits, Nat.mul_mod_right]
  · rw [length_padBits]
    omega
  · simp [padBits]
  · rw [drop_padBits, foldNat_bitsOfBytes, foldNat_be64]
    exact Nat.mod_eq_of_lt hm

/-- Settles O40: byte by byte, with z written as the spec writes it. -/
theorem padBytesAreThePadBits : Obligations.PadBytesAreThePadBits := by
  intro m
  refine ⟨bitsOfBytes_padBytes m, ?_, length_padBytes m⟩
  rw [← padZeroBytes_eq_emod]
  simp [padBytes, padSuffix, bitLength]

/-! ## `parse` (R104, R106) -/

theorem length_bitBlocks (n : Nat) (p : List Bool) : (bitBlocks n p).length = n := by
  induction n generalizing p with
  | zero => rfl
  | succ n ih => rw [bitBlocks, List.length_cons, ih]

theorem getElem?_bitBlocks (p : List Bool) {n i : Nat} (hi : i < n) :
    (bitBlocks n p)[i]? = some ((p.drop (512 * i)).take 512) := by
  induction n generalizing p i with
  | zero => omega
  | succ n ih =>
    cases i with
    | zero => rfl
    | succ i => rw [bitBlocks, List.getElem?_cons_succ, ih _ (by omega), List.drop_drop, Nat.mul_succ, Nat.add_comm]

theorem parse_of_not_multiple {p : List Bool} (h : p.length % 512 ≠ 0) : parse p = none := if_neg h

/-- Settles O41: the blocks are cut off one after another, each 512 bits further on. -/
theorem parseGivesConsecutiveBlocks : Obligations.ParseGivesConsecutiveBlocks :=
  fun p => ⟨parse_of_not_multiple, fun n hn =>
    ⟨bitBlocks n p, parse_of_length hn, length_bitBlocks n p, fun _ hi => getElem?_bitBlocks p hi⟩⟩

/-- Settles O42: `pad` is a whole number of blocks, which `parse` cuts without loss. -/
theorem parseRoundTrip : Obligations.ParseRoundTrip :=
  fun m => ⟨_, parse_of_length (length_padBits m), bitBlocks_flatten _ _ (length_padBits m)⟩

/-! ## The words of a block (R105) -/

/-- Block `k` of a byte sequence, as words. -/
def byteBlock (b : List Byte) (k : Nat) : Block := tabulate 16 (wordOfBytes (b.drop (64 * k)))

theorem tabulate_congr {α : Type} {n : Nat} {f g : Nat → α} (h : ∀ i, i < n → f i = g i) :
    tabulate n f = tabulate n g :=
  Vector.ext fun i hi => by rw [getElem_tabulate, getElem_tabulate, h i hi]

theorem take_four_drop {b : List Byte} {k : Nat} (hk : k + 4 ≤ b.length) :
    (b.drop k).take 4 = [b.getD k 0, b.getD (k + 1) 0, b.getD (k + 2) 0, b.getD (k + 3) 0] := by
  have h0 : k < b.length := by omega
  have h1 : k + 1 < b.length := by omega
  have h2 : k + 2 < b.length := by omega
  have h3 : k + 3 < b.length := by omega
  rw [List.drop_eq_getElem_cons h0, List.drop_eq_getElem_cons h1, List.drop_eq_getElem_cons h2,
    List.drop_eq_getElem_cons h3, List.getD_eq_getElem _ _ h0, List.getD_eq_getElem _ _ h1,
    List.getD_eq_getElem _ _ h2, List.getD_eq_getElem _ _ h3]
  rfl

/-- A word is the same from its 32 bits as from its four bytes. -/
theorem wordOfBits_bitsOfBytes (b : List Byte) {i : Nat} (hi : 4 * i + 4 ≤ b.length) :
    wordOfBits (((bitsOfBytes b).drop (32 * i)).take 32) = wordOfBytes b i := by
  have hbits : ((bitsOfBytes b).drop (32 * i)).take 32 = bitsOfBytes ((b.drop (4 * i)).take 4) := by
    rw [← take_drop_bitsOfBytes, ← Nat.mul_assoc]
  rw [hbits, take_four_drop hi, wordOfBits_four, wordOfBytes]

theorem blockWords_bitsOfBytes {b : List Byte} (hb : b.length = 64) :
    blockWords (bitsOfBytes b) = tabulate 16 (wordOfBytes b) :=
  tabulate_congr fun _ hi => wordOfBits_bitsOfBytes b (by omega)

/-- Settles O43: a big-endian word is its number to base 256, from bits as from bytes. -/
theorem blockWordsAreBigEndian : Obligations.BlockWordsAreBigEndian := by
  refine ⟨fun b0 b1 b2 b3 => ?_, fun b hb i hi => ?_⟩
  · rw [be32_toNat]
    omega
  · rw [blockWords_bitsOfBytes hb, getElem?_tabulate _ _ _ hi]
    rfl

theorem wordOfBytes_take {b : List Byte} {k i : Nat} (hi : 4 * i + 4 ≤ k) :
    wordOfBytes (b.take k) i = wordOfBytes b i :=
  wordOfBytes_congr fun j hj => List.getElem?_take_of_lt (by omega)

/-- The words of the bit blocks of a byte sequence are those of its byte blocks. -/
theorem map_blockWords_bitBlocks {b : List Byte} {n : Nat} (hb : b.length = 64 * n) :
    (bitBlocks n (bitsOfBytes b)).map blockWords = (List.range n).map (byteBlock b) := by
  apply List.ext_getElem?
  intro i
  by_cases hi : i < n
  · have hbits : ((bitsOfBytes b).drop (512 * i)).take 512 = bitsOfBytes ((b.drop (64 * i)).take 64) := by
      rw [← take_drop_bitsOfBytes, ← Nat.mul_assoc]
    have hlen : ((b.drop (64 * i)).take 64).length = 64 := by
      simp only [List.length_take, List.length_drop]
      omega
    have hwords : blockWords (bitsOfBytes ((b.drop (64 * i)).take 64)) = byteBlock b i := by
      rw [blockWords_bitsOfBytes hlen]
      exact tabulate_congr fun _ _ => wordOfBytes_take (by omega)
    rw [List.getElem?_map, getElem?_bitBlocks _ hi, Option.map_some, hbits, hwords, List.getElem?_map,
      List.getElem?_range hi, Option.map_some]
  · rw [List.getElem?_eq_none (by simp [length_bitBlocks]; omega), List.getElem?_eq_none (by simp; omega)]

/-! ## The tail padded apart (R107, R109) -/

/-- The tail's zeros are those of the whole message. -/
theorem tailBlockCount_zeros (l : Nat) : 64 * (tailBlockCount (l % 64)).val - l % 64 - 9 = padZeroBytes l := by
  unfold tailBlockCount padZeroBytes
  split <;> simp <;> omega

theorem padBlockCount_eq_add (l : Nat) : padBlockCount l = l / 64 + (tailBlockCount (l % 64)).val := by
  unfold tailBlockCount padBlockCount
  split <;> simp <;> omega

/-- The padded tail of a message (R109). -/
def messageTail (m : List Byte) : List Byte :=
  (padTail (m.drop (64 * (m.length / 64))) (m.length % 64) (bitLength m.length)).2

theorem messageTail_eq (m : List Byte) : messageTail m = m.drop (64 * (m.length / 64)) ++ padSuffix m.length := by
  simp only [messageTail, padTail, tailBlockCount_zeros, padSuffix, List.append_assoc]

theorem padBytes_eq_take_append_messageTail (m : List Byte) :
    padBytes m = m.take (64 * (m.length / 64)) ++ messageTail m := by
  rw [messageTail_eq, ← List.append_assoc, List.take_append_drop, padBytes]

theorem drop_padBytes (m : List Byte) : (padBytes m).drop (64 * (m.length / 64)) = messageTail m := by
  rw [padBytes, messageTail_eq, List.drop_append_of_le_length (Nat.mul_div_le _ _)]

/-- A full block of the message is a block of the padded message. -/
theorem byteBlock_padBytes_of_full (m : List Byte) {i : Nat} (hi : i < m.length / 64) :
    byteBlock (padBytes m) i = byteBlock m i :=
  tabulate_congr fun _ _ => wordOfBytes_congr fun j hj => by
    rw [List.getElem?_drop, List.getElem?_drop, padBytes, List.getElem?_append_left (by omega)]

/-- The blocks of PBUF are those of the bytes put there (R111). -/
theorem pbufBlock_pbufOfBytes (p : List Byte) {k : Nat} (hk : k < 2) : pbufBlock (pbufOfBytes p) k = byteBlock p k :=
  tabulate_congr fun i hi => by
    rw [pbufOfBytes, getElem?_tabulate _ _ _ (by omega), Option.getD_some, ← wordOfBytes_drop, ← Nat.mul_assoc]

theorem byteBlock_padBytes_of_tail (m : List Byte) {k : Nat} (hk : k < 2) :
    byteBlock (padBytes m) (m.length / 64 + k) = pbufBlock (pbufOfBytes (messageTail m)) k := by
  rw [pbufBlock_pbufOfBytes _ hk, byteBlock, byteBlock, Nat.mul_add, ← List.drop_drop, drop_padBytes]

/-- Settles O44: the full blocks of the message stand in front of the padded tail, and each block has the same words
from its bits as from its bytes. -/
theorem tailPaddingIsTheSourcesPadding : Obligations.TailPaddingIsTheSourcesPadding := by
  intro m _
  refine ⟨padBytes_eq_take_append_messageTail m, padBlockCount_eq_add m.length, ?_⟩
  have hblocks : (parse (padBits m)).map (fun bs => bs.map blockWords) =
      some ((List.range (padBlockCount m.length)).map (byteBlock (padBytes m))) := by
    rw [parse_of_length (length_padBits m), ← bitsOfBytes_padBytes, Option.map_some,
      map_blockWords_bitBlocks (length_padBytes m)]
  rw [hblocks, padBlockCount_eq_add, List.range_add, List.map_append, List.map_map]
  have htail : (tailBlockCount (m.length % 64)).val ≤ 2 := Nat.le_of_lt_succ (tailBlockCount (m.length % 64)).isLt
  congr 2
  · exact List.map_congr_left fun i hi => byteBlock_padBytes_of_full m (List.mem_range.mp hi)
  · exact List.map_congr_left fun k hk =>
      byteBlock_padBytes_of_tail m (Nat.lt_of_lt_of_le (List.mem_range.mp hk) htail)

/-! ## The padded tail of a command and its place in PBUF (R107, R108, R111) -/

theorem tailBits_eq_ofNat (n : BitVec 6) : tailBits n = BitVec.ofNat 64 (8 * n.toNat) := by
  rw [← tailBits_ofNat n.isLt, BitVec.ofNat_toNat, BitVec.setWidth_eq]

theorem paddedTail_eq_padTail (p : Pending) :
    paddedTail p =
      padTail (tailBytes p.mIn p.n.toNat) p.n.toNat (p.lenIn + BitVec.ofNat 64 (8 * p.n.toNat)) := by
  rw [paddedTail, tailLength, tailBits_eq_ofNat]

/-- Padding takes from the operands the bytes of the tail, n and LEN (R108). -/
theorem paddedTail_congr {p p' : Pending} (hn : p'.n = p.n) (hlen : p'.lenIn = p.lenIn)
    (htail : tailBytes p'.mIn p.n.toNat = tailBytes p.mIn p.n.toNat) : paddedTail p' = paddedTail p := by
  simp only [paddedTail_eq_padTail, hn, hlen, htail]

/-- Settles O46: the tail is its bytes, and lies in the words named. -/
theorem paddingReadsOnlyTheTail : Obligations.PaddingReadsOnlyTheTail :=
  fun _ _ hn hlen =>
    ⟨fun hbytes => paddedTail_congr hn hlen (List.map_congr_left fun j hj => hbytes j (List.mem_range.mp hj)),
      fun hwords => paddedTail_congr hn hlen (tailBytes_congr hwords)⟩

/-- The length field fills the last two words of the padded tail (R107, R111). -/
theorem wordOfBytes_paddedTail_length {p : Pending} {i : Nat} (hi : 4 * i + 8 = 64 * (paddedTail p).1.val) :
    wordOfBytes (paddedTail p).2 i = hiWord (tailLength p) ∧
      wordOfBytes (paddedTail p).2 (i + 1) = loWord (tailLength p) := by
  obtain ⟨x, hx⟩ : ∃ x, (paddedTail p).2 = x ++ be64 (tailLength p) := ⟨_, rfl⟩
  have hlen : x.length = 4 * i := by
    have htotal := paddedTail_length p
    rw [hx, List.length_append, length_be64] at htotal
    omega
  rw [hx]
  exact ⟨wordOfBytes_be64_hi x _ i hlen, wordOfBytes_be64_lo x _ i hlen⟩

theorem getElem?_paddedTail (p : Pending) {j : Nat} (hj : j < 64 * (paddedTail p).1.val) :
    (paddedTail p).2[j]? =
      some (wordByte ((pbufOfBytes (paddedTail p).2)[16 * (j / 64) + j % 64 / 4]?.getD 0) (j % 4)) := by
  have hnblk := (paddedTail p).1.isLt
  have hword : 16 * (j / 64) + j % 64 / 4 = j / 4 := by omega
  rw [wordByte_wordOfBytes _ _ (by rwa [paddedTail_length]), hword, pbufOfBytes,
    getElem?_tabulate _ _ _ (by omega), Option.getD_some]

/-- PAD and FINAL leave in PBUF and NBLK what padding writes there (R114, R186). -/
theorem completeCommand_padBuffer {p : Pending} (hop : p.op ≠ .compress) (s : State) :
    (completeCommand p s).pbuf = s.padded (tailWords p.n.toNat) (pbufOfBytes (paddedTail p).2) ∧
      (completeCommand p s).pbufKnown = s.wroteM (tailWords p.n.toNat) ∧
      (completeCommand p s).nblk = (paddedTail p).1 := by
  cases h : p.op with
  | compress => exact absurd h hop
  | pad => simp [completeCommand, h]
  | final => simp [completeCommand, h]

/-- Settles O45: where the tail is known, each word of PBUF is four bytes of the padded tail, which ends with L. -/
theorem paddedTailLayoutInPbuf : Obligations.PaddedTailLayoutInPbuf := by
  intro p s hop
  obtain ⟨hpbuf, hknown, hnblk⟩ := completeCommand_padBuffer hop s
  dsimp only
  rw [← paddedTail_eq_padTail, hpbuf, hknown, hnblk, ← tailBits_eq_ofNat, ← tailLength]
  refine ⟨rfl, paddedTail_length p, rfl, rfl, rfl, fun hw => padded_of_unwritten hw _, fun hw => ?_⟩
  rw [padded_of_wrote hw]
  refine ⟨fun j hj => getElem?_paddedTail p hj, fun h1 => ?_, fun h2 => ?_⟩
  · obtain ⟨hhi, hlo⟩ := wordOfBytes_paddedTail_length (p := p) (i := 14) (by rw [h1]; rfl)
    exact ⟨hhi, hlo, pbufOfBytes_paddedTail_eq_zero h1⟩
  · exact wordOfBytes_paddedTail_length (p := p) (i := 30) (by rw [h2]; rfl)

/-! ## PAD (R114) -/

/-- The word of PAD n (R84, R91). -/
theorem hostAccess_pad (s : State) {n : Nat} (hn : n < 64) :
    hostAccess (.write (.window 0x04) 4 (BitVec.ofNat 32 (16 * n + 3))) s = exec (.pad n) s := by
  have hword : encode (.pad n) = BitVec.ofNat 32 (16 * n + 3) := by
    apply BitVec.eq_of_toNat_eq
    rw [encode_toNat]
    simp [Instr.tailField, Instr.opcode]
    omega
  have hwf : (Instr.pad n).wellFormed = true := decide_eq_true hn
  rw [hostAccess_cmd regAt_cmd, ← hword, issueCommand_of_command (decodeOfEncodeIsTheCommand _ hwf)]

/-- A command issued with no input waiting is in flight for its whole latency, and then its completion is all that
has happened since (R30). -/
theorem run_issue {s : State} (hport : s.port = []) (op : EngineOp) (n : BitVec 6) {lat : Nat} (hlat : 1 ≤ lat) :
    (∀ k, k < lat → ∃ x, run k (issue op n lat s) = .next x ∧ x.busy = true) ∧
      run lat (issue op n lat s) = .next (completeCommand
        { op := op, n := n, hIn := s.h, lenIn := s.len, mIn := s.m, remaining := lat } s) :=
  ⟨fun k hk => ⟨_, run_countdown _ _ (issue_seq op n lat s) hport k hk, rfl⟩, by
    rw [run_to_completion _ _ (issue_seq op n lat s) hport hlat, issue, completeCommand_seq_irrel]⟩

/-- PAD's completion on an idle block, as a state (R114). -/
theorem completePad_of_idle {s : State} (hs : s.busy = false) (p : Pending) :
    completePad p s =
      { s with
        pbuf := s.padded (tailWords p.n.toNat) (pbufOfBytes (paddedTail p).2)
        pbufKnown := s.wroteM (tailWords p.n.toNat)
        nblk := (paddedTail p).1
        ovf := noteCarry s.ovf p.lenIn (tailBits p.n)
        draws := s.draws + completionDraws } := by
  rw [completePad, writePaddedTail, ← (busy_eq_false_iff s).mp hs]

theorem wroteM_eq_false_iff (s : State) (k : Nat) :
    s.wroteM k = false ↔ ∃ i : Fin 16, i.val < k ∧ s.mWritten[i] = false := by
  rw [← Bool.not_eq_true, wroteM_eq_true_iff]
  simp

/-- Settles O14: the snapshot is the block's registers, so the completion is the tail of M padded with LEN + 8n. -/
theorem padExposesThePaddedTail : Obligations.PadExposesThePaddedTail := by
  refine ⟨fun s n _ hs => exec_pad_of_idle hs n, fun s n hn hs hport => ?_, fun s n hs => exec_of_busy hs (.pad n)⟩
  obtain ⟨hbusy, hrun⟩ := run_issue hport .pad (BitVec.ofNat 6 n) (lat := Config.latPad) (Nat.le_add_left _ _)
  refine ⟨_, exec_pad_of_idle hs n, (hostAccess_pad s hn).trans (exec_pad_of_idle hs n), hbusy, ?_⟩
  have hfield : (BitVec.ofNat 6 n).toNat = n := Nat.mod_eq_of_lt hn
  rw [hrun, completeCommand, completePad_of_idle hs, paddedTail_eq_padTail]
  simp only [noteCarry, carry64, tailBits_toNat, hfield]
  refine ⟨fun hw => ?_, fun hw => ?_⟩
  · have hk : s.wroteM (tailWords n) = true := (wroteM_eq_true_iff s _).mpr hw
    rw [padded_of_wrote hk, hk]
  · have hk : s.wroteM (tailWords n) = false := (wroteM_eq_false_iff s _).mpr hw
    rw [padded_of_unwritten hk, hk]

end Sys2Proof.Machine
end

section
/-! The message scheduler's statements (spec 41_scheduler.md): the recurrence (R130, R131), the window form (R133) and
linearity (R135). -/

namespace Sys2Proof.Machine

/-! ## The recurrence (R130, R131) and the window form (R133) -/

/-- Settles O47: the first sixteen words are the block's, and each later one is the recurrence's. -/
theorem scheduleRecurrence : Obligations.ScheduleRecurrence := by
  intro b
  refine ⟨length_schedule b, fun t ht => ?_, fun t h16 h79 => getD_schedule_of_ge_16 b h16 (by omega)⟩
  rw [getElem?_schedule_of_lt_80 b (by omega), getD_schedule_of_lt_16 b ht, Vector.getElem?_eq_getElem ht]
  rfl

/-- Settles O48: after any number of rounds the window holds the words that the recurrence reads. -/
theorem windowFormGivesTheSchedule : Obligations.WindowFormGivesTheSchedule := by
  intro b r t ht
  rw [schedWord_fst_of_windowHolds (windowHolds_engineRounds b ht.le r) ht, getElem?_schedule_of_lt_80 b ht]

/-! ## Linearity (R135) -/

theorem schedMix_xor (x3 x8 x14 x16 y3 y8 y14 y16 : Word) :
    schedMix (x3 ^^^ y3) (x8 ^^^ y8) (x14 ^^^ y14) (x16 ^^^ y16) =
      schedMix x3 x8 x14 x16 ^^^ schedMix y3 y8 y14 y16 := by
  rw [schedMix, schedMix, schedMix, ← rotl_xor]
  congr 1
  ac_rfl

/-- Four equal taps cancel in pairs. -/
theorem schedMix_self (x : Word) : schedMix x x x x = 0 := by
  simp [schedMix, rotl]

/-- Linear in the block's words by their definition, and from there on because the recurrence is. -/
theorem getD_schedule_xor (b1 b2 : Block) {t : Nat} (ht : t < 80) :
    (schedule (Vector.zipWith (· ^^^ ·) b1 b2)).getD t 0 = (schedule b1).getD t 0 ^^^ (schedule b2).getD t 0 := by
  induction t using Nat.strongRecOn with
  | ind t ih =>
    by_cases h16 : t < 16
    · rw [getD_schedule_of_lt_16 _ h16, getD_schedule_of_lt_16 b1 h16, getD_schedule_of_lt_16 b2 h16]
      simp [h16]
    · have hge : 16 ≤ t := Nat.le_of_not_lt h16
      rw [getD_schedule_of_ge_16 _ hge ht, getD_schedule_of_ge_16 b1 hge ht, getD_schedule_of_ge_16 b2 hge ht,
        ih (t - 3) (by omega) (by omega), ih (t - 8) (by omega) (by omega),
        ih (t - 14) (by omega) (by omega), ih (t - 16) (by omega) (by omega), schedMix_xor]

theorem schedule_xor (b1 b2 : Block) :
    schedule (Vector.zipWith (· ^^^ ·) b1 b2) = List.zipWith (· ^^^ ·) (schedule b1) (schedule b2) := by
  refine List.ext_getElem (by simp [length_schedule]) fun t ht _ => ?_
  have h80 : t < 80 := by rwa [length_schedule] at ht
  have hword := getD_schedule_xor b1 b2 h80
  simpa [List.getD_eq_getElem?_getD, length_schedule, h80] using hword

/-- The zero block is its own sum with itself, and by linearity so is its schedule. -/
theorem schedule_zero : schedule (tabulate 16 fun _ => 0) = List.replicate 80 0 := by
  have hzero : Vector.zipWith (· ^^^ ·) (tabulate 16 fun _ => (0 : Word)) (tabulate 16 fun _ => 0) =
      tabulate 16 fun _ => 0 := Vector.ext fun i hi => by simp
  rw [← hzero, schedule_xor, List.zipWith_self]
  simp only [BitVec.xor_self, List.map_const', length_schedule]
  rfl

/-- The taps of W[16], W[17] and W[18] lie within the block. -/
theorem getD_schedule_tabulate_const_eq_zero (x : Word) {t : Nat} (h16 : 16 ≤ t) (h18 : t ≤ 18) :
    (schedule (tabulate 16 fun _ => x)).getD t 0 = 0 := by
  have tap {i : Nat} (hi : i < 16) : (schedule (tabulate 16 fun _ => x)).getD i 0 = x := by
    rw [getD_schedule_of_lt_16 _ hi, getElem?_tabulate _ _ _ hi, Option.getD_some]
  rw [getD_schedule_of_ge_16 _ h16 (by omega), tap (by omega), tap (by omega), tap (by omega), tap (by omega),
    schedMix_self]

/-- Settles O49: the recurrence is linear, and where its four taps are equal it gives 0. -/
theorem scheduleIsLinear : Obligations.ScheduleIsLinear :=
  ⟨schedule_xor, schedule_zero, fun _ h16 h18 => getD_schedule_tabulate_const_eq_zero _ h16 h18⟩

end Sys2Proof.Machine
end

section
/-! The compression engine's statements (spec 42_compression.md): the round functions (R150 to R152), the tables of the
quartiles (R153, R154) and the command COMPRESS (R159). -/

namespace Sys2Proof.Machine

/-! ## COMPRESS (R159) -/

/-- The word of COMPRESS (R84, R91). -/
theorem hostAccess_compress (s : State) : hostAccess (.write (.window 0x04) 4 0x2) s = exec .compress s :=
  hostAccess_command regAt_cmd (by decide) s

theorem hashKnown_sixteen_eq_true_iff (s : State) :
    s.hashKnown 16 = true ↔ (∀ i : Fin 16, s.mWritten[i] = true) ∧ ∀ i : Fin 5, s.hKnown[i] = true := by
  rw [hashKnown_eq_true_iff, knowsH_eq_true_iff, wroteM_eq_true_iff, and_comm]
  exact and_congr_left' (forall_congr' fun i => forall_prop_of_true i.isLt)

theorem hashKnown_sixteen_eq_false_iff (s : State) :
    s.hashKnown 16 = false ↔ (∃ i : Fin 16, s.mWritten[i] = false) ∨ ∃ i : Fin 5, s.hKnown[i] = false := by
  rw [← Bool.not_eq_true, hashKnown_sixteen_eq_true_iff, not_and_or]
  simp only [not_forall, Bool.not_eq_true]

/-- Every word of H is known after COMPRESS, or none is (notes/assumptions 20). -/
theorem getElem_completeCompress_hKnown (p : Pending) (s : State) (i : Fin 5) :
    (completeCompress p s).hKnown[i] = s.hashKnown 16 :=
  getElem_tabulate 5 _ i.val i.isLt

/-- Settles O13: the snapshot is the block's own H, LEN and M, so the completion absorbs M into H. -/
theorem compressAbsorbsOneBlock : Obligations.CompressAbsorbsOneBlock := by
  refine ⟨fun s hs => exec_compress_of_idle hs, fun s hs hport => ?_, fun s hs => exec_of_busy hs .compress⟩
  obtain ⟨hbusy, hrun⟩ := run_issue hport .compress 0 (lat := Config.latCompress) (Nat.le_add_left _ _)
  refine ⟨_, exec_compress_of_idle hs, (hostAccess_compress s).trans (exec_compress_of_idle hs), hbusy, _, hrun,
    fun hm hh => ?known, fun hu => ?unknown, rfl, rfl, rfl, rfl, rfl, rfl, rfl, rfl, rfl, rfl, hport, rfl, rfl, rfl⟩
  case known =>
    have hk := (hashKnown_sixteen_eq_true_iff s).mpr ⟨hm, hh⟩
    exact ⟨absorbed_of_known hk _, fun i => (getElem_completeCompress_hKnown _ s i).trans hk⟩
  case unknown =>
    have hk := (hashKnown_sixteen_eq_false_iff s).mpr hu
    exact ⟨absorbed_of_unknown hk _, fun i => (getElem_completeCompress_hKnown _ s i).trans hk⟩

/-! ## The round functions (R150 to R152) -/

/-- Ch chooses: y's bit where x's is 1, z's where it is 0. -/
theorem getLsbD_ch (x y z : Word) {i : Nat} (hi : i < 32) :
    (ch x y z).getLsbD i = if x.getLsbD i then y.getLsbD i else z.getLsbD i := by
  simp only [ch, BitVec.getLsbD_or, BitVec.getLsbD_and, BitVec.getLsbD_not, hi]
  cases x.getLsbD i <;> simp

/-- Maj takes the majority. -/
theorem getLsbD_maj (x y z : Word) (i : Nat) : (maj x y z).getLsbD i =
    decide (2 ≤ (x.getLsbD i).toNat + (y.getLsbD i).toNat + (z.getLsbD i).toNat) := by
  simp only [maj, BitVec.getLsbD_xor, BitVec.getLsbD_and]
  cases x.getLsbD i <;> cases y.getLsbD i <;> cases z.getLsbD i <;> rfl

theorem getLsbD_parity (x y z : Word) (i : Nat) :
    (parity x y z).getLsbD i = (x.getLsbD i ^^ y.getLsbD i ^^ z.getLsbD i) := by
  rw [parity, BitVec.getLsbD_xor, BitVec.getLsbD_xor]

/-- The two terms of Ch have no bit in common, so their or is their exclusive or. -/
theorem ch_eq_xor (x y z : Word) : ch x y z = (x &&& y) ^^^ (~~~x &&& z) := by
  refine BitVec.eq_of_getLsbD_eq fun i hi => ?_
  rw [getLsbD_ch x y z hi]
  simp only [BitVec.getLsbD_xor, BitVec.getLsbD_and, BitVec.getLsbD_not, hi]
  cases x.getLsbD i <;> simp

/-- Settles O50: each function acts on one bit of x, y and z at a time. -/
theorem roundFunctionsBitByBit : Obligations.RoundFunctionsBitByBit :=
  fun x y z i hi => ⟨getLsbD_ch x y z hi, ch_eq_xor x y z, getLsbD_parity x y z i, getLsbD_maj x y z i⟩

/-! ## The quartiles (R153, R154) -/

/-- Settles O51: the bounds of a quartile decide the three comparisons with 20, 40 and 60. -/
theorem quartileTables : Obligations.QuartileTables := by
  intro t x y z
  refine ⟨fun h19 => ?first, fun h20 h39 => ?second, fun h40 h59 => ?third, fun h60 _ => ?fourth⟩
  case first =>
    have lt20 : t < 20 := by omega
    simp [roundFunction, roundConstant, lt20]
  case second =>
    have not20 : ¬ t < 20 := by omega
    have lt40 : t < 40 := by omega
    simp [roundFunction, roundConstant, not20, lt40]
  case third =>
    have not20 : ¬ t < 20 := by omega
    have not40 : ¬ t < 40 := by omega
    have lt60 : t < 60 := by omega
    simp [roundFunction, roundConstant, not20, not40, lt60]
  case fourth =>
    have not20 : ¬ t < 20 := by omega
    have not40 : ¬ t < 40 := by omega
    have not60 : ¬ t < 60 := by omega
    simp [roundFunction, roundConstant, not20, not40, not60]

end Sys2Proof.Machine
end

section
/-! The driver's commands (spec 43_driver.md): NOP, INIT and CLRERR (R185, R187, R188), FINAL (R186), and the fold over
blocks (R181); O10 to O12, O15 and O54. -/

namespace Sys2Proof.Machine

/-! ## The one word of a command without a tail (R87) -/

/-- The opcode of a command without a tail is no other command's (R84). -/
theorem eq_of_opcode_eq {i j : Instr} (hi : i ∈ plainCommands) (h : j.opcode = i.opcode) : j = i := by
  simp only [plainCommands, List.mem_cons, List.not_mem_nil, or_false] at hi
  rcases hi with rfl | rfl | rfl | rfl <;> cases j <;> simp_all [Instr.opcode]

/-- A word with the opcode of a command without a tail that is not the command's word decodes as no command: a command's
word is its encoding, and its opcode tells which it is. -/
theorem hostAccess_of_opcode {s : State} (hs : s.busy = false) {i : Instr} (hi : i ∈ plainCommands) {v : Word}
    (hopc : v.toNat % 16 = i.opcode.toNat) (hv : v ≠ encode i) :
    hostAccess (.write (.window 0x04) 4 v) s = .next (recordError .illegalCmd s) := by
  rw [hostAccess_cmd regAt_cmd, issueCommand_of_idle hs]
  cases hd : decode v with
  | illegal _ => rfl
  | command j =>
    have henc : v = encode j := eq_encode_of_decode hd
    have hlt := j.opcode.isLt
    have hj : j.opcode = i.opcode := by
      apply BitVec.eq_of_toNat_eq
      rw [← hopc, henc, encode_toNat]
      omega
    exact absurd (eq_of_opcode_eq hi hj ▸ henc) hv

/-! ## NOP, INIT and CLRERR (R185, R187, R188) -/

theorem hostAccess_nop (s : State) : hostAccess (.write (.window 0x04) 4 0x0) s = exec .nop s :=
  hostAccess_command regAt_cmd (by decide) s

theorem hostAccess_init (s : State) : hostAccess (.write (.window 0x04) 4 0x1) s = exec .init s :=
  hostAccess_command regAt_cmd (by decide) s

theorem hostAccess_clrerr (s : State) : hostAccess (.write (.window 0x04) 4 0x5) s = exec .clrerr s :=
  hostAccess_command regAt_cmd (by decide) s

/-- Settles O10: the word 0 runs NOP, which passes the busy check and does nothing. -/
theorem nopDoesNothing : Obligations.NopDoesNothing := by
  simp only [Obligations.NopDoesNothing, hostAccess_nop, and_self]
  exact ⟨fun s hs => exec_nop_of_idle hs, fun s hs => exec_of_busy hs .nop,
    fun s v hs hopc hv => hostAccess_of_opcode hs (i := .nop) (by decide) hopc hv⟩

/-- Settles O11: the word 1 runs INIT, which loads constants. -/
theorem initLoadsTheInitialValue : Obligations.InitLoadsTheInitialValue := by
  simp only [Obligations.InitLoadsTheInitialValue, hostAccess_init, and_self]
  exact ⟨fun s hs => ⟨exec_init_of_idle hs, exec_init_of_idle hs, exec_init_of_idle hs⟩,
    fun s hs => exec_of_busy hs .init,
    fun s v hs hopc hv => hostAccess_of_opcode hs (i := .init) (by decide) hopc hv, exec_init_of_idle rfl⟩

/-- With nothing recorded there is nothing to clear. -/
theorem clearErrors_of_clear {s : State} (he : s.err = false) (hc : s.errcode = .none) (ho : s.ovf = false) :
    clearErrors s = s := by
  cases s
  simp only at he hc ho
  rw [clearErrors, he, hc, ho]

theorem readStatus_of_idle {s : State} (hs : s.busy = false) : readStatus s = statusWith (nblkBits s.nblk) s := by
  rw [readStatus, hs, if_neg Bool.false_ne_true]

/-- R188's example: an idle block whose NBLK field is 0 reads STATUS = 0 once nothing is recorded. -/
theorem readStatus_clearErrors {s : State} (hs : s.busy = false) (h : readStatus s = 0x00000306) :
    readStatus (clearErrors s) = 0x00000000 := by
  have hcleared : (clearErrors s).busy = false := hs
  have hbefore := toNat_statusWith (nblkBits s.nblk) s
  rw [← readStatus_of_idle hs, h, hs] at hbefore
  have hovf := s.ovf.toNat_le
  have herr := s.err.toNat_le
  have hnblk : (nblkBits s.nblk).toNat = 0 := by
    have h306 : (0x00000306 : Word).toNat = 774 := rfl
    have hlt := (nblkBits s.nblk).isLt
    have hfalse : false.toNat = 0 := rfl
    omega
  apply BitVec.eq_of_toNat_eq
  rw [readStatus_of_idle hcleared, toNat_statusWith, hcleared]
  simp [hnblk, ErrCode.bits]

/-- Settles O12: the word 5 runs CLRERR, which clears the error record. -/
theorem clrerrClearsTheErrorRecord : Obligations.ClrerrClearsTheErrorRecord := by
  simp only [Obligations.ClrerrClearsTheErrorRecord, hostAccess_clrerr]
  refine ⟨fun s hs => ⟨exec_clrerr_of_idle hs, exec_clrerr_of_idle hs, readStatus_clearErrors hs⟩,
    fun s hs he hc ho => ?_, fun s hs => ⟨exec_of_busy hs .clrerr, exec_of_busy hs .clrerr⟩,
    fun s v hs hopc hv => hostAccess_of_opcode hs (i := .clrerr) (by decide) hopc hv⟩
  rw [exec_clrerr_of_idle hs, clearErrors_of_clear he hc ho]

/-! ## The fold over blocks (R181, R190) -/

theorem digestFromBlocks_append (x y : List Block) (h : CV) :
    digestFromBlocks (x ++ y) h = digestFromBlocks y (digestFromBlocks x h) :=
  List.foldl_append

/-- Settles O54: a left fold splits. -/
theorem digestFoldSplits : Obligations.DigestFoldSplits :=
  fun x y b iv => ⟨digestFromBlocks_append x y iv, rfl, digestFromBlocks_cons b x iv⟩

/-! ## FINAL (R186) -/

/-- The word of FINAL n (R84, R91). -/
theorem hostAccess_final (s : State) {n : Nat} (hn : n < 64) :
    hostAccess (.write (.window 0x04) 4 (BitVec.ofNat 32 (16 * n + 4))) s = exec (.final n) s := by
  have hword : encode (.final n) = BitVec.ofNat 32 (16 * n + 4) := by
    apply BitVec.eq_of_toNat_eq
    rw [encode_toNat]
    simp [Instr.tailField, Instr.opcode]
    omega
  have hwf : (Instr.final n).wellFormed = true := decide_eq_true hn
  rw [← hword]
  exact hostAccess_command regAt_cmd (decodeOfEncodeIsTheCommand _ hwf) s

theorem hashKnown_of_forall {s : State} {k : Nat} (hm : ∀ i : Fin 16, i.val < k → s.mWritten[i] = true)
    (hh : ∀ i : Fin 5, s.hKnown[i] = true) : s.hashKnown k = true :=
  (hashKnown_eq_true_iff s k).mpr ⟨(knowsH_eq_true_iff s).mpr hh, (wroteM_eq_true_iff s k).mpr hm⟩

theorem hashKnown_eq_false_iff (s : State) (k : Nat) :
    s.hashKnown k = false ↔
      (∃ i : Fin 16, i.val < k ∧ s.mWritten[i] = false) ∨ ∃ i : Fin 5, s.hKnown[i] = false := by
  rw [State.hashKnown, Bool.and_eq_false_iff, wroteM_eq_false_iff, or_comm, ← Bool.not_eq_true, knowsH_eq_true_iff]
  simp

/-- The command in flight after FINAL n on an idle block: the snapshot is the block's registers (R30, R186). -/
def finalPending (n : Nat) (s : State) : Pending :=
  { op := .final, n := BitVec.ofNat 6 n, hIn := s.h, lenIn := s.len, mIn := s.m, remaining := Config.latFinal n }

section
variable (s : State) {n : Nat} (hn : n < 64)
include hn

theorem finalPending_n : (finalPending n s).n.toNat = n := Nat.mod_eq_of_lt hn

theorem tailLength_finalPending : tailLength (finalPending n s) = s.len + BitVec.ofNat 64 (8 * n) := by
  rw [tailLength, tailBits_eq_ofNat, finalPending_n s hn]
  rfl

theorem paddedTail_finalPending : paddedTail (finalPending n s) =
    padTail (tailBytes s.m n) n (s.len + BitVec.ofNat 64 (8 * n)) := by
  rw [paddedTail, finalPending_n s hn, tailLength_finalPending s hn]
  rfl

theorem ovf_completeFinal_finalPending : (completeFinal (finalPending n s) s).ovf =
    (s.ovf || decide (2 ^ 64 ≤ s.len.toNat + 8 * n)) := by
  rw [completeFinal_ovf, noteCarry, carry64, tailBits_toNat, finalPending_n s hn]
  rfl

/-- Every word of H is known after FINAL, or none is (notes/assumptions 20). -/
theorem getElem_completeFinal_hKnown (i : Fin 5) :
    (completeFinal (finalPending n s) s).hKnown[i] = s.hashKnown (tailWords n) := by
  rw [completeFinal_hKnown, finalPending_n s hn]
  exact getElem_tabulate 5 _ i.val i.isLt

/-- FINAL's H where nothing it consumes is UNSPECIFIED. -/
theorem completeFinal_h_of_known (hk : s.hashKnown (tailWords n) = true) :
    (completeFinal (finalPending n s) s).h =
      absorbPbuf (pbufOfBytes (paddedTail (finalPending n s)).2) (paddedTail (finalPending n s)).1 s.h := by
  rw [completeFinal_h, finalPending_n s hn, absorbed_of_known hk,
    padded_of_wrote ((hashKnown_eq_true_iff s _).mp hk).2]
  rfl

theorem completeFinal_pbuf_of_wrote (hw : s.wroteM (tailWords n) = true) :
    (completeFinal (finalPending n s) s).pbuf = pbufOfBytes (paddedTail (finalPending n s)).2 := by
  rw [completeFinal_pbuf, finalPending_n s hn, padded_of_wrote hw]

theorem pbufKnown_completeFinal_finalPending :
    (completeFinal (finalPending n s) s).pbufKnown = s.wroteM (tailWords n) := by
  rw [completeFinal_pbufKnown, finalPending_n s hn]

end

/-- The block count of a padded tail is 1 or 2, so what is not one block is two. -/
theorem absorbPbuf_of_ne_zero (pbuf : Vector Word 32) {nblk : Fin 3} (h0 : nblk ≠ 0) (h : CV) :
    absorbPbuf pbuf nblk h =
      if nblk = 1 then compress h (pbufBlock pbuf 0)
      else compress (compress h (pbufBlock pbuf 0)) (pbufBlock pbuf 1) := by
  by_cases h1 : nblk = 1
  · have h2 : nblk ≠ 2 := by omega
    rw [absorbPbuf, if_pos h1, if_neg h2]
  · have h2 : nblk = 2 := by omega
    rw [absorbPbuf, if_neg h1, if_pos h2]

/-- Settles O15: the completion pads the tail of M with LEN + 8n and absorbs it into H, each where it is known. -/
theorem finalAbsorbsThePaddedTail : Obligations.FinalAbsorbsThePaddedTail := by
  refine ⟨fun s n hn hs => exec_final_of_idle hs hn, fun s n hn hs hport => ?_, fun s n hs => exec_of_busy hs (.final n)⟩
  obtain ⟨hbusy, hrun⟩ := run_issue hport .final (BitVec.ofNat 6 n) (lat := Config.latFinal n) (Nat.le_add_left _ _)
  have hpad := paddedTail_finalPending s hn
  have hknown := getElem_completeFinal_hKnown s hn
  refine ⟨_, exec_final_of_idle hs hn, (hostAccess_final s hn).trans (exec_final_of_idle hs hn), hbusy,
    completeFinal (finalPending n s) s, hrun, congrArg Prod.fst hpad, fun hm => ?written, fun hm => ?unwritten,
    fun hu => ?unknown, tailLength_finalPending s hn, ovf_completeFinal_finalPending s hn,
    rfl, rfl, rfl, rfl, rfl, hport, rfl, rfl, rfl⟩
  case written =>
    have hw : s.wroteM (tailWords n) = true := (wroteM_eq_true_iff s _).mpr hm
    have hpbuf := completeFinal_pbuf_of_wrote s hn hw
    refine ⟨by rw [hpbuf, hpad], by rw [pbufKnown_completeFinal_finalPending s hn, hw], fun hh => ?_⟩
    have hk : s.hashKnown (tailWords n) = true := hashKnown_of_forall hm hh
    refine ⟨fun i => (hknown i).trans hk, ?_⟩
    rw [completeFinal_h_of_known s hn hk, absorbPbuf_of_ne_zero _ (paddedTail_nblk_ne_zero _), hpbuf, hpad]
  case unwritten =>
    have hw : s.wroteM (tailWords n) = false := (wroteM_eq_false_iff s _).mpr hm
    refine ⟨?_, by rw [pbufKnown_completeFinal_finalPending s hn, hw]⟩
    rw [completeFinal_pbuf, finalPending_n s hn, padded_of_unwritten hw]
  case unknown =>
    have hk : s.hashKnown (tailWords n) = false := (hashKnown_eq_false_iff s _).mpr hu
    refine ⟨?_, fun i => (hknown i).trans hk⟩
    rw [completeFinal_h, finalPending_n s hn, absorbed_of_unknown hk]

end Sys2Proof.Machine
end

section
/-! Hashing as a host does it (spec 43_driver.md section 3): the blocks of a padded message and the resumption of a fold
(R190), what sequences of host cycles do to an idle block, and the procedures of R189 and R190; O55 to O57. -/

namespace Sys2Proof.Machine

/-! ## The blocks of a byte sequence (R104, R105) -/

/-- The first `n` blocks of a byte sequence, as words. -/
def byteBlocks (n : Nat) (b : List Byte) : List Block := (List.range n).map (byteBlock b)

theorem byteBlock_drop (b : List Byte) (j k : Nat) : byteBlock (b.drop (64 * j)) k = byteBlock b (j + k) := by
  rw [byteBlock, byteBlock, List.drop_drop, ← Nat.mul_add]

theorem byteBlocks_add (j k : Nat) (b : List Byte) :
    byteBlocks (j + k) b = byteBlocks j b ++ byteBlocks k (b.drop (64 * j)) := by
  rw [byteBlocks, List.range_add, List.map_append, List.map_map]
  exact congrArg _ (List.map_congr_left fun i _ => (byteBlock_drop b j i).symm)

/-- Bytes past the blocks do not matter. -/
theorem byteBlocks_append {n : Nat} {x : List Byte} (hx : 64 * n ≤ x.length) (y : List Byte) :
    byteBlocks n (x ++ y) = byteBlocks n x :=
  List.map_congr_left fun i hi => tabulate_congr fun k hk => wordOfBytes_congr fun j hj => by
    have hin : i < n := List.mem_range.mp hi
    rw [List.getElem?_drop, List.getElem?_drop, List.getElem?_append_left (by omega)]

/-! ## The digest as a fold over blocks of bytes (R182, R190) -/

theorem digest_eq_fold {m : List Byte} (hm : 8 * m.length < 2 ^ 64) (iv : CV) :
    digest m iv = some (digestFromBlocks (byteBlocks (padBlockCount m.length) (padBytes m)) iv) := by
  rw [digest, if_pos hm, parse_of_length (length_padBits m), Option.map_some, ← bitsOfBytes_padBytes,
    map_blockWords_bitBlocks (length_padBytes m), byteBlocks]

theorem padBlockCount_add_blocks (n l : Nat) : padBlockCount (64 * n + l) = n + padBlockCount l := by
  unfold padBlockCount
  omega

/-- Whole blocks in front of a message do not change how many its padded rest fills. -/
theorem length_append_padSuffix (m : List Byte) {l : Nat} (hl : l % 64 = 0) :
    (m ++ padSuffix (l + m.length)).length = 64 * padBlockCount m.length := by
  rw [List.length_append, length_padSuffix, padZeroBytes, padBlockCount]
  omega

theorem padBytes_append (x y : List Byte) :
    padBytes (x ++ y) = x ++ (y ++ padSuffix (x.length + y.length)) := by
  rw [padBytes, List.append_assoc, List.length_append]

/-- The padded form of `m1` is whole blocks, so the fold over the longer message passes through the digest of `m1`. -/
theorem digest_resumed {m1 m2 : List Byte} {d1 : CV} (h1 : digest m1 Config.iv = some d1)
    (hlt : 8 * ((padBytes m1).length + m2.length) < 2 ^ 64) :
    digest (padBytes m1 ++ m2) Config.iv = some (digestFromBlocks
      (byteBlocks (padBlockCount m2.length) (m2 ++ padSuffix ((padBytes m1).length + m2.length))) d1) := by
  have hlen : (padBytes m1).length = m1.length + (padSuffix m1.length).length := List.length_append
  have hblocks := length_padBytes m1
  rw [digest_eq_fold (by omega)] at h1
  rw [digest_eq_fold (by rwa [List.length_append]), padBytes_append, List.length_append, hblocks,
    padBlockCount_add_blocks, byteBlocks_add, digestFromBlocks_append, ← hblocks, List.drop_left,
    byteBlocks_append (Nat.le_of_eq hblocks.symm), Option.some.inj h1]

/-- Settles O56: the blocks of m2 and its padding are those the fold over the longer message still has to take. -/
theorem resumptionEquivalence : Obligations.ResumptionEquivalence := by
  intro m1 m2 d1 h1
  have hlen : (padBytes m1).length = m1.length + (padSuffix m1.length).length := List.length_append
  dsimp only
  rw [← hlen]
  intro hlt
  have hblocks : (m2 ++ padSuffix ((padBytes m1).length + m2.length)).length = 64 * padBlockCount m2.length :=
    length_append_padSuffix m2 (by rw [length_padBytes]; omega)
  refine ⟨_, parse_of_length (n := padBlockCount m2.length) (by rw [length_bitsOfBytes, hblocks]; omega), ?_⟩
  rw [map_blockWords_bitBlocks hblocks]
  exact digest_resumed h1 hlt

/-! ## Sequences of cycles -/

/-- From every state with `P` whose next inputs are `cs`, the cycles `cs` run without a stop and leave a state with `Q`
and the inputs that followed. -/
def Drives (P : State → Prop) (cs : List Cycle) (Q : State → Prop) : Prop :=
  ∀ s rest, P s → s.port = cs ++ rest → ∃ t, run cs.length s = .next t ∧ t.port = rest ∧ Q t

theorem drives_nil {P Q : State → Prop} (h : ∀ s, P s → Q s) : Drives P [] Q :=
  fun s _ hs hp => ⟨s, rfl, hp, h s hs⟩

theorem Drives.append {P Q R : State → Prop} {cs ds : List Cycle} (h : Drives P cs Q) (h' : Drives Q ds R) :
    Drives P (cs ++ ds) R := by
  intro s rest hs hp
  obtain ⟨t, hrun, hport, ht⟩ := h s (ds ++ rest) hs (by rw [hp, List.append_assoc])
  obtain ⟨u, hrun', hport', hu⟩ := h' t rest ht hport
  exact ⟨u, by rw [List.length_append, run_add hrun, hrun'], hport', hu⟩

theorem drives_of_step {P Q : State → Prop} {c : Cycle}
    (h : ∀ s rest, P s → s.port = c :: rest → ∃ t, step s = .next t ∧ t.port = rest ∧ Q t) : Drives P [c] Q := by
  intro s rest hs hp
  obtain ⟨t, hstep, ht⟩ := h s rest hs hp
  exact ⟨t, run_succ_of_step hstep 0, ht⟩

theorem writeReg_port (r : Reg) (v : Word) (s : State) : (writeReg r v s).port = s.port := by
  rcases writeReg_cases r v s with h | ⟨-, h⟩ | ⟨-, ⟨i, -, h⟩ | ⟨l, -, h⟩ | ⟨i, -, h⟩⟩ <;> rw [h] <;> rfl

/-- What is claimed of the block does not depend on the inputs to come. -/
def IgnoresPort (P : State → Prop) : Prop := ∀ s rest, P s → P { s with port := rest }

/-- A write to a data register of an idle block (R54). -/
theorem drives_write {P Q : State → Prop} {r : Reg} {v : Word} (hr : r ≠ .cmd) (hP : IgnoresPort P)
    (h : ∀ s, P s → s.seq = .idle ∧ Q (writeReg r v s)) : Drives P [writeCycle r.offset v] Q :=
  drives_of_step fun s rest hs hp => by
    obtain ⟨hidle, hQ⟩ := h _ (hP s rest hs)
    have hstep := (step_write_idle (s := s) hidle hp).trans (hostWrite_of_regAt (regAt_offset r) hr v _)
    exact ⟨_, hstep, writeReg_port _ _ _, hQ⟩

/-- Writes to data registers one after another: `I done` holds where those of `done` have been made. -/
theorem drives_writes {α : Type} {P : State → Prop} {reg : α → Reg} {val : α → Word} {I : List α → State → Prop}
    {l : List α} (hr : ∀ a, reg a ≠ .cmd) (hI : ∀ done, IgnoresPort (I done)) (hnil : ∀ s, P s → I [] s)
    (h : ∀ done, ∀ a ∈ l, ∀ s, I done s → s.seq = .idle ∧ I (done ++ [a]) (writeReg (reg a) (val a) s)) :
    Drives P (l.map fun a => writeCycle (reg a).offset (val a)) (I l) := by
  induction l using List.reverseRecOn with
  | nil => exact drives_nil hnil
  | append_singleton xs a ih =>
    rw [List.map_append]
    have hxs := ih fun done x hx => h done x (List.mem_append_left _ hx)
    exact hxs.append (drives_write (hr a) (hI xs) (h xs a (List.mem_append_right _ (List.mem_singleton_self a))))

theorem run_issue_quiet {s : State} {gap lat : Nat} {rest : List Cycle} (op : EngineOp) (n : BitVec 6)
    (hlat : 1 ≤ lat) (hgap : lat ≤ gap) (hp : s.port = List.replicate gap quietCycle ++ rest) :
    run gap (issue op n lat s) = .next (completeCommand
      { op := op, n := n, hIn := s.h, lenIn := s.len, mIn := s.m, remaining := lat } { s with port := rest }) := by
  rw [run_quiet_busy gap rest _ _ (issue_seq op n lat s) hlat hgap hp, issue, completeCommand_seq_irrel,
    completeCommand_withPort _ s rest]

/-- A command with latency on an idle block, and a wait that covers its latency: the completion on the snapshot is all
that happens (R30). -/
theorem drives_command {P Q : State → Prop} {i : Instr} {op : EngineOp} {n : BitVec 6} {lat gap : Nat}
    (hwf : i.wellFormed = true) (hexec : ∀ s, s.busy = false → exec i s = .next (issue op n lat s))
    (hlat : 1 ≤ lat) (hgap : lat ≤ gap) (hP : IgnoresPort P)
    (h : ∀ s, P s → s.seq = .idle ∧ Q (completeCommand
      { op := op, n := n, hIn := s.h, lenIn := s.len, mIn := s.m, remaining := lat } s)) :
    Drives P (cmdCycle i :: List.replicate gap quietCycle) Q := by
  intro s rest hs hp
  obtain ⟨hidle, hQ⟩ := h _ (hP s rest hs)
  have hbusy := busy_of_idle hidle
  have hstep := (step_command_of_idle hp (regAt_offset .cmd) (decodeOfEncodeIsTheCommand i hwf) hbusy).trans
    (hexec _ hbusy)
  refine ⟨_, ?_, completeCommand_port _ _, hQ⟩
  rw [List.length_cons, List.length_replicate, run_succ_of_step hstep]
  exact run_issue_quiet op n hlat hgap rfl

/-! ## What the host knows of the block between commands -/

/-- The block is idle, with the error record and OVF that `s` has. -/
structure IdleSince (s t : State) : Prop where
  idle : t.seq = .idle
  err : t.err = s.err
  errcode : t.errcode = s.errcode
  ovf : t.ovf = s.ovf

/-- Beyond that, H is known and is `h`, and LEN counts `l` bytes. -/
structure Hashing (s : State) (h : CV) (l : Nat) (t : State) : Prop extends IdleSince s t where
  value : t.h = h
  known : t.knowsH = true
  len : t.len = bitLength l

/-- The words of M numbered in `l` have been written, with those of a byte sequence. -/
def HoldsWords (bytes : List Byte) (l : List Nat) (t : State) : Prop :=
  ∀ i : Fin 16, i.val ∈ l → t.m[i] = wordOfBytes bytes i ∧ t.mWritten[i] = true

theorem Hashing.hashKnown {s t : State} {h : CV} {l k : Nat} {bytes : List Byte} (ht : Hashing s h l t)
    (hw : HoldsWords bytes (List.range k) t) : t.hashKnown k = true :=
  hashKnown_of_forall (fun i hi => (hw i (List.mem_range.mpr hi)).2) ((knowsH_eq_true_iff t).mp ht.known)

theorem ignoresPort_hashing (s : State) (h : CV) (l : Nat) (bytes : List Byte) (ws : List Nat) :
    IgnoresPort fun t => Hashing s h l t ∧ HoldsWords bytes ws t :=
  fun _ _ ⟨ht, hw⟩ => ⟨{ ht with }, hw⟩

theorem Hashing.readReg_h {s t : State} {h : CV} {l : Nat} (ht : Hashing s h l t) (i : Fin 5) :
    readReg (.h i) t = CV.word t.h i := by
  rw [readReg, busy_of_idle ht.idle, (knowsH_eq_true_iff t).mp ht.known i]
  rfl

/-! ## LEN in bytes (R22, R225) -/

theorem bitLength_add (a b : Nat) : bitLength a + bitLength b = bitLength (a + b) := by
  rw [bitLength, bitLength, bitLength, ← BitVec.ofNat_add, Nat.mul_add]

/-- Below 2^64 bits no length computation carries. -/
theorem noteCarry_bitLength {a b : Nat} (h : 8 * (a + b) < 2 ^ 64) (o : Bool) :
    noteCarry o (bitLength a) (bitLength b) = o := by
  apply noteCarry_of_lt
  simp only [bitLength, BitVec.toNat_ofNat]
  omega

/-! ## Loading M (R54, R57) -/

theorem writeReg_m_of_idle {s : State} (hs : s.seq = .idle) (i : Fin 16) (v : Word) :
    writeReg (.m i) v s = writeMWord i v s := by
  rw [writeReg, writeUnlessBusy_of_idle (busy_of_idle hs)]

theorem HoldsWords.writeMWord {bytes : List Byte} {l : List Nat} {t : State} (ht : HoldsWords bytes l t) {a : Nat}
    (ha : a < 16) : HoldsWords bytes (l ++ [a]) (writeMWord (Fin.ofNat 16 a) (wordOfBytes bytes a) t) := by
  intro i hi
  have hmod : a % 16 = a := Nat.mod_eq_of_lt ha
  by_cases h : a = i.val
  · simp [h]
  · have hmem : i.val ∈ l := by
      rcases List.mem_append.mp hi with hl | hl
      · exact hl
      · exact absurd (List.mem_singleton.mp hl).symm h
    simpa [Vector.getElem_set, hmod, h] using ht i hmem

theorem drives_loadCycles (s : State) (h : CV) (l : Nat) (bytes : List Byte) {k : Nat} (hk : k ≤ 16) :
    Drives (Hashing s h l) (loadCycles bytes k)
      (fun t => Hashing s h l t ∧ HoldsWords bytes (List.range k) t) := by
  refine drives_writes (I := fun done t => Hashing s h l t ∧ HoldsWords bytes done t) (by simp)
    (fun done => ignoresPort_hashing s h l bytes done) (fun t ht => ⟨ht, by simp [HoldsWords]⟩)
    fun done a ha t ⟨ht, hw⟩ => ?_
  have ha16 : a < 16 := Nat.lt_of_lt_of_le (List.mem_range.mp ha) hk
  rw [writeReg_m_of_idle ht.idle]
  exact ⟨ht.idle, { ht with }, hw.writeMWord ha16⟩

/-! ## One pass of the loop (R159, R189) -/

theorem eq_byteBlock_of_holdsWords {bytes : List Byte} {t : State} (h : HoldsWords bytes (List.range 16) t) :
    t.m = byteBlock bytes 0 :=
  Vector.ext fun i hi => by
    rw [byteBlock, getElem_tabulate]
    exact (h ⟨i, hi⟩ (List.mem_range.mpr hi)).1

theorem drives_compress {s : State} {h : CV} {l : Nat} {bytes : List Byte} {gap : Nat} (hlt : 8 * (l + 64) < 2 ^ 64)
    (hgap : Config.latCompress ≤ gap) :
    Drives (fun t => Hashing s h l t ∧ HoldsWords bytes (List.range 16) t)
      (cmdCycle .compress :: List.replicate gap quietCycle)
      (Hashing s (compress h (byteBlock bytes 0)) (l + 64)) := by
  refine drives_command rfl (fun t => exec_compress_of_idle) (Nat.le_add_left _ _) hgap
    (ignoresPort_hashing s h l bytes _) fun t ⟨ht, hw⟩ => ?_
  have hk : t.hashKnown 16 = true := ht.hashKnown hw
  refine ⟨ht.idle, ⟨rfl, ht.err, ht.errcode, ?ovf⟩, ?value, ?known, ?len⟩
  case ovf =>
    change noteCarry t.ovf t.len (bitLength 64) = s.ovf
    rw [ht.len, noteCarry_bitLength hlt, ht.ovf]
  case value =>
    rw [← ht.value, ← eq_byteBlock_of_holdsWords hw]
    exact absorbed_of_known hk _
  case known =>
    exact (knowsH_eq_true_iff _).mpr fun i => (getElem_completeCompress_hKnown _ t i).trans hk
  case len =>
    change t.len + bitLength 64 = bitLength (l + 64)
    rw [ht.len, bitLength_add]

theorem drives_blockCycles {s : State} {h : CV} {l : Nat} (bytes : List Byte) {gap : Nat}
    (hlt : 8 * (l + 64) < 2 ^ 64) (hgap : Config.latCompress ≤ gap) :
    Drives (Hashing s h l) (blockCycles bytes gap) (Hashing s (compress h (byteBlock bytes 0)) (l + 64)) := by
  rw [blockCycles, List.append_assoc]
  exact (drives_loadCycles s h l bytes (Nat.le_refl 16)).append (drives_compress hlt hgap)

theorem byteBlock_take (bytes : List Byte) : byteBlock (bytes.take 64) 0 = byteBlock bytes 0 :=
  tabulate_congr fun _ _ => wordOfBytes_take (by omega)

theorem drives_blocksCycles {s : State} {gap : Nat} (hgap : Config.latCompress ≤ gap) (q : Nat) (m : List Byte) (h : CV)
    (l : Nat) (hlt : 8 * (l + 64 * q) < 2 ^ 64) :
    Drives (Hashing s h l) (blocksCycles q m gap) (Hashing s (digestFromBlocks (byteBlocks q m) h) (l + 64 * q)) := by
  induction q generalizing m h l with
  | zero => exact drives_nil fun t ht => ht
  | succ q ih =>
    have hfold : digestFromBlocks (byteBlocks (q + 1) m) h =
        digestFromBlocks (byteBlocks q (m.drop 64)) (compress h (byteBlock (m.take 64) 0)) := by
      rw [Nat.add_comm, byteBlocks_add, digestFromBlocks_append, byteBlock_take]
      rfl
    have hlen : l + 64 * (q + 1) = l + 64 + 64 * q := by omega
    rw [hlen] at hlt
    rw [hfold, hlen]
    exact (drives_blockCycles _ (by omega) hgap).append (ih _ _ _ hlt)

/-! ## The tail (R108, R186, R189) -/

theorem tailBytes_of_holdsWords {tail fill : List Byte} {t : State} (htail : tail.length < 64)
    (h : HoldsWords (tail ++ fill) (List.range (tailWords tail.length)) t) : tailBytes t.m tail.length = tail := by
  apply List.ext_getElem?
  intro j
  by_cases hj : j < tail.length
  · have hword : j / 4 < tailWords tail.length := by unfold tailWords; omega
    have hm := (h ⟨j / 4, by omega⟩ (List.mem_range.mpr hword)).1
    have hlt : j / 4 < 16 := by omega
    have hm' : t.m[j / 4]? = some (wordOfBytes (tail ++ fill) (j / 4)) := by
      rw [Vector.getElem?_eq_getElem hlt]
      exact congrArg some hm
    rw [tailBytes, List.getElem?_map, List.getElem?_range hj, Option.map_some, blockByte, hm', Option.getD_some,
      ← wordByte_wordOfBytes _ _ (by rw [List.length_append]; omega), List.getElem?_append_left hj]
  · rw [List.getElem?_eq_none (by rw [length_tailBytes]; omega), List.getElem?_eq_none (by omega)]

theorem absorbPbuf_pbufOfBytes (p : List Byte) {nblk : Fin 3} (h0 : nblk ≠ 0) (h : CV) :
    absorbPbuf (pbufOfBytes p) nblk h = digestFromBlocks (byteBlocks nblk.val p) h := by
  rw [absorbPbuf_of_ne_zero _ h0, pbufBlock_pbufOfBytes p (by decide), pbufBlock_pbufOfBytes p (by decide)]
  by_cases h1 : nblk = 1
  · rw [if_pos h1, h1]; rfl
  · have h2 : nblk = 2 := by omega
    rw [if_neg h1, h2]; rfl

/-- What FINAL leaves of a message whose padded tail it has absorbed. -/
structure Finished (s : State) (h : CV) (l : Nat) (nblk : Fin 3) (t : State) : Prop extends Hashing s h l t where
  padKnown : t.pbufKnown = true
  blocks : t.nblk = nblk

theorem drives_final {s : State} {h : CV} {l : Nat} {tail fill : List Byte} {gap : Nat} (htail : tail.length < 64)
    (hlt : 8 * (l + tail.length) < 2 ^ 64) (hgap : Config.latFinal tail.length ≤ gap) :
    Drives (fun t => Hashing s h l t ∧ HoldsWords (tail ++ fill) (List.range (tailWords tail.length)) t)
      (cmdCycle (.final tail.length) :: List.replicate gap quietCycle)
      (Finished s (digestFromBlocks (byteBlocks (tailBlockCount tail.length).val
        (padTail tail tail.length (bitLength (l + tail.length))).2) h) (l + tail.length)
        (tailBlockCount tail.length)) := by
  refine drives_command (decide_eq_true htail) (fun t ht => exec_final_of_idle ht htail) (Nat.le_add_left _ _) hgap
    (ignoresPort_hashing s h l _ _) fun t ⟨ht, hw⟩ => ⟨ht.idle, ?_⟩
  change Finished s _ _ _ (completeFinal (finalPending tail.length t) t)
  have hk : t.hashKnown (tailWords tail.length) = true := ht.hashKnown hw
  have hlen : tailLength (finalPending tail.length t) = bitLength (l + tail.length) := by
    rw [tailLength_finalPending t htail, ht.len, ← bitLength, bitLength_add]
  have hpad : paddedTail (finalPending tail.length t) = padTail tail tail.length (bitLength (l + tail.length)) := by
    rw [paddedTail_finalPending t htail, tailBytes_of_holdsWords htail hw, ht.len, ← bitLength, bitLength_add]
  refine ⟨⟨⟨rfl, ht.err, ht.errcode, ?ovf⟩, ?value, ?known, hlen⟩, ?padKnown, congrArg Prod.fst hpad⟩
  case ovf =>
    have hlenIn : (finalPending tail.length t).lenIn = bitLength l := ht.len
    rw [completeFinal_ovf, hlenIn, tailBits_eq_ofNat, finalPending_n t htail, ← bitLength, noteCarry_bitLength hlt,
      ht.ovf]
  case value =>
    rw [completeFinal_h_of_known t htail hk, absorbPbuf_pbufOfBytes _ (paddedTail_nblk_ne_zero _), hpad, ht.value]
    rfl
  case known =>
    exact (knowsH_eq_true_iff _).mpr fun i => (getElem_completeFinal_hKnown t htail i).trans hk
  case padKnown =>
    exact (pbufKnown_completeFinal_finalPending t htail).trans ((hashKnown_eq_true_iff t _).mp hk).2

theorem drives_tailCycles {s : State} {h : CV} {l : Nat} {tail : List Byte} (fill : List Byte) {gap : Nat}
    (htail : tail.length < 64) (hlt : 8 * (l + tail.length) < 2 ^ 64) (hgap : Config.latFinal tail.length ≤ gap) :
    Drives (Hashing s h l) (tailCycles tail fill gap)
      (Finished s (digestFromBlocks (byteBlocks (tailBlockCount tail.length).val
        (padTail tail tail.length (bitLength (l + tail.length))).2) h) (l + tail.length)
        (tailBlockCount tail.length)) := by
  rw [tailCycles, List.append_assoc]
  exact (drives_loadCycles s h l (tail ++ fill) (by omega)).append (drives_final htail hlt hgap)

/-! ## A whole message (R109, R189) -/

/-- The blocks of a message padded for the length `l + m.length`, where `l` bytes came before in whole blocks: the full
blocks, and then those of the padded tail. -/
theorem byteBlocks_append_padSuffix (m : List Byte) {l : Nat} (hl : l % 64 = 0) :
    byteBlocks (padBlockCount m.length) (m ++ padSuffix (l + m.length)) =
      byteBlocks (m.length / 64) m ++
        byteBlocks (tailBlockCount (m.length % 64)).val
          (padTail (m.drop (64 * (m.length / 64))) (m.length % 64) (bitLength (l + m.length))).2 := by
  have hmod : (l + m.length) % 64 = m.length % 64 := by omega
  have hzeros := tailBlockCount_zeros (l + m.length)
  rw [hmod] at hzeros
  have hfull : 64 * (m.length / 64) ≤ m.length := Nat.mul_div_le _ _
  rw [padBlockCount_eq_add, byteBlocks_add, byteBlocks_append hfull, List.drop_append_of_le_length hfull]
  simp only [padTail, hzeros, padSuffix, List.append_assoc]

theorem drives_absorbCycles {s : State} {h : CV} {l : Nat} {m : List Byte} (fill : List Byte) {gapBlock gapTail : Nat}
    (hl : l % 64 = 0) (hlt : 8 * (l + m.length) < 2 ^ 64) (hblock : Config.latCompress ≤ gapBlock)
    (htail : Config.latFinal (m.length % 64) ≤ gapTail) :
    Drives (Hashing s h l) (absorbCycles m fill gapBlock gapTail)
      (Finished s (digestFromBlocks (byteBlocks (padBlockCount m.length) (m ++ padSuffix (l + m.length))) h)
        (l + m.length) (tailBlockCount (m.length % 64))) := by
  have hlen : (m.drop (64 * (m.length / 64))).length = m.length % 64 := by
    rw [List.length_drop]
    omega
  have htotal : l + 64 * (m.length / 64) + m.length % 64 = l + m.length := by omega
  have hblocks := drives_blocksCycles (s := s) hblock (m.length / 64) m h l (by omega)
  have hend := drives_tailCycles (s := s) (l := l + 64 * (m.length / 64))
    (h := digestFromBlocks (byteBlocks (m.length / 64) m) h) (tail := m.drop (64 * (m.length / 64))) fill
    (gap := gapTail) (by omega) (by omega) (by rwa [hlen])
  rw [hlen, htotal] at hend
  rw [byteBlocks_append_padSuffix m hl, digestFromBlocks_append]
  exact hblocks.append hend

/-! ## The starts: INIT (R189), and a chaining value and a length loaded (R190) -/

theorem drives_init (s : State) : Drives (IdleSince s) [cmdCycle .init] (Hashing s Config.iv 0) :=
  drives_of_step fun t rest ht hp =>
    have hbusy : ({ t with port := rest } : State).busy = false := busy_of_idle ht.idle
    have hdec : decode (encode .init) = .command .init := decodeOfEncodeIsTheCommand .init rfl
    ⟨loadIv { t with port := rest },
      (step_command_of_idle hp (regAt_offset .cmd) hdec (busy_of_idle ht.idle)).trans (exec_init_of_idle hbusy), rfl,
      { ht with value := rfl, known := rfl, len := rfl }⟩

/-- The words of H named in `l` have been written, with those of `h`. -/
def HoldsChaining (h : CV) (l : List (Fin 5)) (t : State) : Prop :=
  ∀ i ∈ l, CV.word t.h i = CV.word h i ∧ t.hKnown[i] = true

theorem HoldsChaining.writeHWord {h : CV} {l : List (Fin 5)} {t : State} (ht : HoldsChaining h l t) (a : Fin 5) :
    HoldsChaining h (l ++ [a]) (writeHWord a (CV.word h a) t) := by
  intro i hi
  rw [writeHWord_h, word_withWord, writeHWord_hKnown]
  by_cases hia : i = a
  · simp [hia]
  · have hmem : i ∈ l := by
      rcases List.mem_append.mp hi with hl | hl
      · exact hl
      · exact absurd (List.mem_singleton.mp hl) hia
    have hval : a.val ≠ i.val := fun e => hia (Fin.ext e.symm)
    simpa [Vector.getElem_set, hia, hval] using ht i hmem

theorem drives_writeChaining (s : State) (h : CV) :
    Drives (IdleSince s) (hRegs.map fun i => writeCycle (Reg.h i).offset (CV.word h i))
      (fun t => IdleSince s t ∧ HoldsChaining h hRegs t) := by
  refine drives_writes (I := fun done t => IdleSince s t ∧ HoldsChaining h done t) (by simp)
    (fun done t rest ⟨ht, hh⟩ => ⟨{ ht with }, hh⟩) (fun t ht => ⟨ht, by simp [HoldsChaining]⟩)
    fun done a _ t ⟨ht, hh⟩ => ?_
  rw [writeReg, writeUnlessBusy_of_idle (busy_of_idle ht.idle)]
  exact ⟨ht.idle, { ht with }, hh.writeHWord a⟩

theorem drives_resumeCycles (s : State) (h : CV) (l : Nat) :
    Drives (IdleSince s) (resumeCycles h (bitLength l)) (Hashing s h l) := by
  refine (drives_writeChaining s h).append ?_
  refine Drives.append (cs := [_]) (ds := [_])
    (Q := fun t => (IdleSince s t ∧ HoldsChaining h hRegs t) ∧ hiWord t.len = hiWord (bitLength l))
    (drives_write (r := .lenHi) (by decide) (fun t rest ⟨ht, hh⟩ => ⟨{ ht with }, hh⟩) fun t ⟨ht, hh⟩ => ?hi)
    (drives_write (r := .lenLo) (by decide) (fun t rest ⟨⟨ht, hh⟩, hhi⟩ => ⟨⟨{ ht with }, hh⟩, hhi⟩)
      fun t ⟨⟨ht, hh⟩, hhi⟩ => ?lo)
  case hi =>
    rw [writeReg, writeUnlessBusy_of_idle (busy_of_idle ht.idle)]
    exact ⟨ht.idle, ⟨{ ht with }, hh⟩, hiWord_append _ _⟩
  case lo =>
    have hall (i : Fin 5) : i ∈ hRegs := by revert i; decide
    rw [writeReg, writeUnlessBusy_of_idle (busy_of_idle ht.idle)]
    exact ⟨ht.idle, { ht with
      value := CV.ext_word fun i => (hh i (hall i)).1
      known := (knowsH_eq_true_iff _).mpr fun i => (hh i (hall i)).2
      len := by rw [hhi, hiWord_append_loWord] }⟩

/-! ## The procedures (R189, R190) -/

theorem IdleSince.refl {s : State} (h : s.busy = false) : IdleSince s s := ⟨idle_of_busy_false h, rfl, rfl, rfl⟩

/-- The cycles of a procedure on a block with no further inputs. -/
theorem Drives.run_all {P Q : State → Prop} {cs : List Cycle} (h : Drives P cs Q) {s : State} (hs : P s)
    (hp : s.port = cs) : ∃ t, run s.port.length s = .next t ∧ t.port = [] ∧ Q t := by
  rw [hp]
  exact h s [] hs (by rw [hp, List.append_nil])

/-- Settles O55: INIT starts the fold from IV and 0, and the blocks absorbed are those of the padded message. -/
theorem hostProcedureLeavesTheDigest : Obligations.HostProcedureLeavesTheDigest := by
  intro m fill gapBlock gapTail s hm hs hp hblock htail
  have hlen : 0 + m.length = m.length := Nat.zero_add _
  have habsorb := drives_absorbCycles (s := s) (h := Config.iv) (l := 0) fill rfl (by rwa [hlen]) hblock htail
  obtain ⟨t, hrun, hport, ht⟩ := ((drives_init s).append habsorb).run_all (.refl hs) hp
  rw [hlen] at ht
  refine ⟨t, hrun, ?_, ht.len, busy_of_idle ht.idle, hport, ht.err, ht.errcode, ht.ovf, ht.blocks, ht.readReg_h,
    ht.padKnown⟩
  rw [ht.value]
  exact digest_eq_fold hm Config.iv

/-- Settles O57: the loaded chaining value and length put the block where absorbing the padded form of m1 would have. -/
theorem resumedHashLeavesTheExtendedDigest : Obligations.ResumedHashLeavesTheExtendedDigest := by
  intro m1 m2 fill d1 gapBlock gapTail s h1
  have hlen : (padBytes m1).length = m1.length + (padSuffix m1.length).length := List.length_append
  dsimp only
  rw [← hlen]
  intro hlt hs hp hblock htail
  have hwhole : (padBytes m1).length % 64 = 0 := by
    rw [length_padBytes]
    exact Nat.mul_mod_right _ _
  have habsorb := drives_absorbCycles (s := s) (h := d1) fill hwhole hlt hblock htail
  obtain ⟨t, hrun, hport, ht⟩ := ((drives_resumeCycles s d1 _).append habsorb).run_all (.refl hs) hp
  refine ⟨t, hrun, ?_, ht.len, busy_of_idle ht.idle, hport, ht.err, ht.errcode, ht.ovf, ht.readReg_h⟩
  rw [ht.value]
  exact digest_resumed h1 hlt

end Sys2Proof.Machine
end

section
/-! Errors (spec 60_exceptions.md sections 1 and 2): what raises one and what it changes, the sum that sets OVF, what clears
ERR and OVF, and an access in the cycle of a completion; O5, O9 and O23 to O27. -/

namespace Sys2Proof.Machine

/-! ## Recording an error (R221) -/

/-- Settles O23: with an error recorded, the code that is there is kept. -/
theorem firstErrorIsKept : Obligations.FirstErrorIsKept := by
  refine fun c d s => ⟨rfl, ?_⟩
  rw [recordError, recordError_err, if_pos rfl]
  rfl

/-! ## CMD_BUSY and WR_BUSY (R222, R223) -/

theorem issueCommand_of_busy {s : State} (hb : s.busy = true) (v : Word) :
    issueCommand v s = .next (recordError .cmdBusy s) :=
  if_pos hb

/-- Settles O24: the busy check comes before the decoder, so the word does not count. -/
theorem commandWriteWhileBusyIsDropped : Obligations.CommandWriteWhileBusyIsDropped :=
  fun s _ v hb hreg => ⟨recordError .cmdBusy s, (hostAccess_cmd hreg).trans (issueCommand_of_busy hb v), rfl, rfl⟩

/-- Settles O25: the writes are those of O21, and a read records its observation alone. -/
theorem dataWriteWhileBusyIsDropped : Obligations.DataWriteWhileBusyIsDropped := by
  intro s off v
  obtain ⟨-, -, hdropped, hignored⟩ := hostWriteStoresTheRegister s off v
  exact ⟨hdropped, hignored, hostRead off s, hostAccess_read off s, rfl, rfl⟩

/-! ## ILLEGAL_CMD (R224) -/

/-- The three grounds of R224, on the numbers of the three fields. -/
def IllegalGround (v : Word) : Prop :=
  v.toNat / 1024 ≠ 0 ∨ 6 ≤ v.toNat % 16 ∨
    ((v.toNat % 16 = 0 ∨ v.toNat % 16 = 1 ∨ v.toNat % 16 = 2 ∨ v.toNat % 16 = 5) ∧ v.toNat / 16 % 64 ≠ 0)

theorem exists_decode_eq_illegal {v : Word} (h : IllegalGround v) : ∃ why, decode v = .illegal why := by
  rw [decode_eq_checks]
  by_cases hrsv : v.toNat / 1024 ≠ 0
  · exact ⟨_, if_pos hrsv⟩
  by_cases hopc : 6 ≤ v.toNat % 16
  · exact ⟨_, by rw [if_neg hrsv, if_pos hopc]⟩
  have hnb := (h.resolve_left hrsv).resolve_left hopc
  exact ⟨_, by rw [if_neg hrsv, if_neg hopc, if_pos hnb]⟩

theorem exists_decode_eq_command {v : Word} (h : ¬ IllegalGround v) : ∃ i, decode v = .command i := by
  simp only [IllegalGround, not_or] at h
  obtain ⟨hrsv, hopc, hnb⟩ := h
  rw [decode_eq_checks, if_neg hrsv, if_neg hopc, if_neg hnb]
  split_ifs <;> exact ⟨_, rfl⟩

/-- Settles O5: the decoder's checks are the grounds, and an illegal word reaches no command. -/
theorem illegalCommandIsRecordedAndNotRun : Obligations.IllegalCommandIsRecordedAndNotRun := by
  intro v s hs
  refine ⟨fun hbad => ?_, fun hlegal => ?_⟩
  · obtain ⟨why, hdec⟩ := exists_decode_eq_illegal hbad
    rw [hostAccess_cmd regAt_cmd, issueCommand_of_idle hs, hdec, runDecoded]
  · obtain ⟨i, hdec⟩ := exists_decode_eq_command hlegal
    exact ⟨i, hdec, hostAccess_command regAt_cmd hdec s⟩

/-! ## OVF (R225) -/

/-- What a pending command adds to LEN: 512 bits, or those of its tail (R159, R186). -/
def Pending.bitsAdded (p : Pending) : Dword := if p.op = .compress then 512 else tailBits p.n

theorem toNat_bitsAdded (p : Pending) :
    p.bitsAdded.toNat = if p.op = .compress then 512 else 8 * p.n.toNat := by
  rw [Pending.bitsAdded, apply_ite BitVec.toNat, tailBits_toNat]
  rfl

theorem completeCommand_ovf (p : Pending) (s : State) :
    (completeCommand p s).ovf = noteCarry s.ovf p.lenIn p.bitsAdded := by
  cases h : p.op <;> simp [completeCommand, Pending.bitsAdded, h]

theorem completeCommand_len_of_pad {p : Pending} (h : p.op = .pad) (s : State) :
    (completeCommand p s).len = s.len := by
  simp [completeCommand, h]

theorem completeCommand_len_of_ne_pad {p : Pending} (h : p.op ≠ .pad) (s : State) :
    (completeCommand p s).len = p.lenIn + p.bitsAdded := by
  cases hop : p.op with
  | compress => simp [completeCommand, Pending.bitsAdded, hop]
  | pad => exact absurd hop h
  | final => simp [completeCommand, Pending.bitsAdded, hop, tailLength]

theorem noteCarry_of_ge (o : Bool) {a b : Dword} (h : 2 ^ 64 ≤ a.toNat + b.toNat) : noteCarry o a b = true := by
  rw [noteCarry, carry64, decide_eq_true h, Bool.or_true]

/-- Settles O26: LEN is written with the 64-bit sum, and the sum's carry goes to OVF alone. -/
theorem lengthOverflowSetsOvf : Obligations.LengthOverflowSetsOvf := by
  intro p s
  dsimp only
  rw [← toNat_bitsAdded, completeCommand_ovf]
  refine ⟨noteCarry_of_ge s.ovf, noteCarry_of_lt, fun hop => ?_, fun hop => completeCommand_len_of_pad hop s,
    completeCommand_err p s, completeCommand_errcode p s, completeCommand_busy p s⟩
  rw [completeCommand_len_of_ne_pad hop, BitVec.toNat_add]

/-! ## What clears ERR and OVF (R225, R228) -/

/-- ERR and OVF are set in `t` where they are set in `s`. -/
structure KeepsErrors (s t : State) : Prop where
  err : s.err = true → t.err = true
  ovf : s.ovf = true → t.ovf = true

theorem KeepsErrors.refl (s : State) : KeepsErrors s s := ⟨id, id⟩

theorem KeepsErrors.trans {s t u : State} (h : KeepsErrors s t) (h' : KeepsErrors t u) : KeepsErrors s u :=
  ⟨h'.err ∘ h.err, h'.ovf ∘ h.ovf⟩

theorem keepsErrors_of_eq {s t : State} (he : t.err = s.err) (ho : t.ovf = s.ovf) : KeepsErrors s t :=
  ⟨he.trans, ho.trans⟩

theorem keepsErrors_recordError (c : ErrCode) (s : State) : KeepsErrors s (recordError c s) := ⟨fun _ => rfl, id⟩

theorem keepsErrors_completeCommand (p : Pending) (s : State) : KeepsErrors s (completeCommand p s) where
  err := (completeCommand_err p s).trans
  ovf h := by rw [completeCommand_ovf, noteCarry, h, Bool.true_or]

theorem keepsErrors_engineTick (s : State) : KeepsErrors s (engineTick s) := by
  rcases engineTick_cases s with ⟨-, he⟩ | ⟨p, -, -, he⟩ | ⟨p, -, -, he⟩ <;> rw [he]
  · exact .refl _
  · exact keepsErrors_completeCommand p s
  · exact keepsErrors_of_eq rfl rfl

theorem keepsErrors_writeReg (r : Reg) (v : Word) (s : State) : KeepsErrors s (writeReg r v s) := by
  rcases writeReg_cases r v s with h | ⟨-, h⟩ | ⟨-, ⟨i, -, h⟩ | ⟨l, -, h⟩ | ⟨i, -, h⟩⟩ <;> rw [h]
  · exact .refl s
  · exact keepsErrors_recordError _ s
  · exact keepsErrors_of_eq rfl rfl
  · exact keepsErrors_of_eq rfl rfl
  · exact keepsErrors_of_eq rfl rfl

/-- Of the commands CLRERR alone clears an error at the write that issues it, on an idle block. -/
theorem keepsErrors_or_clrerr_of_exec {i : Instr} {s t : State} (h : exec i s = .next t) :
    KeepsErrors s t ∨ s.busy = false ∧ i = .clrerr := by
  rcases exec_next_cases h with ⟨-, rfl⟩ |
    ⟨hb, ⟨-, rfl⟩ | ⟨-, rfl⟩ | ⟨hi, -⟩ | ⟨-, rfl⟩ | ⟨n, -, rfl⟩ | ⟨n, -, rfl⟩⟩
  · exact .inl (keepsErrors_recordError _ s)
  · exact .inl (.refl _)
  · exact .inl (keepsErrors_of_eq rfl rfl)
  · exact .inr ⟨hb, hi⟩
  · exact .inl (keepsErrors_of_eq rfl rfl)
  · exact .inl (keepsErrors_of_eq rfl rfl)
  · exact .inl (keepsErrors_of_eq rfl rfl)

/-- The access writes the word of CLRERR to CMD. -/
def Access.IsClrerr (a : Access) : Prop := ∃ off, regAt off = some .cmd ∧ a = .write (.window off) 4 0x5

theorem keepsErrors_or_isClrerr_of_hostAccess {a : Access} {s t : State} (h : hostAccess a s = .next t) :
    KeepsErrors s t ∨ s.busy = false ∧ a.IsClrerr := by
  rcases hostAccess_next_cases h with ⟨off, -, rfl⟩ | ⟨off, v, rfl, hw⟩
  · exact .inl (keepsErrors_of_eq rfl rfl)
  rcases hostWrite_next_cases hw with ⟨-, rfl⟩ | ⟨hreg, hi⟩ | ⟨r, -, -, rfl⟩
  · exact .inl (.refl _)
  · rcases issueCommand_next_cases hi with ⟨-, rfl⟩ | ⟨-, -, rfl⟩ | ⟨-, i, hdec, he⟩
    · exact .inl (keepsErrors_recordError _ s)
    · exact .inl (keepsErrors_recordError _ s)
    · refine (keepsErrors_or_clrerr_of_exec he).imp_right fun ⟨hb, hclr⟩ => ⟨hb, off, hreg, ?_⟩
      have hword : encode .clrerr = 0x5 := by decide
      rw [eq_encode_of_decode hdec, hclr, hword]
  · exact .inl (keepsErrors_writeReg r v s)

/-- The access of the next cycle after the engine's cycle on `w`, which has the sequencer of `s`. -/
theorem keepsErrors_or_takesClrerr {a : Access} {s w t : State} (hc : s.nextCycle = { rst := false, access := some a })
    (hseq : w.seq = s.seq) (h : hostAccess a (engineTick w) = .next t) :
    KeepsErrors w t ∨ ∃ off, regAt off = some .cmd ∧ s.takesWrite off 0x5 := by
  refine (keepsErrors_or_isClrerr_of_hostAccess h).imp (keepsErrors_engineTick w).trans ?_
  rintro ⟨hb, off, hreg, rfl⟩
  have htake := idle_or_completing_of_engineTick hb
  rw [State.busy, State.completing, hseq] at htake
  exact ⟨off, hreg, hc, htake⟩

/-- Everything a step can do to ERR and OVF: keep what is set, reset, or take a CLRERR. -/
theorem keepsErrors_or_cleared_of_step {s t : State} (h : step s = .next t) :
    KeepsErrors s t ∨ s.nextCycle.rst = true ∨ ∃ off, regAt off = some .cmd ∧ s.takesWrite off 0x5 := by
  have hpop : KeepsErrors s s.popPort := keepsErrors_of_eq rfl rfl
  have hdraw : KeepsErrors s (drawOrder s.popPort) := keepsErrors_of_eq rfl rfl
  have hcycle {a : Access} (hrst : s.nextCycle.rst = false) (ha : s.nextCycle.access = some a) :
      s.nextCycle = { rst := false, access := some a } := by rw [← hrst, ← ha]
  rcases portCycle_next_cases h with ⟨hrst, -⟩ | ⟨-, -, rfl⟩ | ⟨a, hrst, ha, -, hu⟩ | ⟨a, hrst, ha, -, hu⟩ |
    ⟨a, u, -, -, hcompleting, hu, rfl⟩
  · exact .inr (.inl hrst)
  · exact .inl (hpop.trans (keepsErrors_engineTick _))
  · exact (keepsErrors_or_takesClrerr (w := s.popPort) (hcycle hrst ha) rfl hu).imp hpop.trans .inr
  · exact (keepsErrors_or_takesClrerr (w := drawOrder s.popPort) (hcycle hrst ha) rfl hu).imp hdraw.trans .inr
  · obtain ⟨p, hp, -⟩ := (completing_eq_true_iff _).mp hcompleting
    have hbusy : (drawOrder s.popPort).busy = true := (busy_eq_true_iff _).mpr ⟨p, hp⟩
    have hkeeps := (keepsErrors_or_isClrerr_of_hostAccess hu).resolve_right (by simp [hbusy])
    exact .inl ((hdraw.trans hkeeps).trans (keepsErrors_engineTick u))

/-- Settles O27: a step that keeps what is set clears neither. -/
theorem onlyClrerrAndResetClearErrors : Obligations.OnlyClrerrAndResetClearErrors := by
  intro s t h hcleared
  refine (keepsErrors_or_cleared_of_step h).resolve_left fun hkeeps => ?_
  rcases hcleared with ⟨hs, ht⟩ | ⟨hs, ht⟩
  · simp [hkeeps.err hs] at ht
  · simp [hkeeps.ovf hs] at ht

/-! ## An access in the cycle of a completion (R226) -/

/-- Settles O9: the order is a free value, and either of its two values is one of the orders. -/
theorem sameCycleAccessAndCompletionEitherOrder : Obligations.SameCycleAccessAndCompletionEitherOrder := by
  intro s rest a p hport hs hr
  have hcompleting : State.completing { s with port := rest } = true :=
    (completing_eq_true_iff _).mpr ⟨p, hs, hr⟩
  have htick : engineTick (drawOrder { s with port := rest }) = completeCommand p (drawOrder { s with port := rest }) :=
    engineTick_of_last hs hr
  have hstep : step s = accessCycle a { s with port := rest } := step_of_cons hport
  have horder := accessCycle_of_completing (a := a) hcompleting
  rwa [htick, ← hstep] at horder

end Sys2Proof.Machine
end

section
/-! A command in flight (spec 10_state.md R30; 20_memory.md R55; 60_exceptions.md R221, R222): what the host's accesses
leave of a busy block, and the run to the end of its latency; O16. -/

namespace Sys2Proof.Machine

/-! ## Accesses that the block accepts (R50, R52) -/

theorem exists_exec_next (i : Instr) (s : State) : ∃ t, exec i s = .next t := by
  cases hb : s.busy with
  | true => exact ⟨_, exec_of_busy hb i⟩
  | false =>
    cases i <;>
      simp only [exec, execNop, execInit, execCompress, execPad, execFinal, execClrerr, whenIdle_of_idle hb] <;>
      exact ⟨_, rfl⟩

theorem exists_issueCommand_next (v : Word) (s : State) : ∃ t, issueCommand v s = .next t := by
  cases hb : s.busy with
  | true => exact ⟨_, issueCommand_of_busy hb v⟩
  | false =>
    rw [issueCommand_of_idle hb]
    cases decode v with
    | illegal _ => exact ⟨_, rfl⟩
    | command i => exact exists_exec_next i s

theorem exists_hostWrite_next (off : BitVec 8) (v : Word) (s : State) : ∃ t, hostWrite off v s = .next t := by
  cases hr : regAt off with
  | none => exact ⟨_, hostWrite_of_reserved hr v s⟩
  | some r =>
    by_cases hcmd : r = .cmd
    · subst hcmd
      rw [← hostAccess_write, hostAccess_cmd hr]
      exact exists_issueCommand_next v s
    · exact ⟨_, hostWrite_of_regAt hr hcmd v s⟩

theorem exists_hostAccess_next {a : Access} (ha : Cycle.ordinary { rst := false, access := some a } = true)
    (s : State) : ∃ t, hostAccess a s = .next t := by
  match a with
  | .read (.window off) n =>
    obtain rfl : n = 4 := by simpa [Cycle.ordinary] using ha
    exact ⟨_, hostAccess_read off s⟩
  | .write (.window off) n v =>
    obtain rfl : n = 4 := by simpa [Cycle.ordinary] using ha
    exact exists_hostWrite_next off v s
  | .read (.outside _) _ => simp [Cycle.ordinary] at ha
  | .write (.outside _) _ _ => simp [Cycle.ordinary] at ha

/-! ## What the accesses leave of a busy block (R55, R222, R223) -/

/-- A state without the inputs, the observations, the count of free values and the error record: what no access to a
busy block changes. -/
def State.engineSide (s : State) : State :=
  { s with port := [], readLog := [], draws := 0, err := false, errcode := .none }

theorem hostAccess_of_busy {a : Access} {s t : State} (h : hostAccess a s = .next t) (hb : s.busy = true) :
    t.port = s.port ∧ t.engineSide = s.engineSide :=
  hostAccess_keeps (P := fun u => u.port = s.port ∧ u.engineSide = s.engineSide) h ⟨rfl, rfl⟩
    (fun _ => ⟨rfl, rfl⟩) (fun _ _ => ⟨rfl, rfl⟩)
    (fun _ _ hi => by simp [hb] at hi)
    (fun _ _ hi => by simp [hb] at hi)

/-- The state with `k` cycles left of the command `p` in flight. -/
def State.withLeft (p : Pending) (k : Nat) (s : State) : State := { s with seq := .busy { p with remaining := k } }

/-- A cycle in which the command does not complete: the countdown, whatever the access. -/
theorem step_ordinary_of_more {s : State} {p : Pending} {c : Cycle} {rest : List Cycle} (hs : s.seq = .busy p)
    (hr : 1 < p.remaining) (hc : c.ordinary = true) (hport : s.port = c :: rest) :
    ∃ t, step s = .next t ∧ t.port = rest ∧ t.engineSide = (s.withLeft p (p.remaining - 1)).engineSide := by
  have htick : engineTick { s with port := rest } = ({ s with port := rest } : State).withLeft p (p.remaining - 1) :=
    engineTick_of_more hs hr
  obtain ⟨rst, access⟩ := c
  obtain rfl : rst = false := by
    cases rst with
    | false => rfl
    | true => simp [Cycle.ordinary] at hc
  rw [step_of_cons hport]
  cases access with
  | none => exact ⟨_, congrArg Host.Outcome.next htick, rfl, rfl⟩
  | some a =>
    have hcycle : portCycle { rst := false, access := some a } { s with port := rest } =
        hostAccess a (({ s with port := rest } : State).withLeft p (p.remaining - 1)) := by
      rw [← htick]
      exact accessCycle_of_not_completing (completing_of_more hs hr)
    obtain ⟨t, ht⟩ := exists_hostAccess_next hc (({ s with port := rest } : State).withLeft p (p.remaining - 1))
    exact ⟨t, hcycle.trans ht, hostAccess_of_busy ht rfl⟩

/-- Cycles that end before the command completes. -/
theorem run_ordinary_of_more {cs rest : List Cycle} {s : State} {p : Pending} (hs : s.seq = .busy p)
    (hlen : cs.length < p.remaining) (hcs : ∀ c ∈ cs, c.ordinary = true) (hport : s.port = cs ++ rest) :
    ∃ t, run cs.length s = .next t ∧ t.port = rest ∧
      t.engineSide = (s.withLeft p (p.remaining - cs.length)).engineSide := by
  induction cs generalizing s p with
  | nil => exact ⟨s, rfl, hport, by rw [State.withLeft, List.length_nil, Nat.sub_zero, ← hs]⟩
  | cons c cs ih =>
    rw [List.length_cons] at hlen ⊢
    obtain ⟨hc, hcs⟩ := List.forall_mem_cons.mp hcs
    obtain ⟨u, hstep, huport, hu⟩ := step_ordinary_of_more hs (by omega) hc hport
    have huseq : u.seq = .busy { p with remaining := p.remaining - 1 } := congrArg State.seq hu
    obtain ⟨t, hrun, htport, ht⟩ := ih huseq (by dsimp only; omega) hcs huport
    refine ⟨t, (run_succ_of_step hstep _).trans hrun, htport, ht.trans ?_⟩
    have hleft : p.remaining - 1 - cs.length = p.remaining - (cs.length + 1) := by omega
    dsimp only
    rw [hleft]
    exact congrArg (State.withLeft p (p.remaining - (cs.length + 1))) hu

/-! ## The completion (R30) -/

theorem step_quiet_of_last {s : State} {p : Pending} {rest : List Cycle} (hs : s.seq = .busy p)
    (hr : p.remaining ≤ 1) (hport : s.port = quietCycle :: rest) :
    step s = .next (completeCommand p { s with port := rest }) := by
  rw [step_of_cons hport]
  exact congrArg Host.Outcome.next (engineTick_of_last (s := { s with port := rest }) hs hr)

/-- The results of a completion come from what the accesses leave, and from the count of free values. -/
theorem hasResultsOf_completeCommand {p : Pending} {q : Sequencer} {s t : State}
    (h : t.engineSide = { s with seq := q }.engineSide) : HasResultsOf p s (completeCommand p t) := by
  obtain ⟨eh, elen, -, epbuf, -, eovf, enblk, -, -, -, -, -, -, estream, -, ewritten, ekh, ekp⟩ := State.mk.inj h
  obtain ⟨hh, hlen, hpbuf, hnblk, hovf, hkh, hkp⟩ :=
    completeCommand_congr (s := t) (t := { s with draws := t.draws }) p eh elen epbuf enblk eovf ewritten ekh ekp
      estream rfl
  refine ⟨t.draws, ?_⟩
  simp only [State.results, hh, hlen, hpbuf, hnblk, hovf, hkh, hkp]

/-- The latency run to its end, with accesses in all of its cycles but the last. -/
theorem run_ordinary_to_completion {s : State} {p : Pending} {cs : List Cycle} (hs : s.seq = .busy p)
    (hlen : cs.length + 1 = p.remaining) (hcs : ∀ c ∈ cs, c.ordinary = true) (hport : s.port = cs ++ [quietCycle]) :
    ∃ t, run p.remaining s = .next t ∧ t.busy = false ∧ HasResultsOf p s t ∧ t.m = s.m ∧ t.mWritten = s.mWritten ∧
      t.port = [] := by
  obtain ⟨u, hrun, huport, hu⟩ := run_ordinary_of_more hs (by omega) hcs hport
  have huseq : u.seq = .busy { p with remaining := p.remaining - cs.length } := congrArg State.seq hu
  have hstep : step u = .next (completeCommand p { u with port := [] }) := by
    rw [step_quiet_of_last huseq (by dsimp only; omega) huport, completeCommand_remaining]
  have hm : u.m = s.m := (congrArg State.m hu :)
  have hwritten : u.mWritten = s.mWritten := (congrArg State.mWritten hu :)
  refine ⟨completeCommand p { u with port := [] }, ?_, completeCommand_busy p _,
    hasResultsOf_completeCommand (t := { u with port := [] }) hu, (completeCommand_m p _).trans hm,
    (completeCommand_mWritten p _).trans hwritten, completeCommand_port p _⟩
  rw [← hlen, run_add hrun, run_succ_of_step hstep]
  rfl

/-- Settles O16: the accesses leave what the completion reads, but for the count of free values. -/
theorem commandInFlightIsUndisturbed : Obligations.CommandInFlightIsUndisturbed := by
  intro s p cs hs hlen hcs hport
  obtain ⟨t, hrun, hb, ⟨d, ht⟩, hm, hwritten, htport⟩ := run_ordinary_to_completion hs hlen hcs hport
  obtain ⟨ulen, unblk, uovf, ukh, ukp, uh, upbuf⟩ := completeCommand_withDraws p s d
  simp only [State.results, Prod.mk.injEq] at ht
  obtain ⟨hh, hl, hpbuf, hnblk, hovf, hkh, hkp⟩ := ht
  exact ⟨t, d, hrun, ⟨hb, hh, hl, hpbuf, hnblk, hovf, hkh, hkp⟩, fun hk => hh.trans (uh hk),
    fun hw => hpbuf.trans (upbuf hw), hkh.trans ukh, hkp.trans ukp, hl.trans ulen, hnblk.trans unblk, hovf.trans uovf,
    hm, hwritten, htport⟩

end Sys2Proof.Machine
end

section
/-! The model's trace (spec 60_exceptions.md R233): one record per round, block by block; O53. -/

namespace Sys2Proof.Machine

theorem length_traceRounds (blk : Fin 2) (t : Nat) (ws : List Word) (v : WorkVars) :
    (traceRounds blk t ws v).length = ws.length := by
  induction ws generalizing t v with
  | nil => rfl
  | cons w ws ih => rw [traceRounds, List.length_cons, List.length_cons, ih]

/-- The record of the `i`-th round traced: its word, and the variables that the rounds up to it leave. -/
theorem getElem?_traceRounds (blk : Fin 2) (t : Nat) (ws : List Word) (v : WorkVars) {i : Nat} (hi : i < ws.length) :
    (traceRounds blk t ws v)[i]? =
      some { blk := blk, t := t + i, w := ws[i], vars := runRounds t (ws.take (i + 1)) v } := by
  induction ws generalizing t v i with
  | nil => exact absurd hi (Nat.not_lt_zero i)
  | cons w ws ih =>
    cases i with
    | zero => rfl
    | succ i =>
      have hcount : t + 1 + i = t + (i + 1) := by omega
      rw [traceRounds, List.getElem?_cons_succ, ih _ _ (Nat.lt_of_succ_lt_succ hi), hcount]
      rfl

theorem traceBlock_of_absent (h : Config.tracePresent = false) (blk : Fin 2) (cv : CV) (b : Block) :
    traceBlock blk cv b = [] := by
  rw [traceBlock, h, if_neg Bool.false_ne_true]

theorem traceBlock_of_present (h : Config.tracePresent = true) (blk : Fin 2) (cv : CV) (b : Block) :
    traceBlock blk cv b = traceRounds blk 0 (schedule b) (loadVars cv) :=
  if_pos h

/-- The block count of a padded tail is 1 or 2, so what is not one block is two. -/
theorem traceAbsorb_of_ne_zero (pbuf : Vector Word 32) {nblk : Fin 3} (h0 : nblk ≠ 0) (h : CV) :
    traceAbsorb pbuf nblk h =
      if nblk = 1 then traceBlock 0 h (pbufBlock pbuf 0)
      else traceBlock 0 h (pbufBlock pbuf 0) ++
        traceBlock 1 (compress h (pbufBlock pbuf 0)) (pbufBlock pbuf 1) := by
  by_cases h1 : nblk = 1
  · have h2 : nblk ≠ 2 := by omega
    rw [traceAbsorb, if_pos h1, if_neg h2, List.append_nil]
  · have h2 : nblk = 2 := by omega
    rw [traceAbsorb, if_neg h1, if_pos h2]

theorem completeFinal_trace (p : Pending) (s : State) :
    (completeFinal p s).trace =
      s.trace ++ traceAbsorb (completeFinal p s).pbuf (completeFinal p s).nblk p.hIn := rfl

/-- Settles O53: the trace runs the rounds of `compress` on the schedule, which has eighty words. -/
theorem traceHasOneRecordPerRound : Obligations.TraceHasOneRecordPerRound := by
  refine ⟨fun blk cv b => ⟨fun h => traceBlock_of_absent h blk cv b, fun h => ?_⟩, fun p s => ⟨rfl, rfl, ?_⟩⟩
  · rw [traceBlock_of_present h]
    refine ⟨(length_traceRounds blk 0 _ _).trans (length_schedule b), fun t ht => ?_⟩
    have hlt : t < (schedule b).length := by rwa [length_schedule]
    exact ⟨_, getElem?_traceRounds blk 0 _ _ hlt, rfl, Nat.zero_add t, (List.getElem?_eq_getElem hlt).symm, rfl⟩
  · have hnblk : (completeFinal p s).nblk ≠ 0 := paddedTail_nblk_ne_zero p
    rw [completeFinal_trace, traceAbsorb_of_ne_zero _ hnblk]
    dsimp only
    split_ifs
    · rfl
    · rw [List.append_assoc]

end Sys2Proof.Machine
end

section
/-! The blocks of a platform (spec 60_exceptions.md R234; 20_memory.md R50): a block keeps its number, a cycle of one
block leaves the others, and a transfer is a cycle of the block that its address selects; O60. -/

namespace Sys2Proof.Machine

/-! ## A block keeps its number -/

theorem engineTick_stream (s : State) : (engineTick s).stream = s.stream := by
  rcases engineTick_cases s with ⟨-, he⟩ | ⟨p, -, -, he⟩ | ⟨p, -, -, he⟩ <;> rw [he]
  exact completeCommand_stream p s

theorem exec_stream {i : Instr} {s t : State} (h : exec i s = .next t) : t.stream = s.stream := by
  rcases exec_next_cases h with ⟨-, rfl⟩ |
    ⟨-, ⟨-, rfl⟩ | ⟨-, rfl⟩ | ⟨-, rfl⟩ | ⟨-, rfl⟩ | ⟨n, -, rfl⟩ | ⟨n, -, rfl⟩⟩ <;> rfl

theorem writeReg_stream (r : Reg) (v : Word) (s : State) : (writeReg r v s).stream = s.stream := by
  rcases writeReg_cases r v s with h | ⟨-, h⟩ | ⟨-, ⟨i, -, h⟩ | ⟨l, -, h⟩ | ⟨i, -, h⟩⟩ <;> rw [h] <;> rfl

theorem hostAccess_stream {a : Access} {s t : State} (h : hostAccess a s = .next t) : t.stream = s.stream :=
  hostAccess_keeps (P := fun u => u.stream = s.stream) h rfl (fun _ => rfl) (fun _ _ => rfl)
    (fun r v _ => writeReg_stream r v s) (fun _ _ _ he => exec_stream he)

theorem portCycle_stream {c : Cycle} {s t : State} (h : portCycle c s = .next t) : t.stream = s.stream := by
  rcases portCycle_next_cases h with ⟨-, -, rfl⟩ | ⟨-, -, rfl⟩ | ⟨a, -, -, -, hu⟩ | ⟨a, -, -, -, hu⟩ |
    ⟨a, u, -, -, -, hu, rfl⟩
  · rfl
  · exact engineTick_stream s
  · exact (hostAccess_stream hu).trans (engineTick_stream s)
  · exact (hostAccess_stream hu).trans (engineTick_stream (drawOrder s))
  · exact (engineTick_stream u).trans (hostAccess_stream (s := drawOrder s) hu)

theorem step_stream {s t : State} (h : step s = .next t) : t.stream = s.stream :=
  portCycle_stream (s := s.popPort) h

/-! ## A cycle of one block -/

/-- What becomes of the platform in a cycle of block `k` that ends so. -/
def Platform.afterCycle (k : Nat) (p : Platform) :
    Host.Outcome State Fault Refusal → Host.Outcome Platform Fault Refusal
  | .next t => .next { cores := p.cores.set k t }
  | .fault f => .fault f
  | .refused r => .refused r

section
variable {p q : Platform} {k : Nat} {s t : State} {cycle : State → Host.Outcome State Fault Refusal}

theorem Platform.onCore_of_getElem? (hs : p.cores[k]? = some s) :
    p.onCore k cycle = some (p.afterCycle k (cycle s)) := by
  rw [Platform.onCore, hs]
  dsimp only
  cases cycle s <;> rfl

theorem Platform.onCore_eq_next_iff :
    p.onCore k cycle = some (.next q) ↔
      ∃ s t, p.cores[k]? = some s ∧ cycle s = .next t ∧ q = { cores := p.cores.set k t } := by
  cases hs : p.cores[k]? with
  | none => simp [Platform.onCore, hs]
  | some s =>
    rw [Platform.onCore_of_getElem? hs]
    cases h : cycle s <;> simp [Platform.afterCycle, h, eq_comm]

theorem Platform.numbered.set (hp : p.numbered) (hs : p.cores[k]? = some s) (ht : t.stream = s.stream) :
    Platform.numbered { cores := p.cores.set k t } := by
  intro j u hu
  by_cases hj : j = k
  · subst hj
    rw [List.getElem?_set_self (List.getElem?_eq_some_iff.mp hs).1] at hu
    obtain rfl := Option.some.inj hu
    exact ht.trans (hp j s hs)
  · rw [List.getElem?_set_ne (Ne.symm hj)] at hu
    exact hp j u hu

end

/-- A cycle of block `k` and then one of block `j` could have come the other way round. -/
theorem Platform.stepCore_comm {p q r : Platform} {j k : Nat} (hjk : j ≠ k) (hk : p.stepCore k = some (.next q))
    (hj : q.stepCore j = some (.next r)) :
    ∃ q', p.stepCore j = some (.next q') ∧ q'.stepCore k = some (.next r) := by
  obtain ⟨s, t, hs, hst, rfl⟩ := Platform.onCore_eq_next_iff.mp hk
  obtain ⟨u, v, hu, huv, rfl⟩ := Platform.onCore_eq_next_iff.mp hj
  rw [List.getElem?_set_ne hjk.symm] at hu
  have hs' : (p.cores.set j v)[k]? = some s := (List.getElem?_set_ne hjk).trans hs
  refine ⟨{ cores := p.cores.set j v }, Platform.onCore_eq_next_iff.mpr ⟨u, v, hu, huv, rfl⟩,
    Platform.onCore_eq_next_iff.mpr ⟨s, t, hs', hst, ?_⟩⟩
  rw [List.set_comm _ _ hjk.symm]

/-! ## Transfers (R50) -/

/-- The cycle that a transfer is to the block whose window holds its address. -/
def PlatformAccess.blockCycle (x : PlatformAccess) (s : State) : Host.Outcome State Fault Refusal :=
  portCycle { rst := false, access := some (x.toBlock s.stream) } s

theorem Platform.access_of_select_none {p : Platform} {x : PlatformAccess} (h : p.select x.addr = none) :
    p.access x = .fault (.outsideWindow x.addr) := by
  rw [Platform.access, h]
  rfl

theorem Platform.access_of_select_some {p : Platform} {x : PlatformAccess} {k : Nat} {s : State}
    (h : p.select x.addr = some k) (hs : p.cores[k]? = some s) :
    p.access x = p.afterCycle k (x.blockCycle s) := by
  simp only [Platform.access, PlatformAccess.blockCycle, h, Option.bind_some, Platform.onCore_of_getElem? hs]

/-- What a transfer that does not stop has done. -/
theorem Platform.numbered.access_next_cases {p q : Platform} (hp : p.numbered) {x : PlatformAccess}
    (h : p.access x = .next q) :
    ∃ k s t, p.select x.addr = some k ∧ p.cores[k]? = some s ∧ x.blockCycle s = .next t ∧
      q = { cores := p.cores.set k t } := by
  cases hk : p.select x.addr with
  | none =>
    rw [Platform.access_of_select_none hk] at h
    cases h
  | some k =>
    have hlt : k < p.cores.length := ((hp.select_eq_some_iff x.addr k).mp hk).1
    have hs : p.cores[k]? = some p.cores[k] := List.getElem?_eq_getElem hlt
    rw [Platform.access_of_select_some hk hs] at h
    cases ht : x.blockCycle p.cores[k] <;> rw [ht] at h <;> cases h
    exact ⟨k, _, _, rfl, hs, ht, rfl⟩

/-! ## Reset of all blocks (R234, R250) -/

theorem numbered_reset : Platform.reset.numbered := by
  intro k s hs
  rw [Platform.reset, List.getElem?_map, Option.map_eq_some_iff] at hs
  obtain ⟨j, hj, rfl⟩ := hs
  obtain ⟨_, hkj⟩ := List.getElem?_eq_some_iff.mp hj
  rw [List.getElem_range] at hkj
  exact hkj.symm

/-- Settles O60: a cycle replaces the state of its own block in the list of blocks, and a block's number says which
addresses select it. -/
theorem coresOfAPlatformAreIndependent : Obligations.CoresOfAPlatformAreIndependent := by
  refine ⟨fun p q j k hjk hstep => ?cycle, fun p k s x hp hs hlo hhi => ?transfer, fun p q x hp hq => ?frame,
    fun p x hp hout => ?outside, numbered_reset, by simp [Platform.reset], fun p k s hs => ?reset⟩
  case cycle =>
    obtain ⟨s, t, hs, hst, rfl⟩ := Platform.onCore_eq_next_iff.mp hstep
    exact ⟨List.getElem?_set_ne hjk.symm, List.length_set, fun hp => hp.set hs (step_stream hst),
      ⟨s, t, hs, hst, List.getElem?_set_self (List.getElem?_eq_some_iff.mp hs).1⟩,
      fun r hr => Platform.stepCore_comm hjk hstep hr⟩
  case transfer =>
    have hlt := (List.getElem?_eq_some_iff.mp hs).1
    have hselect : p.select x.addr = some k :=
      (hp.select_eq_some_iff x.addr k).mpr ⟨hlt, (inWindow_eq_true_iff k x.addr).mpr ⟨hlo, hhi⟩⟩
    rw [Platform.access_of_select_some hselect hs, PlatformAccess.blockCycle, hp k s hs]
    cases portCycle { rst := false, access := some (x.toBlock k) } s <;> rfl
  case frame =>
    obtain ⟨k, s, t, hselect, hs, ht, rfl⟩ := hp.access_next_cases hq
    exact ⟨hp.set hs (portCycle_stream ht), k, hselect, fun j hj => List.getElem?_set_ne hj.symm⟩
  case outside =>
    refine Platform.access_of_select_none ((hp.select_eq_none_iff x.addr).mpr fun k hk => ?_)
    exact (inWindow_eq_false_iff k x.addr).mpr (hout k hk)
  case reset =>
    rw [Platform.resetAll, List.getElem?_map, hs, Option.map_some]

end Sys2Proof.Machine
end

section
/-! Reset, and the timing of the block (spec 70_reset_and_hazards.md R250 to R253, R259): what reset leaves, and that
two states with the same control take their cycles alike, whatever their data; O28 to O31 and O37. -/

namespace Sys2Proof.Machine

/-! ## States with the same control (R259) -/

theorem State.sameControl.symm {s t : State} (h : s.sameControl t) : t.sameControl s := by
  obtain ⟨htiming, hport, hstream, hdraws⟩ := h
  exact ⟨htiming.symm, hport.symm, hstream.symm, hdraws.symm⟩

theorem State.sameControl.trans {s t u : State} (h : s.sameControl t) (h' : t.sameControl u) : s.sameControl u := by
  obtain ⟨htiming, hport, hstream, hdraws⟩ := h
  obtain ⟨htiming', hport', hstream', hdraws'⟩ := h'
  exact ⟨htiming.trans htiming', hport.trans hport', hstream.trans hstream', hdraws.trans hdraws'⟩

/-- Changes of data alone, one in each of the two states, keep the relation. -/
theorem State.sameControl.of_data_changes {s t s' t' : State} (h : s.sameControl t) (hs : s'.sameControl s)
    (ht : t'.sameControl t) : s'.sameControl t' :=
  hs.trans (h.trans ht.symm)

/-- The sequencers are both idle, or both busy with commands that differ in their snapshot operands alone (R29). -/
theorem State.sameControl.seq_cases {s t : State} (h : s.sameControl t) :
    (s.seq = .idle ∧ t.seq = .idle) ∨
    (∃ p q, s.seq = .busy p ∧ t.seq = .busy q ∧ p.op = q.op ∧ p.n = q.n ∧ p.remaining = q.remaining) := by
  obtain ⟨htiming, -, -, -⟩ := h
  cases hs : s.seq <;> cases ht : t.seq <;> simp only [State.timing, hs, ht, reduceCtorEq] at htiming
  case idle.idle => exact .inl ⟨rfl, rfl⟩
  case busy.busy p q => exact .inr ⟨p, q, rfl, rfl, by simpa using htiming⟩

theorem State.sameControl.busy_eq {s t : State} (h : s.sameControl t) : s.busy = t.busy := by
  rcases h.seq_cases with ⟨hs, ht⟩ | ⟨p, q, hs, ht, -⟩ <;> rw [State.busy, State.busy, hs, ht]

theorem State.sameControl.completing_eq {s t : State} (h : s.sameControl t) : s.completing = t.completing := by
  rcases h.seq_cases with ⟨hs, ht⟩ | ⟨p, q, hs, ht, -, -, hrem⟩
  · rw [completing_of_idle hs, completing_of_idle ht]
  · simp only [State.completing, hs, ht, hrem]

/-! ## What changes data alone -/

theorem sameControl_recordError (c : ErrCode) (s : State) : (recordError c s).sameControl s := ⟨rfl, rfl, rfl, rfl⟩

theorem sameControl_clearErrors (s : State) : (clearErrors s).sameControl s := ⟨rfl, rfl, rfl, rfl⟩

theorem sameControl_loadIv (s : State) : (loadIv s).sameControl s := ⟨rfl, rfl, rfl, rfl⟩

theorem sameControl_writeReg (r : Reg) (v : Word) (s : State) : (writeReg r v s).sameControl s := by
  rcases writeReg_cases r v s with h | ⟨-, h⟩ | ⟨-, ⟨i, -, h⟩ | ⟨l, -, h⟩ | ⟨i, -, h⟩⟩ <;> rw [h] <;>
    exact ⟨rfl, rfl, rfl, rfl⟩

/-! ## What changes control, in both states alike

The free values passed by a read, an ordered access and a completion are as many whatever the data (notes/assumptions
10, 11, 20). -/

section
variable {s t : State} (h : s.sameControl t)
include h

theorem sameControl_popPort : s.popPort.sameControl t.popPort := by
  obtain ⟨htiming, hport, hstream, hdraws⟩ := h
  exact ⟨htiming, congrArg List.tail hport, hstream, hdraws⟩

theorem sameControl_drawOrder : (drawOrder s).sameControl (drawOrder t) := by
  obtain ⟨htiming, hport, hstream, hdraws⟩ := h
  exact ⟨htiming, hport, hstream, congrArg (· + 1) hdraws⟩

theorem sameControl_hostRead (off : BitVec 8) : (hostRead off s).sameControl (hostRead off t) := by
  obtain ⟨htiming, hport, hstream, hdraws⟩ := h
  exact ⟨htiming, hport, hstream, congrArg (· + 1) hdraws⟩

theorem sameControl_issue (op : EngineOp) (n : BitVec 6) (l : Nat) :
    (issue op n l s).sameControl (issue op n l t) := by
  obtain ⟨-, hport, hstream, hdraws⟩ := h
  exact ⟨rfl, hport, hstream, hdraws⟩

theorem sameControl_applyReset : (applyReset s).sameControl (applyReset t) := by
  obtain ⟨-, hport, hstream, hdraws⟩ := h
  exact ⟨rfl, hport, hstream, congrArg (· + resetDraws) hdraws⟩

/-- A completion leaves the block idle, whichever command it is of and whatever its operands. -/
theorem sameControl_completeCommand (p q : Pending) : (completeCommand p s).sameControl (completeCommand q t) := by
  obtain ⟨-, hport, hstream, hdraws⟩ := h
  simp only [State.sameControl, State.timing, completeCommand_seq, completeCommand_port, completeCommand_stream,
    completeCommand_draws, hport, hstream, hdraws, and_self]

theorem sameControl_engineTick : (engineTick s).sameControl (engineTick t) := by
  rcases h.seq_cases with ⟨hs, ht⟩ | ⟨p, q, hs, ht, hop, hn, hrem⟩
  · rwa [engineTick_of_idle hs, engineTick_of_idle ht]
  · by_cases hr : p.remaining ≤ 1
    · rw [engineTick_of_last hs hr, engineTick_of_last ht (hrem ▸ hr)]
      exact sameControl_completeCommand h p q
    · rw [engineTick_of_more hs (by omega), engineTick_of_more ht (by omega)]
      obtain ⟨-, hport, hstream, hdraws⟩ := h
      refine ⟨?_, hport, hstream, hdraws⟩
      simp only [State.timing, hop, hn, hrem]

end

/-! ## Outcomes alike -/

/-- Where `o` answers a next state, `o'` answers one too, and with the same control. -/
def StepsAlike (o o' : Host.Outcome State Fault Refusal) : Prop :=
  ∀ s', o = .next s' → ∃ t', o' = .next t' ∧ s'.sameControl t'

theorem stepsAlike_next {s t : State} (h : s.sameControl t) : StepsAlike (.next s) (.next t) := by
  intro s' hs
  cases hs
  exact ⟨t, rfl, h⟩

theorem stepsAlike_fault (f : Fault) (o : Host.Outcome State Fault Refusal) : StepsAlike (.fault f) o :=
  fun _ h => nomatch h

theorem stepsAlike_refused (r : Refusal) (o : Host.Outcome State Fault Refusal) : StepsAlike (.refused r) o :=
  fun _ h => nomatch h

theorem StepsAlike.thenTick_alike {o o' : Host.Outcome State Fault Refusal} (h : StepsAlike o o') :
    StepsAlike (thenTick o) (thenTick o') := by
  cases o with
  | next s =>
    obtain ⟨t, rfl, hst⟩ := h s rfl
    exact stepsAlike_next (sameControl_engineTick hst)
  | fault f => exact stepsAlike_fault f _
  | refused r => exact stepsAlike_refused r _

theorem StepsAlike.oneWord_alike {o o' : Host.Outcome State Fault Refusal} (h : StepsAlike o o') (bytes : Nat) :
    StepsAlike (oneWord bytes o) (oneWord bytes o') := by
  by_cases hb : bytes = 4
  · rwa [oneWord, oneWord, if_pos hb, if_pos hb]
  · rw [oneWord_of_ne hb]
    exact stepsAlike_refused _ _

/-! ## A cycle, from its commands up -/

section
variable {s t : State} (h : s.sameControl t)
include h

theorem stepsAlike_recordError (c : ErrCode) : StepsAlike (.next (recordError c s)) (.next (recordError c t)) :=
  stepsAlike_next (h.of_data_changes (sameControl_recordError c s) (sameControl_recordError c t))

/-- The gate of a command whose effect is `effect` (R222). -/
theorem stepsAlike_whenIdle {effect : State → State} (he : (effect s).sameControl (effect t)) :
    StepsAlike (whenIdle s fun u => .next (effect u)) (whenIdle t fun u => .next (effect u)) := by
  cases hb : s.busy with
  | true =>
    rw [whenIdle_of_busy hb, whenIdle_of_busy (h.busy_eq ▸ hb)]
    exact stepsAlike_recordError h .cmdBusy
  | false =>
    rw [whenIdle_of_idle hb, whenIdle_of_idle (h.busy_eq ▸ hb)]
    exact stepsAlike_next he

theorem stepsAlike_exec (i : Instr) : StepsAlike (exec i s) (exec i t) := by
  cases i with
  | nop => exact stepsAlike_whenIdle h (effect := id) h
  | init => exact stepsAlike_whenIdle h (h.of_data_changes (sameControl_loadIv s) (sameControl_loadIv t))
  | compress => exact stepsAlike_whenIdle h (sameControl_issue h _ _ _)
  | pad n => exact stepsAlike_whenIdle h (sameControl_issue h _ _ _)
  | final n => exact stepsAlike_whenIdle h (sameControl_issue h _ _ _)
  | clrerr => exact stepsAlike_whenIdle h (h.of_data_changes (sameControl_clearErrors s) (sameControl_clearErrors t))

theorem stepsAlike_issueCommand (v : Word) : StepsAlike (issueCommand v s) (issueCommand v t) := by
  cases hb : s.busy with
  | true =>
    rw [issueCommand_of_busy hb, issueCommand_of_busy (h.busy_eq ▸ hb)]
    exact stepsAlike_recordError h .cmdBusy
  | false =>
    rw [issueCommand_of_idle hb, issueCommand_of_idle (h.busy_eq ▸ hb)]
    cases decode v with
    | illegal _ => exact stepsAlike_recordError h .illegalCmd
    | command i => exact stepsAlike_exec h i

theorem stepsAlike_hostWrite (off : BitVec 8) (v : Word) : StepsAlike (hostWrite off v s) (hostWrite off v t) := by
  cases hr : regAt off with
  | none =>
    rw [hostWrite_of_reserved hr, hostWrite_of_reserved hr]
    exact stepsAlike_next h
  | some r =>
    by_cases hcmd : r = .cmd
    · subst hcmd
      rw [← hostAccess_write, ← hostAccess_write, hostAccess_cmd hr, hostAccess_cmd hr]
      exact stepsAlike_issueCommand h v
    · rw [hostWrite_of_regAt hr hcmd, hostWrite_of_regAt hr hcmd]
      exact stepsAlike_next (h.of_data_changes (sameControl_writeReg r v s) (sameControl_writeReg r v t))

theorem stepsAlike_hostAccess (a : Access) : StepsAlike (hostAccess a s) (hostAccess a t) := by
  match a with
  | .read (.window off) n => exact (stepsAlike_next (sameControl_hostRead h off)).oneWord_alike n
  | .write (.window off) n v => exact (stepsAlike_hostWrite h off v).oneWord_alike n
  | .read (.outside addr) _ => exact stepsAlike_fault _ _
  | .write (.outside addr) _ _ => exact stepsAlike_fault _ _

/-- Whether the command completes in the cycle, and in which order it and the access then act (R226), is the same. -/
theorem stepsAlike_accessCycle (a : Access) : StepsAlike (accessCycle a s) (accessCycle a t) := by
  have hdrawn := sameControl_drawOrder h
  have hcompleting := h.completing_eq
  have ⟨_, _, hstream, hdraws⟩ := h
  rw [accessCycle, accessCycle, ← hcompleting, ← hstream, ← hdraws]
  split
  · split
    · exact (stepsAlike_hostAccess hdrawn a).thenTick_alike
    · exact stepsAlike_hostAccess (sameControl_engineTick hdrawn) a
  · exact stepsAlike_hostAccess (sameControl_engineTick h) a

theorem stepsAlike_portCycle (c : Cycle) : StepsAlike (portCycle c s) (portCycle c t) := by
  match c with
  | { rst := true, access := none } => exact stepsAlike_next (sameControl_applyReset h)
  | { rst := true, access := some _ } => exact stepsAlike_refused _ _
  | { rst := false, access := none } => exact stepsAlike_next (sameControl_engineTick h)
  | { rst := false, access := some a } => exact stepsAlike_accessCycle h a

theorem stepsAlike_step : StepsAlike (step s) (step t) := by
  have hcycle : s.nextCycle = t.nextCycle := by
    obtain ⟨-, hport, -, -⟩ := h
    rw [State.nextCycle, State.nextCycle, hport]
  rw [step, step, hcycle]
  exact stepsAlike_portCycle (sameControl_popPort h) t.nextCycle

end

theorem latFinal_congr {n n' : Nat} (h : n ≤ 55 ↔ n' ≤ 55) : Config.latFinal n = Config.latFinal n' := by
  have hside : decide (56 ≤ n) = decide (56 ≤ n') := decide_eq_decide.mpr (by omega)
  rw [Config.latFinal, Config.latFinal, hside]

/-- Settles O37: each part of a cycle acts on states with the same control alike, and so does the cycle. -/
theorem timingIsIndependentOfData : Obligations.TimingIsIndependentOfData :=
  ⟨fun _ _ s' h hs => stepsAlike_step h s' hs, fun _ _ => ⟨rfl, rfl, latFinal_congr⟩⟩

/-! ## The reset state (R250, R253) -/

/-- The reset state is what a reset leaves, of a state that has passed no free value. -/
theorem reset_eq_applyReset : State.reset = applyReset { State.reset with draws := 0 } := rfl

theorem loadIv_reset : loadIv State.reset = State.reset := rfl

theorem getElem_applyReset_mWritten (s : State) (i : Fin 16) : (applyReset s).mWritten[i] = false :=
  getElem_tabulate 16 _ i.val i.isLt

theorem getElem_applyReset_hKnown (s : State) (i : Fin 5) : (applyReset s).hKnown[i] = true :=
  getElem_tabulate 5 _ i.val i.isLt

/-- Right after a reset H reads as it is: the block is idle and all of H is known. -/
theorem readReg_h_applyReset (s : State) (i : Fin 5) : readReg (.h i) (applyReset s) = CV.word Config.iv i := by
  rw [readReg, applyReset_busy, getElem_applyReset_hKnown]
  exact valueIf_of_known _ _

theorem readStatus_applyReset (s : State) : readStatus (applyReset s) = 0 := by
  rw [readStatus_of_idle (applyReset_busy s)]
  apply BitVec.eq_of_toNat_eq
  rw [toNat_statusWith]
  simp [nblkBits, ErrCode.bits]

/-- Settles O28: the values of a reset, and the reads that follow from them. -/
theorem resetLeavesTheStatedValues : Obligations.ResetLeavesTheStatedValues := by
  rw [Obligations.ResetLeavesTheStatedValues, reset_eq_applyReset]
  exact ⟨rfl, rfl, rfl, rfl, rfl, rfl, rfl, rfl, readStatus_applyReset _, rfl, readReg_h_applyReset _⟩

/-- Settles O30: INIT loads what H and LEN hold after reset. -/
theorem resetIsWhatInitLeaves : Obligations.ResetIsWhatInitLeaves := by
  refine ⟨?_, rfl, rfl, rfl⟩
  rw [exec_init_of_idle rfl, loadIv_reset]

/-- Settles O31: a reset from any state leaves the invariant. -/
theorem resetMeetsTheInvariant : Obligations.ResetMeetsTheInvariant := by
  rw [Obligations.ResetMeetsTheInvariant, reset_eq_applyReset]
  exact inv_applyReset _

/-! ## A cycle with rst (R250, R251) -/

/-- Settles O29: the cycle is a reset of the state with its input taken, and nothing else. -/
theorem resetCycleFromAnyState : Obligations.ResetCycleFromAnyState := by
  refine ⟨fun s rest hport => ?_, fun s rest a hport => step_of_cons hport⟩
  exact ⟨applyReset { s with port := rest }, step_of_cons hport, rfl, rfl, rfl, rfl, rfl, rfl, rfl,
    getElem_applyReset_mWritten _, getElem_applyReset_hKnown _, rfl, rfl, rfl, rfl⟩

end Sys2Proof.Machine
end
